-- ==== Sys2Proof/Word.lean ====
section
/-! DEFINITION. The word types of the block: the 32-bit unit of storage and the byte (00_scope.md R6, R8). -/

namespace Sys2Proof

/-- "Word: a 32-bit unit of storage", a raw bit pattern (00_scope.md R6, R8). -/
abbrev Word := BitVec 32

/-- The smallest addressable unit of data memory (20_memory.md R51). -/
abbrev Byte := BitVec 8

end Sys2Proof
end

