-- ==== Sys2Proof/Config.lean ====
section
/-! DEFINITION. The open parameters of 00_scope.md R7 that are fixed for one machine. -/

namespace Sys2Proof

/-- How far `MEM_MAX_WORDS` lies above its least value 32. No body: the spec gives only the bounds
`32 <= MEM_MAX_WORDS <= 2^30` (00_scope.md R7, decision D36). Log 8. -/
opaque Config.memMaxExtra : Fin (2 ^ 30 - 32 + 1)

/-- `MEM_MAX_WORDS`, the largest size a resize accepts (00_scope.md R7). Log 8. -/
def Config.memMaxWords : Nat := Config.memMaxExtra.val + 32

/-- The `FUEL` of the state after reset (00_scope.md R7). `FUEL` itself is an argument of every run, the
input `fuel` of the state. DESIGN CHOICE, safe: no statement rests on this number. Log 9. -/
def Config.fuelAtReset : Nat := 18446744073709551616

/-- `FloatFormat`, the meaning of the floating interpretation of 32-bit and 64-bit contents, which the
spec names and never defines (00_scope.md R7, R10; 93 U9). A parameter of the view functions, no
operation computes with it. Log 14. -/
structure Config.FloatFormat where
  /-- What a floating value is. -/
  Value : Type
  /-- The value a 32-bit content stands for. -/
  of32 : BitVec 32 → Value
  /-- The value a 64-bit content stands for. -/
  of64 : BitVec 64 → Value

end Sys2Proof
end

