-- ==== Sys2Proof/Syntax.lean ====
section
/-! DEFINITION. The syntax: the block's 30 operations with their operands (30_encoding.md R78, R80, R87),
the bulk payloads (40_wordstorage_ops.md R104, 43_machine_state_ops.md R133), the CPU instructions of the
instruction port and their effects (44_controller_commands.md R140, R141), and the host's inputs. -/

namespace Sys2Proof

/-- The four banks, in the order of field `b` (30_encoding.md R77). -/
inductive Bank where
  | gpr | status | vec | mem
  deriving DecidableEq, Repr

/-- The banks `WS.SETOFF` takes: "bank `b` in {`GPR`, `STATUS`, `VEC`}" (40_wordstorage_ops.md R103). An
operation written as a constructor is then never the illegal one (60_exceptions.md R166). Log 17. -/
inductive RegisterBank where
  | gpr | status | vec
  deriving DecidableEq, Repr

/-- The bank a register bank is. -/
def RegisterBank.bank : RegisterBank → Bank
  | .gpr => .gpr
  | .status => .status
  | .vec => .vec

/-- Register size class, field `c`: `DOUBLE` 2 words, `QUAD` 4 words (00_scope.md R6). -/
inductive SizeClass where
  | double | quad
  deriving DecidableEq, Repr

/-- A sparse map (40_wordstorage_ops.md R104): entries keyed by external index, the optional offset and,
for `MEM` only, the optional word count. A finite map is a list with rising keys (log 13). -/
structure SparseMap where
  entries : List (Int × Word)
  offsetW : Option Int
  sizeW : Option Int
  deriving DecidableEq, Repr

/-- The empty record of 43_machine_state_ops.md R134. -/
def SparseMap.empty : SparseMap := { entries := [], offsetW := none, sizeW := none }

/-- A snapshot: four optional sparse maps under the keys of 10_state.md R44. -/
structure Snapshot where
  arm : Option SparseMap
  memory : Option SparseMap
  neon : Option SparseMap
  spec : Option SparseMap
  deriving DecidableEq, Repr

/-- The snapshot with all four keys absent (44_controller_commands.md R148). -/
def Snapshot.empty : Snapshot := { arm := none, memory := none, neon := none, spec := none }

/-- The 30 operations of the opcode table (30_encoding.md R80), each with the operands R78 gives it, in
the order of R87: fields of the command word, then `A`, `D`, the payload `P`, the flags last. -/
inductive Instr where
  /-- `WS.GET b, A` (R100) -/
  | wsGet (b : Bank) (a : Word)
  /-- `WS.SET b, A, D, n` (R101) -/
  | wsSet (b : Bank) (a d : Word) (n : Bool)
  /-- `WS.CLEAR b, n` (R102) -/
  | wsClear (b : Bank) (n : Bool)
  /-- `WS.SETOFF b, A`, a register bank only (R103) -/
  | wsSetoff (b : RegisterBank) (a : Word)
  /-- `WS.SER b` (R104) -/
  | wsSer (b : Bank)
  /-- `WS.DESER b, P` (R105) -/
  | wsDeser (b : Bank) (p : SparseMap)
  /-- `WS.RECV b, r, A, D` (R106) -/
  | wsRecv (b : Bank) (r : BitVec 8) (a d : Word)
  /-- `V.GETQ r` (R110) -/
  | vGetq (r : BitVec 8)
  /-- `V.SETQ r, D, n` (R111) -/
  | vSetq (r : BitVec 8) (d : BitVec 128) (n : Bool)
  /-- `V.GETD r` (R112) -/
  | vGetd (r : BitVec 8)
  /-- `V.SETD r, D, n` (R113) -/
  | vSetd (r : BitVec 8) (d : BitVec 64) (n : Bool)
  /-- `V.GETE c, w, r, e` (R114) -/
  | vGete (c : SizeClass) (w : BitVec 6) (r : BitVec 8) (e : BitVec 7)
  /-- `V.SETE c, w, r, e, D` (R115) -/
  | vSete (c : SizeClass) (w : BitVec 6) (r : BitVec 8) (e : BitVec 7) (d : Word)
  /-- `M.RDW A` (R120) -/
  | mRdw (a : Word)
  /-- `M.WRW A, D` (R121) -/
  | mWrw (a d : Word)
  /-- `M.RDV w, A` (R122) -/
  | mRdv (w : BitVec 6) (a : Word)
  /-- `M.WRV w, A, D` (R123) -/
  | mWrv (w : BitVec 6) (a d : Word)
  /-- `M.RESIZE A, n, m` (R124) -/
  | mResize (a : Word) (n m : Bool)
  /-- `M.SETOFF A, n, m` (R125) -/
  | mSetoff (a : Word) (n m : Bool)
  /-- `PC.GET` (R130) -/
  | pcGet
  /-- `PC.SET A` (R131) -/
  | pcSet (a : Word)
  /-- `PC.ADV` (R132) -/
  | pcAdv
  /-- `MS.SNAP` (R133) -/
  | msSnap
  /-- `MS.REST P` (R134) -/
  | msRest (p : Snapshot)
  /-- `MS.HILITE b, A, D` (R135) -/
  | msHilite (b : Bank) (a d : Word)
  /-- `STEP` (R144) -/
  | step
  /-- `RUNBP` (R145) -/
  | runbp
  /-- `RUNEND` (R146) -/
  | runend
  /-- `RSTX` (R147) -/
  | rstx
  /-- `RSTM` (R148) -/
  | rstm
  deriving DecidableEq, Repr

/-- The five controller commands, which an effect may not issue (44_controller_commands.md R141). -/
def Instr.isCommand : Instr → Bool
  | .step | .runbp | .runend | .rstx | .rstm => true
  | .wsGet .. | .wsSet .. | .wsClear .. | .wsSetoff .. | .wsSer .. | .wsDeser .. | .wsRecv .. => false
  | .vGetq .. | .vSetq .. | .vGetd .. | .vSetd .. | .vGete .. | .vSete .. => false
  | .mRdw .. | .mWrw .. | .mRdv .. | .mWrv .. | .mResize .. | .mSetoff .. => false
  | .pcGet | .pcSet .. | .pcAdv | .msSnap | .msRest .. | .msHilite .. => false

/-! The pseudo-operations of 30_encoding.md R88: they have no encoding of their own. -/

/-- `M.RDB a` = `M.RDV 8, a` (R88). -/
def Instr.mRdb (a : Word) : Instr := .mRdv 8 a
/-- `M.RDH a` = `M.RDV 16, a` (R88). -/
def Instr.mRdh (a : Word) : Instr := .mRdv 16 a
/-- `M.WRB a, v` = `M.WRV 8, a, v` (R88). -/
def Instr.mWrb (a d : Word) : Instr := .mWrv 8 a d
/-- `M.WRH a, v` = `M.WRV 16, a, v` (R88). -/
def Instr.mWrh (a d : Word) : Instr := .mWrv 16 a d
/-- `V.GETS s` = `V.GETE DOUBLE, 32, s div 2, s mod 2`, `s` in 0..63 (R88). -/
def Instr.vGets (s : BitVec 6) : Instr :=
  .vGete .double 32 (BitVec.ofNat 8 (s.toNat / 2)) (BitVec.ofNat 7 (s.toNat % 2))
/-- `V.SETS s, v` = `V.SETE DOUBLE, 32, s div 2, s mod 2, v` (R88). -/
def Instr.vSets (s : BitVec 6) (d : Word) : Instr :=
  .vSete .double 32 (BitVec.ofNat 8 (s.toNat / 2)) (BitVec.ofNat 7 (s.toNat % 2)) d
/-- `MemRead(a, n)` = `M.RDV 8n, a`, `n` in 1..4 (R12, R88). -/
def Instr.memRead (a : Word) (n : Nat) : Instr := .mRdv (BitVec.ofNat 6 (8 * n)) a
/-- `MemWrite(a, n, v)` = `M.WRV 8n, a, v`, `n` in 1..4 (R12, R88). -/
def Instr.memWrite (a : Word) (n : Nat) (d : Word) : Instr := .mWrv (BitVec.ofNat 6 (8 * n)) a d

/-- What a completed operation returns on `Q` or `PO` (30_encoding.md R76), typed by the datum the
operation's rule names: a word in `Q[31:0]`, a double in `Q[63:0]`, a quad, a sparse map, a snapshot, or
nothing. DESIGN CHOICE, safe: bits of `Q` outside the datum are not represented. Log 6. -/
inductive Answer where
  | none
  | word (v : BitVec 32)
  | double (v : BitVec 64)
  | quad (v : BitVec 128)
  | map (m : SparseMap)
  | snapshot (s : Snapshot)
  deriving DecidableEq, Repr

/-! The instruction port. An effect is "an opaque operation that reads/writes the machine state", a
parameter of the model (R141). State is plain data, so an effect is written as data: a finite tree of
operations, each with operands computed from the answers of the earlier ones. Log 4. -/

/-- An operand computed inside an effect, a 128-bit value cut to the operand's width where it is used.
The arithmetic belongs to the effect, not to the block (95_test_vectors.md part 3). Log 4. -/
inductive Expr where
  | lit (v : BitVec 128)
  /-- the answer of the effect's k-th operation so far, zero-extended -/
  | tmp (k : Nat)
  | add (x y : Expr)
  | sub (x y : Expr)
  | mul (x y : Expr)
  | and (x y : Expr)
  | or (x y : Expr)
  | xor (x y : Expr)
  | shl (x : Expr) (n : Nat)
  | shr (x : Expr) (n : Nat)
  deriving DecidableEq, Repr

/-- A test inside an effect. -/
inductive Cond where
  | eq (x y : Expr)
  | ult (x y : Expr)
  /-- the k-th answer is exactly this one -/
  | answerIs (k : Nat) (a : Answer)
  deriving DecidableEq, Repr

/-- One operation issued by an effect: an operation as a constructor (60_exceptions.md R166), with `A`,
`D` or the payload optionally computed from earlier answers. -/
structure Action where
  op : Instr
  a : Option Expr := none
  d : Option Expr := none
  p : Option Nat := none
  deriving DecidableEq, Repr

/-- The effect of a valid instruction: operations "in an order of its choosing" (R141). -/
inductive Effect where
  | done
  | act (x : Action) (next : Effect)
  | branch (c : Cond) (yes no : Effect)
  deriving DecidableEq, Repr

/-- "polymorphic over {valid, error}": `Valid(effect, breakpoint)` or `Error(message, span)` (R140). The spec
names the message and the parse-failure span and gives neither a form. DESIGN CHOICE, safe: the message is a
`String`, the span a list of naturals; no operation reads either. Log 21. -/
inductive CpuInstr where
  | valid (effect : Effect) (breakpoint : Bool)
  | error (message : String) (span : List Nat)
  deriving DecidableEq, Repr

/-- The instruction sequence: `instr_at(i)` is the i-th element and `instruction_count` the length, so an
instruction is present exactly when `0 <= i < instruction_count` (R140, decision D32). -/
abbrev Program := List CpuInstr

/-- The payload bus `P` (30_encoding.md R76): a sparse map for `WS.DESER`, a snapshot for `MS.REST`.
DESIGN CHOICE, safe: one line for each kind, an operation reads only its own. Log 5. -/
structure Payload where
  map : SparseMap
  snapshot : Snapshot
  deriving DecidableEq, Repr

/-- Both lines empty. -/
def Payload.empty : Payload := { map := .empty, snapshot := .empty }

/-- One use of the command port: `cmd[31:0]`, `A[31:0]`, `D[127:0]` and `P` (30_encoding.md R76). -/
structure Request where
  cmd : Word
  a : Word
  d : BitVec 128
  p : Payload
  deriving DecidableEq, Repr

/-- What the host can do between two commands: issue an operation (00_scope.md R17), or change the
program text (70_reset_and_hazards.md R200). Log 2, log 3. -/
inductive HostInput where
  | command (r : Request)
  | program (p : Program)
  deriving DecidableEq, Repr

end Sys2Proof
end

