-- ==== Sys2Proof/WellFormed.lean ====
section
/-! DEFINITION. Which terms of the syntax the spec admits: an encodable operation, a sparse map that is a
finite map, an effect that issues no controller command, a program of at most `2^29` instructions. -/

namespace Sys2Proof

/-- The keys rise strictly, so the entries are a finite map (40_wordstorage_ops.md R104), and a word
count is non-negative. -/
def SparseMap.wf (m : SparseMap) : Bool :=
  decide (m.entries.Pairwise (fun x y => x.1 < y.1)) && decide (0 ≤ m.sizeW.getD 0)

/-- Each sparse map present is one, and only `memory` carries a word count (R104, R133). -/
def Snapshot.wf (s : Snapshot) : Bool :=
  let ok := fun (m : Option SparseMap) => m.all (fun x => x.wf && x.sizeW.isNone)
  ok s.arm && ok s.neon && ok s.spec && s.memory.all SparseMap.wf

/-- The payloads are maps, and only `MEM`'s carries a word count (R104, R105, R133). -/
def Instr.wf : Instr → Bool
  | .wsDeser b p => p.wf && (decide (b = Bank.mem) || p.sizeW.isNone)
  | .msRest p => p.wf
  | .wsGet .. | .wsSet .. | .wsClear .. | .wsSetoff .. | .wsSer .. | .wsRecv .. => true
  | .vGetq .. | .vSetq .. | .vGetd .. | .vSetd .. | .vGete .. | .vSete .. => true
  | .mRdw .. | .mWrw .. | .mRdv .. | .mWrv .. | .mResize .. | .mSetoff .. => true
  | .pcGet | .pcSet .. | .pcAdv | .msSnap | .msHilite .. => true
  | .step | .runbp | .runend | .rstx | .rstm => true

/-- Every temporary an operand names is the answer of an earlier operation: `n` of them exist. -/
def Expr.scoped (n : Nat) : Expr → Bool
  | .lit _ => true
  | .tmp k => decide (k < n)
  | .add x y | .sub x y | .mul x y | .and x y | .or x y | .xor x y => x.scoped n && y.scoped n
  | .shl x _ | .shr x _ => x.scoped n

/-- As `Expr.scoped`, for a test. -/
def Cond.scoped (n : Nat) : Cond → Bool
  | .eq x y | .ult x y => x.scoped n && y.scoped n
  | .answerIs k _ => decide (k < n)

/-- The operation is well formed, is no controller command (R141), and its computed operands are in
scope. -/
def Action.wf (n : Nat) (x : Action) : Bool :=
  x.op.wf && !x.op.isCommand && x.a.all (Expr.scoped n) && x.d.all (Expr.scoped n) && x.p.all (· < n)

/-- An effect all of whose operations are well formed, after `n` earlier answers. -/
def Effect.wf : Nat → Effect → Bool
  | _, .done => true
  | n, .act x e => x.wf n && e.wf (n + 1)
  | n, .branch c e f => c.scoped n && e.wf n && f.wf n

/-- An instruction of the port; an error instruction is always one (R140). -/
def CpuInstr.wf : CpuInstr → Bool
  | .valid e _ => e.wf 0
  | .error _ _ => true

/-- What the spec assumes of the instruction-sequence collaborator: `instruction_count <= 2^29`, a named
premise that nothing in the machine relies on (R140, decision D32). Log 18. -/
def programWf (p : Program) : Bool := decide (p.length ≤ 2 ^ 29) && p.all CpuInstr.wf

end Sys2Proof
end

