-- ==== Sys2Proof/Decode.lean ====
section
/-! DEFINITION. Format C (30_encoding.md R77), the decoder (R78 to R83), the encoder, and the opcode table
with match and mask (R80, R81). Decoding is total: every use of the port gives an operation or a named
rejection. -/

namespace Sys2Proof

/-- The fields of a command word, each one contiguous and used as it stands (30_encoding.md R77, R79). -/
structure Fields where
  op : BitVec 6
  b : BitVec 2
  n : Bool
  m : Bool
  c : Bool
  w : BitVec 6
  e : BitVec 7
  r : BitVec 8
  deriving DecidableEq, Repr

/-- The table of R77: `op` 31:26, `b` 25:24, `n` 23, `m` 22, `c` 21, `w` 20:15, `e` 14:8, `r` 7:0. -/
def splitFields (cmd : Word) : Fields where
  op := cmd.extractLsb' 26 6
  b := cmd.extractLsb' 24 2
  n := cmd.getLsbD 23
  m := cmd.getLsbD 22
  c := cmd.getLsbD 21
  w := cmd.extractLsb' 15 6
  e := cmd.extractLsb' 8 7
  r := cmd.extractLsb' 0 8

/-- The command word with these fields: `op` most significant, `r` least (R77). -/
def joinFields (f : Fields) : Word :=
  f.op ++ f.b ++ BitVec.ofBool f.n ++ BitVec.ofBool f.m ++ BitVec.ofBool f.c ++ f.w ++ f.e ++ f.r

/-- Field `b`: 0 `GPR`, 1 `STATUS`, 2 `VEC`, 3 `MEM` (R77). -/
def bankOfField (b : BitVec 2) : Bank :=
  if b = 0 then .gpr else if b = 1 then .status else if b = 2 then .vec else .mem

/-- The register bank field `b` names for `WS.SETOFF`; none for `b = 3` (R77, R103). -/
def registerBankOfField (b : BitVec 2) : Option RegisterBank :=
  if b = 0 then some .gpr else if b = 1 then some .status else if b = 2 then some .vec else none

/-- The number of a bank in field `b` (R77). -/
def Bank.field : Bank → BitVec 2
  | .gpr => 0
  | .status => 1
  | .vec => 2
  | .mem => 3

/-- Field `c`: 0 `DOUBLE`, 1 `QUAD` (R77). -/
def sizeClassOfField (c : Bool) : SizeClass := if c then .quad else .double

/-- The bit of a size class in field `c` (R77). -/
def SizeClass.field : SizeClass → Bool
  | .double => false
  | .quad => true

/-- Which fields beside `op` an operation uses (30_encoding.md R78). -/
structure Uses where
  b : Bool := false
  n : Bool := false
  m : Bool := false
  c : Bool := false
  w : Bool := false
  e : Bool := false
  r : Bool := false
  deriving DecidableEq, Repr

/-- "Every field of rule R77 that rule R78 does not list for an operation is reserved for that operation
and must be 0" (R81). -/
def Fields.reservedZero (f : Fields) (u : Uses) : Bool :=
  (u.b || decide (f.b = 0)) && (u.n || !f.n) && (u.m || !f.m) && (u.c || !f.c) &&
    (u.w || decide (f.w = 0)) && (u.e || decide (f.e = 0)) && (u.r || decide (f.r = 0))

/-- Why a command word selects no row of the table (30_encoding.md R82). -/
inductive DecodeError where
  /-- the `op` value is not in R80 -/
  | unassignedOp
  /-- a field reserved for the operation is not 0 (R81) -/
  | reservedField
  /-- `WS.SETOFF` with `b = 3` (R103) -/
  | setoffMem
  deriving DecidableEq, Repr

/-- The row is selected when its reserved fields are 0 (R81). -/
def row (f : Fields) (u : Uses) (i : Instr) : Except DecodeError Instr :=
  if f.reservedZero u then .ok i else .error .reservedField

/-- The opcode map of R80 with the operands of R78: which operation the fields and the buses name. -/
def decodeFields (f : Fields) (a : Word) (d : BitVec 128) (p : Payload) : Except DecodeError Instr :=
  match f.op.toNat with
  | 0x01 => row f { b := true } (.wsGet (bankOfField f.b) a)
  | 0x02 => row f { b := true, n := true } (.wsSet (bankOfField f.b) a (d.setWidth 32) f.n)
  | 0x03 => row f { b := true, n := true } (.wsClear (bankOfField f.b) f.n)
  | 0x04 =>
    match registerBankOfField f.b with
    | some b => row f { b := true } (.wsSetoff b a)
    | none => .error .setoffMem
  | 0x05 => row f { b := true } (.wsSer (bankOfField f.b))
  | 0x06 => row f { b := true } (.wsDeser (bankOfField f.b) p.map)
  | 0x07 => row f { b := true, r := true } (.wsRecv (bankOfField f.b) f.r a (d.setWidth 32))
  | 0x08 => row f { r := true } (.vGetq f.r)
  | 0x09 => row f { n := true, r := true } (.vSetq f.r d f.n)
  | 0x0A => row f { r := true } (.vGetd f.r)
  | 0x0B => row f { n := true, r := true } (.vSetd f.r (d.setWidth 64) f.n)
  | 0x0C => row f { c := true, w := true, e := true, r := true } (.vGete (sizeClassOfField f.c) f.w f.r f.e)
  | 0x0D => row f { c := true, w := true, e := true, r := true } (.vSete (sizeClassOfField f.c) f.w f.r f.e (d.setWidth 32))
  | 0x10 => row f {} (.mRdw a)
  | 0x11 => row f {} (.mWrw a (d.setWidth 32))
  | 0x12 => row f { w := true } (.mRdv f.w a)
  | 0x13 => row f { w := true } (.mWrv f.w a (d.setWidth 32))
  | 0x14 => row f { n := true, m := true } (.mResize a f.n f.m)
  | 0x15 => row f { n := true, m := true } (.mSetoff a f.n f.m)
  | 0x18 => row f {} .pcGet
  | 0x19 => row f {} (.pcSet a)
  | 0x1A => row f {} .pcAdv
  | 0x1B => row f {} .msSnap
  | 0x1C => row f {} (.msRest p.snapshot)
  | 0x1D => row f { b := true } (.msHilite (bankOfField f.b) a (d.setWidth 32))
  | 0x20 => row f {} .step
  | 0x21 => row f {} .runbp
  | 0x22 => row f {} .runend
  | 0x23 => row f {} .rstx
  | 0x24 => row f {} .rstm
  | _ => .error .unassignedOp

/-- The decoder of the command port: the operation one use of the port names (30_encoding.md R76). -/
def decode (q : Request) : Except DecodeError Instr := decodeFields (splitFields q.cmd) q.a q.d q.p

/-- All fields 0 but `op`. -/
def opField (op : BitVec 6) : Fields :=
  { op := op, b := 0, n := false, m := false, c := false, w := 0, e := 0, r := 0 }

/-- The command-word fields of an operation, reserved fields 0 (R78, R80, R81). -/
def Instr.fields : Instr → Fields
  | .wsGet b _ => { opField 0x01 with b := b.field }
  | .wsSet b _ _ n => { opField 0x02 with b := b.field, n := n }
  | .wsClear b n => { opField 0x03 with b := b.field, n := n }
  | .wsSetoff b _ => { opField 0x04 with b := b.bank.field }
  | .wsSer b => { opField 0x05 with b := b.field }
  | .wsDeser b _ => { opField 0x06 with b := b.field }
  | .wsRecv b r _ _ => { opField 0x07 with b := b.field, r := r }
  | .vGetq r => { opField 0x08 with r := r }
  | .vSetq r _ n => { opField 0x09 with r := r, n := n }
  | .vGetd r => { opField 0x0A with r := r }
  | .vSetd r _ n => { opField 0x0B with r := r, n := n }
  | .vGete c w r e => { opField 0x0C with c := c.field, w := w, r := r, e := e }
  | .vSete c w r e _ => { opField 0x0D with c := c.field, w := w, r := r, e := e }
  | .mRdw _ => opField 0x10
  | .mWrw _ _ => opField 0x11
  | .mRdv w _ => { opField 0x12 with w := w }
  | .mWrv w _ _ => { opField 0x13 with w := w }
  | .mResize _ n m => { opField 0x14 with n := n, m := m }
  | .mSetoff _ n m => { opField 0x15 with n := n, m := m }
  | .pcGet => opField 0x18
  | .pcSet _ => opField 0x19
  | .pcAdv => opField 0x1A
  | .msSnap => opField 0x1B
  | .msRest _ => opField 0x1C
  | .msHilite b _ _ => { opField 0x1D with b := b.field }
  | .step => opField 0x20
  | .runbp => opField 0x21
  | .runend => opField 0x22
  | .rstx => opField 0x23
  | .rstm => opField 0x24

/-- The value an operation puts on bus `A`, 0 where R78 lists none. -/
def Instr.busA : Instr → Word
  | .wsGet _ a | .wsSet _ a _ _ | .wsSetoff _ a | .wsRecv _ _ a _ => a
  | .mRdw a | .mWrw a _ | .mRdv _ a | .mWrv _ a _ | .mResize a _ _ | .mSetoff a _ _ => a
  | .pcSet a | .msHilite _ a _ => a
  | .wsClear .. | .wsSer .. | .wsDeser .. | .vGetq .. | .vSetq .. | .vGetd .. | .vSetd .. => 0
  | .vGete .. | .vSete .. | .pcGet | .pcAdv | .msSnap | .msRest .. => 0
  | .step | .runbp | .runend | .rstx | .rstm => 0

/-- The value an operation puts on bus `D`: "a word in `D[31:0]`, a double in `D[63:0]`, a quad in
`D[127:0]`" (R76), 0 where R78 lists none. -/
def Instr.busD : Instr → BitVec 128
  | .wsSet _ _ d _ | .wsRecv _ _ _ d | .vSete _ _ _ _ d => d.setWidth 128
  | .mWrw _ d | .mWrv _ _ d | .msHilite _ _ d => d.setWidth 128
  | .vSetd _ d _ => d.setWidth 128
  | .vSetq _ d _ => d
  | .wsGet .. | .wsClear .. | .wsSetoff .. | .wsSer .. | .wsDeser .. | .vGetq .. | .vGetd .. => 0
  | .vGete .. | .mRdw .. | .mRdv .. | .mResize .. | .mSetoff .. => 0
  | .pcGet | .pcSet .. | .pcAdv | .msSnap | .msRest .. => 0
  | .step | .runbp | .runend | .rstx | .rstm => 0

/-- The payload an operation puts on `P` (R78), empty where it has none. -/
def Instr.busP : Instr → Payload
  | .wsDeser _ p => { Payload.empty with map := p }
  | .msRest p => { Payload.empty with snapshot := p }
  | .wsGet .. | .wsSet .. | .wsClear .. | .wsSetoff .. | .wsSer .. | .wsRecv .. => .empty
  | .vGetq .. | .vSetq .. | .vGetd .. | .vSetd .. | .vGete .. | .vSete .. => .empty
  | .mRdw .. | .mWrw .. | .mRdv .. | .mWrv .. | .mResize .. | .mSetoff .. => .empty
  | .pcGet | .pcSet .. | .pcAdv | .msSnap | .msHilite .. => .empty
  | .step | .runbp | .runend | .rstx | .rstm => .empty

/-- The use of the port that issues an operation. -/
def encode (i : Instr) : Request :=
  { cmd := joinFields i.fields, a := i.busA, d := i.busD, p := i.busP }

/-- One row of the opcode table: "a word selects the row when `word & mask = match`" (R81). -/
structure TableRow where
  mnemonic : String
  pattern : Word
  mask : Word
  deriving DecidableEq, Repr

/-- The WordStorage rows of spec/opcode_table.json. -/
def tableStorage : List TableRow :=
  [⟨"WS.GET", 0x04000000, 0xFCFFFFFF⟩, ⟨"WS.SET", 0x08000000, 0xFC7FFFFF⟩,
   ⟨"WS.CLEAR", 0x0C000000, 0xFC7FFFFF⟩, ⟨"WS.SETOFF", 0x10000000, 0xFCFFFFFF⟩,
   ⟨"WS.SER", 0x14000000, 0xFCFFFFFF⟩, ⟨"WS.DESER", 0x18000000, 0xFCFFFFFF⟩,
   ⟨"WS.RECV", 0x1C000000, 0xFCFFFF00⟩]

/-- The vector rows. -/
def tableVector : List TableRow :=
  [⟨"V.GETQ", 0x20000000, 0xFFFFFF00⟩, ⟨"V.SETQ", 0x24000000, 0xFF7FFF00⟩,
   ⟨"V.GETD", 0x28000000, 0xFFFFFF00⟩, ⟨"V.SETD", 0x2C000000, 0xFF7FFF00⟩,
   ⟨"V.GETE", 0x30000000, 0xFFC00000⟩, ⟨"V.SETE", 0x34000000, 0xFFC00000⟩]

/-- The memory rows. -/
def tableMemory : List TableRow :=
  [⟨"M.RDW", 0x40000000, 0xFFFFFFFF⟩, ⟨"M.WRW", 0x44000000, 0xFFFFFFFF⟩,
   ⟨"M.RDV", 0x48000000, 0xFFE07FFF⟩, ⟨"M.WRV", 0x4C000000, 0xFFE07FFF⟩,
   ⟨"M.RESIZE", 0x50000000, 0xFF3FFFFF⟩, ⟨"M.SETOFF", 0x54000000, 0xFF3FFFFF⟩]

/-- The MachineState rows. -/
def tableMachine : List TableRow :=
  [⟨"PC.GET", 0x60000000, 0xFFFFFFFF⟩, ⟨"PC.SET", 0x64000000, 0xFFFFFFFF⟩,
   ⟨"PC.ADV", 0x68000000, 0xFFFFFFFF⟩, ⟨"MS.SNAP", 0x6C000000, 0xFFFFFFFF⟩,
   ⟨"MS.REST", 0x70000000, 0xFFFFFFFF⟩, ⟨"MS.HILITE", 0x74000000, 0xFCFFFFFF⟩]

/-- The controller rows. -/
def tableController : List TableRow :=
  [⟨"STEP", 0x80000000, 0xFFFFFFFF⟩, ⟨"RUNBP", 0x84000000, 0xFFFFFFFF⟩,
   ⟨"RUNEND", 0x88000000, 0xFFFFFFFF⟩, ⟨"RSTX", 0x8C000000, 0xFFFFFFFF⟩,
   ⟨"RSTM", 0x90000000, 0xFFFFFFFF⟩]

/-- spec/opcode_table.json, 30 rows with its match and mask values (R80, R81). -/
def opcodeTable : List TableRow :=
  tableStorage ++ tableVector ++ tableMemory ++ tableMachine ++ tableController

/-- A word selects a row (R81). -/
def TableRow.selects (t : TableRow) (cmd : Word) : Bool := cmd &&& t.mask == t.pattern

/-- A use of the port with every bus 0 and both payload lines empty. -/
def bareRequest (cmd : Word) : Request := { cmd := cmd, a := 0, d := 0, p := .empty }

/-- The operation the decoder reads from a command word of 32 bits, bit 0 the least significant, with the
operand buses 0 and the payload empty: the word is the whole of format C (30_encoding.md R84). A word of
another length is none. -/
def decodeTableWord (nbits w : Nat) : Option Instr :=
  if nbits = 32 ∧ w < 2 ^ 32 then (decode (bareRequest (BitVec.ofNat 32 w))).toOption else none

end Sys2Proof
end

