-- ==== Sys2Proof/Machine/State.lean ====
section
/-! DEFINITION. Everything the spec gives the machine (10_state.md R34, R42), the port's outputs, the inputs
a step reads, the reasons a step can stop, and the state after power-on (R43). -/

namespace Sys2Proof.Machine

/-- The components that emit events; their tokens are 0 to 5 (10_state.md R38). -/
inductive Component where
  | gpr | status | vec | mem | ms | ctl
  deriving DecidableEq, Repr

/-- The causes of 60_exceptions.md R160, in the order of their codes. -/
inductive Cause where
  | none | addressingFault | instructionError | pcInvalid | stall | widthFault | illegalCommand
  deriving DecidableEq, Repr

/-- What a diagnostic records (60_exceptions.md R162, R163). The spec gives message and span no form. DESIGN
CHOICE, safe: a `String` and a list of naturals, as the instruction carries them. Log 21. -/
inductive DiagInfo where
  /-- the PC that is misaligned or has no instruction -/
  | pc (p : Word)
  /-- the PC and the error instruction's own message and span, in the forms log 21 chose for them -/
  | parse (p : Word) (message : String) (span : List Nat)
  deriving DecidableEq, Repr

/-- The event kinds with their payloads (10_state.md R39). -/
inductive Event where
  | valueChanged (bank : Bank) (index : Int) (word : Word) (origin : Component)
  | pcChanged (value : Word) (origin : Component)
  | settingsChanged (sizeW : Nat) (offsetW : Int) (origin : Component)
  | highlightIntent (target : Bank) (first last : Word) (origin : Component)
  | clearHighlights (origin : Component)
  | diagnostic (kind : Cause) (info : DiagInfo) (origin : Component)
  deriving DecidableEq, Repr

/-- The controller's one state variable (10_state.md R36). `haltedOnError` is listed and unreachable
(90 C3). Log 11. -/
inductive CtlState where
  | idle | stepping | haltedOnError
  deriving DecidableEq, Repr

/-- A register bank: `offset`, "the external index corresponding to internal slot 0", and its fixed number
of words (10_state.md R20). -/
structure RegBank (n : Nat) where
  off : Int
  w : Vector Word n
  deriving DecidableEq, Repr

/-- The memory bank: `MEM.N`, `MEM.off`, and its content as bytes (10_state.md R32, 20_memory.md R56).
A cell's key is `4 * slot + lane`, its place from the window's first byte, so words at a negative
external index (R54) have keys too. An unlisted byte reads 0 (R43). Log 12. -/
structure Memory where
  n : Nat
  off : Int
  cells : List Host.Cell
  deriving DecidableEq, Repr

/-- Why a run is not final (60_exceptions.md R167). -/
inductive Fault where
  /-- `AddressingFault(B, i)` (R161), code 1: raised by every read or write outside a bank's bounds, by a
  map entry outside the new bounds, and by a size outside `[0, MEM_MAX_WORDS]`; it records the bank and the
  offending external index or size. The spec's own fault, safe. Log 7, log 10. -/
  | addressing (b : Bank) (i : Int)
  /-- `AddressingFault(VEC, (r, e))` (R161; 41_vector_ops.md R114), code 1: raised by `V.GETE` and `V.SETE`
  when the element lies outside its register. The spec's own fault, safe. Log 7. -/
  | addressingElement (r e : Nat)
  /-- `WidthFault(k)` (R165), code 5: raised by `V.GETE`, `V.SETE`, `M.RDV` and `M.WRV` for a width outside
  the operation's legal widths. The spec's own fault, safe. Log 7. -/
  | width (k : Nat)
  deriving DecidableEq, Repr

/-- Why the model gives no next state without a fault of the machine. -/
inductive Refusal where
  /-- the instruction has no meaning yet; no arm of this model raises it. Safe. -/
  | notModelled (mnemonic : String)
  /-- `IllegalCommand` (60_exceptions.md R166, R167), code 6: raised by `step` alone, for a word that
  selects no row or is `WS.SETOFF` with `b = 3` (40_wordstorage_ops.md R103). No meaning raises it, in an effect
  or at the port. The spec's own refusal, safe. Log 17. -/
  | illegalCommand
  /-- raised by `RUNBP` and `RUNEND` when `State.fuel` step cores did not end the loop: "exhausting the fuel is a
  `refuse` of that run, never a final state" (93 U6). Safe. Log 9. -/
  | fuelExhausted
  /-- raised by a step core whose effect issues a controller command, which no effect may (44 R141). Safe.
  Log 17. -/
  | effectIssuesCommand
  deriving DecidableEq, Repr

/-- The state of the block, the port's outputs and the inputs a step reads, all plain data. -/
structure State where
  /-- `GPR`; slot 15 is the PC (10_state.md R21, R22) -/
  gpr : RegBank 16
  /-- `STATUS`: application status, floating-point status/control (R25) -/
  status : RegBank 2
  /-- `VEC`, one array of 64 words under every view (R27) -/
  vec : RegBank 64
  /-- `MEM` (R32) -/
  mem : Memory
  /-- the execution controller (R36) -/
  ctl : CtlState
  /-- the event trace, oldest first (R40) -/
  ev : List Event
  /-- the port's `Q` or `PO` of the last completed operation (30_encoding.md R76); log 6 -/
  answer : Answer
  /-- what the instruction-sequence collaborator answers (R37, 44 R140), an input; log 3 -/
  prog : Program
  /-- what the host does next, first in front (00_scope.md R17), an input; log 2 -/
  queue : List HostInput
  /-- `FUEL`, the executor's bound on the step cores of one run command (00_scope.md R7, R16), an input
  that no step changes; log 9 -/
  fuel : Nat
  deriving DecidableEq, Repr

/-- After power-on (10_state.md R43, 70_reset_and_hazards.md R186): every word 0, every offset 0, 32 words
of memory, `Idle`, an empty trace. `prog` and `queue` are empty, nothing has been answered, and `FUEL` is the
model's number (log 2, 3, 6, 9). -/
def State.reset : State where
  gpr := { off := 0, w := Vector.replicate 16 0 }
  status := { off := 0, w := Vector.replicate 2 0 }
  vec := { off := 0, w := Vector.replicate 64 0 }
  mem := { n := 32, off := 0, cells := [] }
  ctl := .idle
  ev := []
  answer := .none
  prog := []
  queue := []
  fuel := Config.fuelAtReset

end Sys2Proof.Machine
end

