-- ==== Sys2Proof/Machine/Operands.lean ====
section
/-! DEFINITION. Operand forms: how the buses are read (30_encoding.md R79), masks and fields (00_scope.md
R9), size classes and widths (R6), origin tokens (10_state.md R38), the views of R10, and the operands an
effect computes (44_controller_commands.md R141). -/

namespace Sys2Proof.Machine

/-- `A` as an index, an offset or a size: signed 32-bit two's complement (30_encoding.md R79). -/
abbrev signedA (a : Word) : Int := a.toInt

/-- `A` as a byte address or a PC value: unsigned (30_encoding.md R79). -/
abbrev unsignedA (a : Word) : Nat := a.toNat

/-- `mask(n) = 2^n - 1` for `0 <= n <= 32`; `mask(32)` is all ones (00_scope.md R9). -/
def mask (n : Nat) : Word := BitVec.ofNat 32 (2 ^ n - 1)

/-- `mask(k)` moved to bit offset `o`: the bits a field of `k` bits at `o` occupies. -/
def fieldMask (o k : Nat) : Word := mask k <<< o

/-- Bits `o+k-1 : o` of a word, zero-extended (00_scope.md R8). -/
def getField (v : Word) (o k : Nat) : Word := (v >>> o) &&& mask k

/-- Replace bits `o+k-1 : o` of `old` by the low `k` bits of `v` (41_vector_ops.md R115, decision D6). -/
def putField (old : Word) (o k : Nat) (v : Word) : Word :=
  (old &&& ~~~ fieldMask o k) ||| ((v &&& mask k) <<< o)

/-- `reg_size_class_words`: `QUAD` 4, `DOUBLE` 2 (00_scope.md R6). -/
def sizeClassWords : SizeClass → Nat
  | .double => 2
  | .quad => 4

/-- `LEGAL_WIDTHS = {1, 2, 4, 8, 16, 32}` (00_scope.md R6, 90 C1). -/
def legalElementWidth (k : Nat) : Bool := k ∈ [1, 2, 4, 8, 16, 32]

/-- Widths of `M.RDV` and `M.WRV`: `1 <= k <= 32` (42_memory_ops.md R122, decision D10). -/
def legalValueWidth (k : Nat) : Bool := decide (1 ≤ k ∧ k ≤ 32)

/-- A size `M.RESIZE`, `WS.DESER` and `MS.REST` accept: `0 <= n <= MEM_MAX_WORDS` (42_memory_ops.md R124,
40_wordstorage_ops.md R105). -/
def legalSize (n : Int) : Bool := decide (0 ≤ n) && decide (n.toNat ≤ Config.memMaxWords)

/-- Word `j` of a 128-bit datum, `D[32j+31 : 32j]` (41_vector_ops.md R111). -/
def laneWord (d : BitVec 128) (j : Nat) : Word := d.extractLsb' (32 * j) 32

/-- `O_B`: the component a bank is (10_state.md R38). -/
def bankComponent : Bank → Component
  | .gpr => .gpr
  | .status => .status
  | .vec => .vec
  | .mem => .mem

/-- The origin tokens: `O_GPR = 0` to `O_CTL = 5` (10_state.md R38). -/
def Component.token : Component → BitVec 8
  | .gpr => 0
  | .status => 1
  | .vec => 2
  | .mem => 3
  | .ms => 4
  | .ctl => 5

/-! Views (00_scope.md R10): no view changes the stored bits. -/

/-- `zext_N(v)`: the unsigned view. -/
def zextView {n : Nat} (v : BitVec n) : Nat := v.toNat

/-- `sext_k(v)`: `v - 2^k` if `v[k-1] = 1` and `v` otherwise, of the low `k` bits of a returned word. -/
def sextView (k : Nat) (v : Word) : Int := (v.setWidth k).toInt

/-- `sext_64(v)`, the signed view of a double register's 64 bits (R10). -/
def sextView64 (v : BitVec 64) : Int := v.toInt

/-- The floating view of a 32-bit content under a float format (R10, 93 U9). -/
def floatView32 (F : Config.FloatFormat) (v : Word) : F.Value := F.of32 v

/-- The floating view of a 64-bit content under a float format (R10, 93 U9). -/
def floatView64 (F : Config.FloatFormat) (v : BitVec 64) : F.Value := F.of64 v

/-! Operands of an effect (log 4). -/

/-- An answer as a number: the datum zero-extended; a payload has no number and reads 0 (log 19). -/
def answerBits : Answer → BitVec 128
  | .word v => v.setWidth 128
  | .double v => v.setWidth 128
  | .quad v => v
  | .none | .map _ | .snapshot _ => 0

/-- The k-th answer of an effect so far; one that does not exist is `none` (log 19). -/
def answerAt (ts : List Answer) (k : Nat) : Answer := ts.getD k .none

/-- The value of an operand of an effect, from the answers so far. -/
def evalExpr (ts : List Answer) : Expr → BitVec 128
  | .lit v => v
  | .tmp k => answerBits (answerAt ts k)
  | .add x y => evalExpr ts x + evalExpr ts y
  | .sub x y => evalExpr ts x - evalExpr ts y
  | .mul x y => evalExpr ts x * evalExpr ts y
  | .and x y => evalExpr ts x &&& evalExpr ts y
  | .or x y => evalExpr ts x ||| evalExpr ts y
  | .xor x y => evalExpr ts x ^^^ evalExpr ts y
  | .shl x n => evalExpr ts x <<< n
  | .shr x n => evalExpr ts x >>> n

/-- The value of a test of an effect. -/
def evalCond (ts : List Answer) : Cond → Bool
  | .eq x y => evalExpr ts x == evalExpr ts y
  | .ult x y => (evalExpr ts x).ult (evalExpr ts y)
  | .answerIs k a => decide (answerAt ts k = a)

/-- The operation with its `A` operand replaced; unchanged where it has none (30_encoding.md R78). -/
def withA (v : Word) : Instr → Instr
  | .wsGet b _ => .wsGet b v
  | .wsSet b _ d n => .wsSet b v d n
  | .wsSetoff b _ => .wsSetoff b v
  | .wsRecv b r _ d => .wsRecv b r v d
  | .mRdw _ => .mRdw v
  | .mWrw _ d => .mWrw v d
  | .mRdv w _ => .mRdv w v
  | .mWrv w _ d => .mWrv w v d
  | .mResize _ n m => .mResize v n m
  | .mSetoff _ n m => .mSetoff v n m
  | .pcSet _ => .pcSet v
  | .msHilite b _ d => .msHilite b v d
  | .wsClear b n => .wsClear b n
  | .wsSer b => .wsSer b
  | .wsDeser b p => .wsDeser b p
  | .vGetq r => .vGetq r
  | .vSetq r d n => .vSetq r d n
  | .vGetd r => .vGetd r
  | .vSetd r d n => .vSetd r d n
  | .vGete c w r e => .vGete c w r e
  | .vSete c w r e d => .vSete c w r e d
  | .pcGet => .pcGet
  | .pcAdv => .pcAdv
  | .msSnap => .msSnap
  | .msRest p => .msRest p
  | .step => .step
  | .runbp => .runbp
  | .runend => .runend
  | .rstx => .rstx
  | .rstm => .rstm

/-- The operation with its `D` operand replaced, cut to the operand's width (30_encoding.md R76, R78). -/
def withD (v : BitVec 128) : Instr → Instr
  | .wsSet b a _ n => .wsSet b a (v.setWidth 32) n
  | .wsRecv b r a _ => .wsRecv b r a (v.setWidth 32)
  | .vSetq r _ n => .vSetq r v n
  | .vSetd r _ n => .vSetd r (v.setWidth 64) n
  | .vSete c w r e _ => .vSete c w r e (v.setWidth 32)
  | .mWrw a _ => .mWrw a (v.setWidth 32)
  | .mWrv w a _ => .mWrv w a (v.setWidth 32)
  | .msHilite b a _ => .msHilite b a (v.setWidth 32)
  | .wsGet b a => .wsGet b a
  | .wsClear b n => .wsClear b n
  | .wsSetoff b a => .wsSetoff b a
  | .wsSer b => .wsSer b
  | .wsDeser b p => .wsDeser b p
  | .vGetq r => .vGetq r
  | .vGetd r => .vGetd r
  | .vGete c w r e => .vGete c w r e
  | .mRdw a => .mRdw a
  | .mRdv w a => .mRdv w a
  | .mResize a n m => .mResize a n m
  | .mSetoff a n m => .mSetoff a n m
  | .pcGet => .pcGet
  | .pcSet a => .pcSet a
  | .pcAdv => .pcAdv
  | .msSnap => .msSnap
  | .msRest p => .msRest p
  | .step => .step
  | .runbp => .runbp
  | .runend => .runend
  | .rstx => .rstx
  | .rstm => .rstm

/-- The operation with its payload replaced by an answer of the same kind, else unchanged. -/
def withP (v : Answer) (i : Instr) : Instr :=
  match i, v with
  | .wsDeser b _, .map m => .wsDeser b m
  | .msRest _, .snapshot p => .msRest p
  | j, _ => j

/-- The operation an action of an effect issues, its computed operands filled in. -/
def actionInstr (ts : List Answer) (x : Action) : Instr :=
  let i := match x.a with
    | some e => withA ((evalExpr ts e).setWidth 32) x.op
    | none => x.op
  let j := match x.d with
    | some e => withD (evalExpr ts e) i
    | none => i
  match x.p with
  | some k => withP (answerAt ts k) j
  | none => j

end Sys2Proof.Machine
end

