-- ==== Sys2Proof/Machine/Flags.lean ====
section
/-! DEFINITION. The block has no flags (10_state.md R26; every operation rule says "no operation writes
flags"). What it has instead is the fault code output `F[3:0]` (30_encoding.md R76; 60_exceptions.md R160). -/

namespace Sys2Proof.Machine

/-- The numeric codes of 60_exceptions.md R160. -/
def Cause.code : Cause → BitVec 4
  | .none => 0
  | .addressingFault => 1
  | .instructionError => 2
  | .pcInvalid => 3
  | .stall => 4
  | .widthFault => 5
  | .illegalCommand => 6

/-- The cause a fault is (60_exceptions.md R161, R165). -/
def faultCause : Fault → Cause
  | .addressing _ _ => .addressingFault
  | .addressingElement _ _ => .addressingFault
  | .width _ => .widthFault

/-- The port's output `F`: 0 when the operation completed, the fault's code when it was abandoned, 6 when it
was refused as illegal; a run that this model refuses for want of fuel, or that breaks the effect contract,
has no `F` (R160; log 7). -/
def portF : Host.Outcome State Fault Refusal → Option (BitVec 4)
  | .next _ => some Cause.none.code
  | .fault r => some (faultCause r).code
  | .refused .illegalCommand => some Cause.illegalCommand.code
  | .refused .fuelExhausted => none
  | .refused .effectIssuesCommand => none
  | .refused _ => none

end Sys2Proof.Machine
end

