-- ==== Sys2Proof/Machine/Ops.lean ====
section
/-! DEFINITION. The named operations every meaning is built from: outcomes and their sequencing, events, the
byte cells of memory, raw and checked access to a bank (00_scope.md R11; 40_wordstorage_ops.md R100 to
R102), and the block's one error entry, the diagnostic (60_exceptions.md R173). -/

namespace Sys2Proof.Machine

/-! Outcomes -/

/-- The result of an operation that yields an `α`: a value, a fault of the machine, or a refusal. -/
abbrev Res (α : Type) := Host.Outcome α Fault Refusal

/-- `x`, then `f` of its value; a fault or a refusal ends the operation: "no later line of the operation's
pseudocode runs" (00_scope.md R14). -/
def andThen {α β : Type} (x : Res α) (f : α → Res β) : Res β :=
  match x with
  | .next a => f a
  | .fault r => .fault r
  | .refused r => .refused r

/-- The value, or the fault that a check found. -/
def unlessFault {α : Type} (check : Option Fault) (x : Res α) : Res α :=
  match check with
  | some r => .fault r
  | none => x

/-- `Q` or `PO` takes a value (30_encoding.md R76). -/
def setAnswer (a : Answer) (s : State) : State := { s with answer := a }

/-- The controller takes a state (10_state.md R36). -/
def setCtl (c : CtlState) (s : State) : State := { s with ctl := c }

/-- The operation completes and returns `a` on the port (30_encoding.md R76). -/
def complete (a : Answer) (s : State) : Res State := .next (setAnswer a s)

/-! Events -/

/-- `emit E`: append to the trace (00_scope.md R13). -/
def emit (e : Event) (s : State) : State := { s with ev := s.ev ++ [e] }

/-- Emit several events in order. -/
def emitAll (es : List Event) (s : State) : State := { s with ev := s.ev ++ es }

/-- Taking a diagnosed error, the block's whole exception entry: one `Diagnostic` event, every bank and the
PC unchanged, nothing saved, no transfer of control (60_exceptions.md R162, R163, R173). There is no return
beside it, "because nothing was entered" (R175). -/
def diagnose (kind : Cause) (info : DiagInfo) (s : State) : State := emit (.diagnostic kind info .ctl) s

/-- The events of writing word `v` at external index `i` of bank `b` (40_wordstorage_ops.md R101):
`ValueChanged` if notifying, then, on any write of `GPR` 15, `PcChanged`. -/
def writeEvents (b : Bank) (i : Int) (v : Word) (n : Bool) : List Event :=
  (if n then [.valueChanged b i v (bankComponent b)] else []) ++
    (if b = .gpr ∧ i = 15 then [.pcChanged v .gpr] else [])

/-! Memory cells (log 12) -/

/-- The byte at a key; an unlisted byte is 0 (10_state.md R43). -/
def cellRead : List Host.Cell → Nat → Byte
  | [], _ => 0
  | (j, x) :: t, k => if j = k then x else cellRead t k

/-- Put a cell into its place among rising keys. -/
def cellInsert : List Host.Cell → Nat → Byte → List Host.Cell
  | [], k, v => [(k, v)]
  | (j, x) :: t, k, v => if k < j then (k, v) :: (j, x) :: t else (j, x) :: cellInsert t k v

/-- Store a byte at a key, keeping the keys rising and no byte 0 listed. -/
def cellWrite (cs : List Host.Cell) (k : Nat) (v : Byte) : List Host.Cell :=
  let rest := cs.filter fun c => c.1 != k
  if v = 0 then rest else cellInsert rest k v

/-- The canonical form: keys strictly rising, no byte 0 listed, every key inside the `n` words. -/
abbrev Memory.wf (m : Memory) : Prop :=
  m.cells.Pairwise (fun x y => x.1 < y.1) ∧ ∀ c ∈ m.cells, c.2 ≠ 0 ∧ c.1 < 4 * m.n

/-- The word in a slot: byte lane `j` is bits `8j+7 : 8j` (20_memory.md R55). -/
def memWord (m : Memory) (k : Nat) : Word :=
  cellRead m.cells (4 * k + 3) ++ cellRead m.cells (4 * k + 2) ++ cellRead m.cells (4 * k + 1) ++
    cellRead m.cells (4 * k)

/-- Store a word in a slot, byte lane `j` from bits `8j+7 : 8j` (20_memory.md R55). -/
def memSetWord (m : Memory) (k : Nat) (v : Word) : Memory :=
  let c0 := cellWrite m.cells (4 * k) (v.extractLsb' 0 8)
  let c1 := cellWrite c0 (4 * k + 1) (v.extractLsb' 8 8)
  let c2 := cellWrite c1 (4 * k + 2) (v.extractLsb' 16 8)
  let c3 := cellWrite c2 (4 * k + 3) (v.extractLsb' 24 8)
  { m with cells := c3 }

/-! Banks: the record `(B.N, B.off, B.w)` of 00_scope.md R11 -/

/-- `B.N` (10_state.md R20). -/
def bankSize (b : Bank) (s : State) : Nat :=
  match b with
  | .gpr => 16
  | .status => 2
  | .vec => 64
  | .mem => s.mem.n

/-- `B.off` (10_state.md R20). -/
def bankOff (b : Bank) (s : State) : Int :=
  match b with
  | .gpr => s.gpr.off
  | .status => s.status.off
  | .vec => s.vec.off
  | .mem => s.mem.off

/-- `B.w[k]`, the word in an internal slot. -/
def slotWord (b : Bank) (k : Nat) (s : State) : Word :=
  match b with
  | .gpr => s.gpr.w[k]?.getD 0
  | .status => s.status.w[k]?.getD 0
  | .vec => s.vec.w[k]?.getD 0
  | .mem => memWord s.mem k

/-- `B.w[k] <- v`. -/
def setSlot (b : Bank) (k : Nat) (v : Word) (s : State) : State :=
  match b with
  | .gpr => { s with gpr := { s.gpr with w := s.gpr.w.setIfInBounds k v } }
  | .status => { s with status := { s.status with w := s.status.w.setIfInBounds k v } }
  | .vec => { s with vec := { s.vec with w := s.vec.w.setIfInBounds k v } }
  | .mem => { s with mem := memSetWord s.mem k v }

/-- `inrange(B, i)`: `0 <= i - B.off < B.N` (00_scope.md R11). -/
def inRange (b : Bank) (i : Int) (s : State) : Bool :=
  decide (0 ≤ i - bankOff b s ∧ i - bankOff b s < bankSize b s)

/-- The internal slot of an external index, meaningful where the index is in range. -/
def slotOf (b : Bank) (i : Int) (s : State) : Nat := (i - bankOff b s).toNat

/-- `B[i]`, a raw read (00_scope.md R11). -/
def wordAt (b : Bank) (i : Int) (s : State) : Word := slotWord b (slotOf b i s) s

/-- `B[i] <- v`, a raw write, which emits nothing (00_scope.md R11). -/
def putWord (b : Bank) (i : Int) (v : Word) (s : State) : State := setSlot b (slotOf b i s) v s

/-- The fault of an access at an external index, if it is out of range (60_exceptions.md R161). -/
def indexFault (b : Bank) (i : Int) (s : State) : Option Fault :=
  if inRange b i s then none else some (.addressing b i)

/-- `get(B, i)` (40_wordstorage_ops.md R100). -/
def bankGet (b : Bank) (i : Int) (s : State) : Res Word :=
  unlessFault (indexFault b i s) (.next (wordAt b i s))

/-- `set(B, i, v, n)` (40_wordstorage_ops.md R101): the check, the write, the events. -/
def bankSet (b : Bank) (i : Int) (v : Word) (n : Bool) (s : State) : Res State :=
  unlessFault (indexFault b i s) (.next (emitAll (writeEvents b i v n) (putWord b i v s)))

/-- Every slot of a bank 0, size and offset kept, no event. -/
def zeroBank (b : Bank) (s : State) : State :=
  match b with
  | .gpr => { s with gpr := { s.gpr with w := Vector.replicate 16 0 } }
  | .status => { s with status := { s.status with w := Vector.replicate 2 0 } }
  | .vec => { s with vec := { s.vec with w := Vector.replicate 64 0 } }
  | .mem => { s with mem := { s.mem with cells := [] } }

/-- The events of writing every slot of a bank with the word it now holds, ascending by external index
(40_wordstorage_ops.md R102, R105; decision D21). -/
def bankEvents (b : Bank) (n : Bool) (s : State) : List Event :=
  if n || b = .gpr then
    (List.range (bankSize b s)).flatMap fun k =>
      writeEvents b (bankOff b s + (k : Nat)) (slotWord b k s) n
  else []

/-- `clear(B, n)` (40_wordstorage_ops.md R102), in closed form; `Obligations.ClearIsTheLoopOfSets` says it is
the rule's loop of `set(B, i, 0, n)`. -/
def bankClear (b : Bank) (n : Bool) (s : State) : State :=
  let t := zeroBank b s
  emitAll (bankEvents b n t) t

/-- The offset and, for `MEM`, the size of a bank replaced and every slot 0, no event
(40_wordstorage_ops.md R105; 42_memory_ops.md R124, R125). -/
def remapBank (b : Bank) (n : Nat) (o : Int) (s : State) : State :=
  match b with
  | .gpr => { s with gpr := { off := o, w := Vector.replicate 16 0 } }
  | .status => { s with status := { off := o, w := Vector.replicate 2 0 } }
  | .vec => { s with vec := { off := o, w := Vector.replicate 64 0 } }
  | .mem => { s with mem := { n := n, off := o, cells := [] } }

/-- The offset of a bank replaced, its content kept (40_wordstorage_ops.md R103). -/
def setOffset (b : Bank) (o : Int) (s : State) : State :=
  match b with
  | .gpr => { s with gpr := { s.gpr with off := o } }
  | .status => { s with status := { s.status with off := o } }
  | .vec => { s with vec := { s.vec with off := o } }
  | .mem => { s with mem := { s.mem with off := o } }

/-- `pc` = `get(GPR, 15)` (44_controller_commands.md header). -/
def readPc (s : State) : Res Word := bankGet .gpr 15 s

end Sys2Proof.Machine
end

