-- ==== Sys2Proof/Machine/WordStorage.lean ====
section
/-! DEFINITION. The WordStorage operations, 40_wordstorage_ops.md R100 to R106. -/

namespace Sys2Proof.Machine

/-- `WS.GET b, A` (R100). -/
def execWsGet (b : Bank) (a : Word) (s : State) : Res State :=
  andThen (bankGet b (signedA a) s) fun v => complete (.word v) s

/-- `WS.SET b, A, D, n` (R101). -/
def execWsSet (b : Bank) (a d : Word) (n : Bool) (s : State) : Res State :=
  andThen (bankSet b (signedA a) d n s) (complete .none)

/-- `WS.CLEAR b, n` (R102). -/
def execWsClear (b : Bank) (n : Bool) (s : State) : Res State := complete .none (bankClear b n s)

/-- `WS.SETOFF b, A` (R103): the offset of a register bank, its content kept and no event. -/
def execWsSetoff (b : RegisterBank) (a : Word) (s : State) : Res State :=
  complete .none (setOffset b.bank (signedA a) s)

/-- The sparse map of a bank (R104): the non-zero slots by external index, the offset if it is not 0, and for
`MEM` the size if it is not 32. -/
def serialize (b : Bank) (s : State) : SparseMap where
  entries := (List.range (bankSize b s)).filterMap fun k =>
    if slotWord b k s = 0 then none else some (bankOff b s + (k : Nat), slotWord b k s)
  offsetW := if bankOff b s = 0 then none else some (bankOff b s)
  sizeW := if b = .mem ∧ bankSize b s ≠ 32 then some (bankSize b s) else none

/-- `WS.SER b` (R104). -/
def execWsSer (b : Bank) (s : State) : Res State := complete (.map (serialize b s)) s

/-- `N'` of R105: the map's word count, default 32, for `MEM`; the fixed size for the other banks. -/
def loadSize (b : Bank) (p : SparseMap) (s : State) : Int :=
  if b = .mem then p.sizeW.getD 32 else bankSize b s

/-- The checks of R105, before any change: the size, then every key in the order of the map (log 10). -/
def loadFault (b : Bank) (p : SparseMap) (s : State) : Option Fault :=
  let n := loadSize b p s
  let o := p.offsetW.getD 0
  if b = .mem ∧ ¬ legalSize n then some (.addressing .mem n)
  else p.entries.findSome? fun x => if 0 ≤ x.1 - o ∧ x.1 - o < n then none else some (.addressing b x.1)

/-- The entries of a map written silently at their slots, in order (R105; log 13). -/
def loadEntries (b : Bank) (o : Int) (es : List (Int × Word)) (s : State) : State :=
  es.foldl (fun t x => setSlot b (x.1 - o).toNat x.2 t) s

/-- The loading of R105, once the checks have passed: zero words at the new size and offset, the entries,
`SettingsChanged` if `MEM` changed its map, then one notification for each slot. -/
def loadMap (b : Bank) (p : SparseMap) (s : State) : State :=
  let n := (loadSize b p s).toNat
  let o := p.offsetW.getD 0
  let t := loadEntries b o p.entries (remapBank b n o s)
  let changed := b = .mem ∧ (n ≠ bankSize b s ∨ o ≠ bankOff b s)
  let u := if changed then emit (.settingsChanged n o .mem) t else t
  emitAll (bankEvents b true u) u

/-- `WS.DESER b, P` (R105). -/
def execWsDeser (b : Bank) (p : SparseMap) (s : State) : Res State :=
  unlessFault (loadFault b p s) (complete .none (loadMap b p s))

/-- `WS.RECV b, r, A, D` (R106): a notification of the bank's own origin is ignored and its index not
examined (10_state.md R41); any other is a notifying `set`. -/
def execWsRecv (b : Bank) (r : BitVec 8) (a d : Word) (s : State) : Res State :=
  if r = (bankComponent b).token then complete .none s
  else andThen (bankSet b (signedA a) d true s) (complete .none)

end Sys2Proof.Machine
end

