-- ==== Sys2Proof/Machine/Aggregate.lean ====
section
/-! DEFINITION. The MachineState operations, 43_machine_state_ops.md R130 to R135. -/

namespace Sys2Proof.Machine

/-- `PC.GET` (R130). -/
def execPcGet (s : State) : Res State := andThen (readPc s) fun v => complete (.word v) s

/-- `PC.SET A` (R131): always notifies, no alignment or range check. -/
def execPcSet (a : Word) (s : State) : Res State :=
  andThen (bankSet .gpr 15 a true s) (complete .none)

/-- `PC.ADV` (R132): plus 4 modulo `2^32`, without the generic notification. -/
def execPcAdv (s : State) : Res State :=
  andThen (readPc s) fun p => andThen (bankSet .gpr 15 (p + 4) false s) (complete .none)

/-- Some in-range status word is not 0 (R133). -/
def statusUsed (s : State) : Bool :=
  (List.range (bankSize .status s)).any fun k => slotWord .status k s != 0

/-- The snapshot (R133): the four banks serialized, the status bank only if a status word is not 0. -/
def snapshotOf (s : State) : Snapshot where
  arm := some (serialize .gpr s)
  memory := some (serialize .mem s)
  neon := some (serialize .vec s)
  spec := if statusUsed s then some (serialize .status s) else none

/-- `MS.SNAP` (R133). -/
def execMsSnap (s : State) : Res State := complete (.snapshot (snapshotOf s)) s

/-- The banks of a snapshot in the order R134 checks and loads them, an absent key as the empty record. -/
def snapshotMaps (p : Snapshot) : List (Bank × SparseMap) :=
  [(.gpr, p.arm.getD .empty), (.mem, p.memory.getD .empty), (.vec, p.neon.getD .empty),
   (.status, p.spec.getD .empty)]

/-- The checks of all four maps, before any change (R134). -/
def restoreFault (p : Snapshot) (s : State) : Option Fault :=
  (snapshotMaps p).findSome? fun x => loadFault x.1 x.2 s

/-- The four loads, in order (R134). -/
def restore (p : Snapshot) (s : State) : State :=
  (snapshotMaps p).foldl (fun t x => loadMap x.1 x.2 t) s

/-- `MS.REST P` (R134). -/
def execMsRest (p : Snapshot) (s : State) : Res State :=
  unlessFault (restoreFault p s) (complete .none (restore p s))

/-- `MS.HILITE b, A, D` (R135): the event alone, the range not checked. -/
def execMsHilite (b : Bank) (a d : Word) (s : State) : Res State :=
  complete .none (emit (.highlightIntent b a d .ms) s)

end Sys2Proof.Machine
end

