-- ==== Sys2Proof/Machine/ByteMemory.lean ====
section
/-! DEFINITION. The byte-addressable memory operations, 42_memory_ops.md R120 to R125. -/

namespace Sys2Proof.Machine

/-- The external index of the word holding byte address `a` (20_memory.md R53). -/
def wordIndex (a : Nat) : Int := (a / 4 : Nat)

/-- The byte at address `a`: lane `a mod 4` of word `a div 4`, bits `8*(a mod 4)+7 : 8*(a mod 4)`
(20_memory.md R53, R55); none where that word is unmapped (R54). -/
def byteAt (a : Nat) (s : State) : Option Byte :=
  if inRange .mem (wordIndex a) s then some ((wordAt .mem (wordIndex a) s).extractLsb' (8 * (a % 4)) 8)
  else none

/-- `read_word(a)` (R120): one word at an aligned address, else the slice of the two words it straddles. -/
def readWord (a : Nat) (s : State) : Res Word :=
  if a % 4 = 0 then bankGet .mem (wordIndex a) s
  else
    andThen (bankGet .mem (wordIndex a) s) fun lo =>
      andThen (bankGet .mem (wordIndex a + 1) s) fun hi =>
        .next ((lo >>> (8 * (a % 4))) ||| (hi <<< (32 - 8 * (a % 4))))

/-- `write_word(a, v)` (R121): both reads precede both writes, the low word is written first, each write
notifies. -/
def writeWord (a : Nat) (v : Word) (s : State) : Res State :=
  if a % 4 = 0 then bankSet .mem (wordIndex a) v true s
  else
    andThen (bankGet .mem (wordIndex a) s) fun lo =>
      andThen (bankGet .mem (wordIndex a + 1) s) fun hi =>
        andThen (bankSet .mem (wordIndex a)
            ((lo &&& mask (8 * (a % 4))) ||| (v <<< (8 * (a % 4)))) true s) fun t =>
          bankSet .mem (wordIndex a + 1)
            ((hi &&& ~~~ mask (8 * (a % 4))) ||| (v >>> (32 - 8 * (a % 4)))) true t

/-- The fault of a width that `read_value` and `write_value` do not take (R122, decision D10). -/
def valueWidthFault (k : Nat) : Option Fault := if legalValueWidth k then none else some (.width k)

/-- `read_value(a, k)` (R122). -/
def readValue (a k : Nat) (s : State) : Res Word :=
  unlessFault (valueWidthFault k) (andThen (readWord a s) fun v => .next (v &&& mask k))

/-- `write_value(a, v, k)` (R123): only the low `k` bits are replaced. -/
def writeValue (a : Nat) (v : Word) (k : Nat) (s : State) : Res State :=
  unlessFault (valueWidthFault k)
    (andThen (readWord a s) fun old => writeWord a (putField old 0 k v) s)

/-- `M.RDW A` (R120). -/
def execMRdw (a : Word) (s : State) : Res State :=
  andThen (readWord (unsignedA a) s) fun v => complete (.word v) s

/-- `M.WRW A, D` (R121). -/
def execMWrw (a d : Word) (s : State) : Res State :=
  andThen (writeWord (unsignedA a) d s) (complete .none)

/-- `M.RDV w, A` (R122). -/
def execMRdv (w : BitVec 6) (a : Word) (s : State) : Res State :=
  andThen (readValue (unsignedA a) w.toNat s) fun v => complete (.word v) s

/-- `M.WRV w, A, D` (R123). -/
def execMWrv (w : BitVec 6) (a d : Word) (s : State) : Res State :=
  andThen (writeValue (unsignedA a) d w.toNat s) (complete .none)

/-- What `M.RESIZE` and `M.SETOFF` do once the map changes (R124, R125): the new map with zero words,
`SettingsChanged` if asked for, then `clear(MEM, m)`. -/
def remapMemory (size : Nat) (o : Int) (n m : Bool) (s : State) : State :=
  let t := remapBank .mem size o s
  let u := if n then emit (.settingsChanged size o .mem) t else t
  bankClear .mem m u

/-- `M.RESIZE A, n, m` (R124): nothing at the same size; a fault for a size outside `[0, MEM_MAX_WORDS]`. -/
def execMResize (a : Word) (n m : Bool) (s : State) : Res State :=
  if signedA a = s.mem.n then complete .none s
  else if legalSize (signedA a) then
    complete .none (remapMemory (signedA a).toNat s.mem.off n m s)
  else .fault (.addressing .mem (signedA a))

/-- `M.SETOFF A, n, m` (R125): nothing at the same offset. -/
def execMSetoff (a : Word) (n m : Bool) (s : State) : Res State :=
  if signedA a = s.mem.off then complete .none s
  else complete .none (remapMemory s.mem.n (signedA a) n m s)

end Sys2Proof.Machine
end

