-- ==== Sys2Proof/Machine/VectorRegs.lean ====
section
/-! DEFINITION. The vector register operations, 41_vector_ops.md R110 to R115: index arithmetic over the one
array of 64 words (10_state.md R27 to R30). -/

namespace Sys2Proof.Machine

/-- The fault of reading or writing `n` words of `VEC` from external index `i` on: the first that is out of
range, ascending (R111; log 10). -/
def vecSpanFault (i : Int) (n : Nat) (s : State) : Option Fault :=
  (List.range n).findSome? fun j => indexFault .vec (i + (j : Nat)) s

/-- `Q<r>`: word `4r` holds bits 31:0 (10_state.md R28). -/
def quadAt (r : Nat) (s : State) : BitVec 128 :=
  wordAt .vec (4 * r + 3 : Nat) s ++ wordAt .vec (4 * r + 2 : Nat) s ++ wordAt .vec (4 * r + 1 : Nat) s ++
    wordAt .vec (4 * r : Nat) s

/-- `D<r>`: word `2r` holds bits 31:0 (10_state.md R29). -/
def doubleAt (r : Nat) (s : State) : BitVec 64 :=
  wordAt .vec (2 * r + 1 : Nat) s ++ wordAt .vec (2 * r : Nat) s

/-- `V.GETQ r` (R110). -/
def execVGetq (r : BitVec 8) (s : State) : Res State :=
  unlessFault (vecSpanFault (4 * r.toNat : Nat) 4 s) (complete (.quad (quadAt r.toNat s)) s)

/-- `V.SETQ r, D, n` (R111): the four checks, then four `set`s, ascending. -/
def execVSetq (r : BitVec 8) (d : BitVec 128) (n : Bool) (s : State) : Res State :=
  let i : Nat := 4 * r.toNat
  unlessFault (vecSpanFault i 4 s)
    (andThen (bankSet .vec (i : Nat) (laneWord d 0) n s) fun s0 =>
      andThen (bankSet .vec (i + 1 : Nat) (laneWord d 1) n s0) fun s1 =>
        andThen (bankSet .vec (i + 2 : Nat) (laneWord d 2) n s1) fun s2 =>
          andThen (bankSet .vec (i + 3 : Nat) (laneWord d 3) n s2) (complete .none))

/-- `V.GETD r` (R112). -/
def execVGetd (r : BitVec 8) (s : State) : Res State :=
  unlessFault (vecSpanFault (2 * r.toNat : Nat) 2 s) (complete (.double (doubleAt r.toNat s)) s)

/-- `V.SETD r, D, n` (R113): the two checks, then two `set`s, low word first. -/
def execVSetd (r : BitVec 8) (d : BitVec 64) (n : Bool) (s : State) : Res State :=
  let i : Nat := 2 * r.toNat
  unlessFault (vecSpanFault i 2 s)
    (andThen (bankSet .vec (i : Nat) (laneWord (d.setWidth 128) 0) n s) fun s0 =>
      andThen (bankSet .vec (i + 1 : Nat) (laneWord (d.setWidth 128) 1) n s0) (complete .none))

/-- The word index of an element: `reg_index * reg_size_class_words + (width_bits*elem_index) div 32`
(R114). -/
def elementWord (c : SizeClass) (k r e : Nat) : Nat := r * sizeClassWords c + k * e / 32

/-- The bit offset of an element in its word, `(k*e) mod 32` (R114, 90 C6). -/
def elementBit (k e : Nat) : Nat := k * e % 32

/-- The faults of `locate`, in its order: width, element outside its register, word outside the bank
(R114, 60_exceptions.md R171). -/
def elementFault (c : SizeClass) (k r e : Nat) (s : State) : Option Fault :=
  if !legalElementWidth k then some (.width k)
  else if ¬ k * e < 32 * sizeClassWords c then some (.addressingElement r e)
  else indexFault .vec (elementWord c k r e : Nat) s

/-- The element `(c, k, r, e)` of 10_state.md R30, zero-extended. -/
def elementAt (c : SizeClass) (k r e : Nat) (s : State) : Word :=
  getField (wordAt .vec (elementWord c k r e : Nat) s) (elementBit k e) k

/-- `V.GETE c, w, r, e` (R114). -/
def execVGete (c : SizeClass) (w : BitVec 6) (r : BitVec 8) (e : BitVec 7) (s : State) : Res State :=
  unlessFault (elementFault c w.toNat r.toNat e.toNat s)
    (complete (.word (elementAt c w.toNat r.toNat e.toNat s)) s)

/-- `V.SETE c, w, r, e, D` (R115): "read-modify-write preserving sibling fields", always notifying. -/
def execVSete (c : SizeClass) (w : BitVec 6) (r : BitVec 8) (e : BitVec 7) (d : Word) (s : State) : Res State :=
  let i : Nat := elementWord c w.toNat r.toNat e.toNat
  unlessFault (elementFault c w.toNat r.toNat e.toNat s)
    (andThen (bankSet .vec i (putField (wordAt .vec i s) (elementBit w.toNat e.toNat) w.toNat d) true s)
      (complete .none))

end Sys2Proof.Machine
end

