-- ==== Sys2Proof/Machine/Effects.lean ====
section
/-! DEFINITION. Running the effect of a CPU instruction (44_controller_commands.md R141): its operations one
after the other, each taking effect and emitting at once; a fault ends it. -/

namespace Sys2Proof.Machine

/-- One operation issued by an effect: the 25 operations of files 40 to 43, the same meanings the port
runs. "it may not issue a controller command" (R141; log 17). -/
def execOperation (i : Instr) (s : State) : Res State :=
  match i with
  | .wsGet b a => execWsGet b a s
  | .wsSet b a d n => execWsSet b a d n s
  | .wsClear b n => execWsClear b n s
  | .wsSetoff b a => execWsSetoff b a s
  | .wsSer b => execWsSer b s
  | .wsDeser b p => execWsDeser b p s
  | .wsRecv b r a d => execWsRecv b r a d s
  | .vGetq r => execVGetq r s
  | .vSetq r d n => execVSetq r d n s
  | .vGetd r => execVGetd r s
  | .vSetd r d n => execVSetd r d n s
  | .vGete c w r e => execVGete c w r e s
  | .vSete c w r e d => execVSete c w r e d s
  | .mRdw a => execMRdw a s
  | .mWrw a d => execMWrw a d s
  | .mRdv w a => execMRdv w a s
  | .mWrv w a d => execMWrv w a d s
  | .mResize a n m => execMResize a n m s
  | .mSetoff a n m => execMSetoff a n m s
  | .pcGet => execPcGet s
  | .pcSet a => execPcSet a s
  | .pcAdv => execPcAdv s
  | .msSnap => execMsSnap s
  | .msRest p => execMsRest p s
  | .msHilite b a d => execMsHilite b a d s
  | .step | .runbp | .runend | .rstx | .rstm => .refused .effectIssuesCommand

/-- An effect run to completion from the answers `ts` of its earlier operations (R141). Each operation
answers one datum, which later operands may name (log 4, log 19). -/
def runEffect : Effect → List Answer → State → Res State
  | .done, _, s => .next s
  | .act x e, ts, s => andThen (execOperation (actionInstr ts x) s) fun t => runEffect e (ts ++ [t.answer]) t
  | .branch c e f, ts, s => if evalCond ts c then runEffect e ts s else runEffect f ts s

end Sys2Proof.Machine
end

