-- ==== Sys2Proof/Machine/Controller.lean ====
section
/-! DEFINITION. The execution controller, 44_controller_commands.md R140 to R148. -/

namespace Sys2Proof.Machine

/-- `instr_at(p div 4)` of the instruction port (R140). -/
def instrAt (p : Word) (s : State) : Option CpuInstr := s.prog[p.toNat / 4]?

/-- `exists(p)`: `p mod 4 = 0` and `instr_at(p div 4)` is present (R140). -/
def existsAt (p : Word) (s : State) : Bool := decide (p.toNat % 4 = 0) && (instrAt p s).isSome

/-- `instr_at(p div 4) = Valid(_, true)` (R145). -/
def breakpointAt (p : Word) (s : State) : Bool :=
  match instrAt p s with
  | some (.valid _ bp) => bp
  | some (.error _ _) => false
  | none => false

/-- What the step core finds at the PC (R142). -/
inductive Found where
  | failed (kind : Cause) (info : DiagInfo)
  | run (e : Effect)
  deriving DecidableEq, Repr

/-- The tests of the step core in their order: alignment, presence, error (R142; 60_exceptions.md R171). -/
def findInstr (p : Word) (s : State) : Found :=
  if p.toNat % 4 ≠ 0 then .failed .pcInvalid (.pc p)
  else
    match instrAt p s with
    | none => .failed .pcInvalid (.pc p)
    | some (.error msg span) => .failed .instructionError (.parse p msg span)
    | some (.valid e _) => .run e

/-- `step_core()` (R142): `true` for `Executed`, `false` for `Failed`. -/
def stepCore (s : State) : Res (Bool × State) :=
  andThen (readPc s) fun p =>
    match findInstr p s with
    | .failed kind info => .next (false, diagnose kind info s)
    | .run e => andThen (runEffect e [] s) fun t => .next (true, t)

/-- `wrap()` (R144): `if pc div 4 >= instruction_count: set(GPR, 15, 0, true)`. -/
def wrapPc (s : State) : Res State :=
  andThen (readPc s) fun p =>
    if s.prog.length ≤ p.toNat / 4 then bankSet .gpr 15 0 true s else .next s

/-- A command begins: `Stepping` (R143). -/
def beginCommand (s : State) : State := setCtl .stepping s

/-- A run/step command begins: `Stepping`, then `ClearHighlights(O_CTL)` (R143). -/
def beginRun (s : State) : State := emit (.clearHighlights .ctl) (beginCommand s)

/-- A command ends: `Idle` again, nothing returned (R143). -/
def endCommand (s : State) : Res State := complete .none (setCtl .idle s)

/-- `STEP` (R144): the wrap only after an executed step. -/
def execStep (s : State) : Res State :=
  andThen (stepCore (beginRun s)) fun x =>
    if x.1 then andThen (wrapPc x.2) endCommand else endCommand x.2

/-- The loop of `RUNBP` (R145) under `FUEL`: one step core, then the exit tests (b) stall, (c) no next
instruction, (a) breakpoint. Exhausting the fuel is a refusal (00_scope.md R18,
93 U6). -/
def runbpLoop : Nat → State → Res State
  | 0, _ => .refused .fuelExhausted
  | f + 1, s =>
    andThen (readPc s) fun old =>
      andThen (stepCore s) fun x =>
        andThen (readPc x.2) fun new =>
          if new = old ∨ ¬ existsAt new x.2 ∨ breakpointAt new x.2 then .next x.2 else runbpLoop f x.2

/-- `RUNBP` (R145): the wrap is applied after the loop whatever ended it. -/
def execRunbp (s : State) : Res State :=
  andThen (runbpLoop s.fuel (beginRun s)) fun t => andThen (wrapPc t) endCommand

/-- The loop of `RUNEND` (R146) under `FUEL`: existence before each step, the stall after it. -/
def runendLoop : Nat → State → Res State
  | 0, s => andThen (readPc s) fun p => if existsAt p s then .refused .fuelExhausted else .next s
  | f + 1, s =>
    andThen (readPc s) fun old =>
      if existsAt old s then
        andThen (stepCore s) fun x =>
          andThen (readPc x.2) fun new => if new = old then .next x.2 else runendLoop f x.2
      else .next s

/-- `RUNEND` (R146). -/
def execRunend (s : State) : Res State :=
  andThen (runendLoop s.fuel (beginRun s)) fun t => andThen (wrapPc t) endCommand

/-- `RSTX` (R147): the PC alone, through the notifying setter. -/
def execRstx (s : State) : Res State :=
  andThen (bankSet .gpr 15 0 true (beginCommand s)) endCommand

/-- `RSTM` (R148): `MS.REST` of the snapshot with all four keys absent. -/
def execRstm (s : State) : Res State :=
  andThen (execMsRest .empty (beginCommand s)) endCommand

end Sys2Proof.Machine
end

