-- ==== Sys2Proof/Machine/Dispatch.lean ====
section
/-! DEFINITION. Which meaning each operation has, one arm for each row of the opcode table (30_encoding.md
R80). -/

namespace Sys2Proof.Machine

def exec (i : Instr) (s : State) : Host.Outcome State Fault Refusal :=
  match i with
  -- WordStorage, file 40
  | .wsGet b a => Sys2Proof.Machine.execWsGet b a s
  | .wsSet b a d n => Sys2Proof.Machine.execWsSet b a d n s
  | .wsClear b n => Sys2Proof.Machine.execWsClear b n s
  | .wsSetoff b a => Sys2Proof.Machine.execWsSetoff b a s
  | .wsSer b => Sys2Proof.Machine.execWsSer b s
  | .wsDeser b p => Sys2Proof.Machine.execWsDeser b p s
  | .wsRecv b r a d => Sys2Proof.Machine.execWsRecv b r a d s
  -- vector registers, file 41
  | .vGetq r => Sys2Proof.Machine.execVGetq r s
  | .vSetq r d n => Sys2Proof.Machine.execVSetq r d n s
  | .vGetd r => Sys2Proof.Machine.execVGetd r s
  | .vSetd r d n => Sys2Proof.Machine.execVSetd r d n s
  | .vGete c w r e => Sys2Proof.Machine.execVGete c w r e s
  | .vSete c w r e d => Sys2Proof.Machine.execVSete c w r e d s
  -- byte-addressable memory, file 42
  | .mRdw a => Sys2Proof.Machine.execMRdw a s
  | .mWrw a d => Sys2Proof.Machine.execMWrw a d s
  | .mRdv w a => Sys2Proof.Machine.execMRdv w a s
  | .mWrv w a d => Sys2Proof.Machine.execMWrv w a d s
  | .mResize a n m => Sys2Proof.Machine.execMResize a n m s
  | .mSetoff a n m => Sys2Proof.Machine.execMSetoff a n m s
  -- MachineState, file 43
  | .pcGet => Sys2Proof.Machine.execPcGet s
  | .pcSet a => Sys2Proof.Machine.execPcSet a s
  | .pcAdv => Sys2Proof.Machine.execPcAdv s
  | .msSnap => Sys2Proof.Machine.execMsSnap s
  | .msRest p => Sys2Proof.Machine.execMsRest p s
  | .msHilite b a d => Sys2Proof.Machine.execMsHilite b a d s
  -- controller commands, file 44
  | .step => Sys2Proof.Machine.execStep s
  | .runbp => Sys2Proof.Machine.execRunbp s
  | .runend => Sys2Proof.Machine.execRunend s
  | .rstx => Sys2Proof.Machine.execRstx s
  | .rstm => Sys2Proof.Machine.execRstm s

end Sys2Proof.Machine
end

