-- ==== Sys2Proof/Machine/Step.lean ====
section
/-! DEFINITION. One step of the block: the next host action is taken from the front of the queue and runs to
completion (00_scope.md R17; 30_encoding.md R76; 20_memory.md R68). -/

namespace Sys2Proof.Machine

/-- One step. A command word is decoded and its operation run, or refused as illegal (30_encoding.md R82,
60_exceptions.md R166); a program edit replaces what the instruction port answers (70_reset_and_hazards.md
R200); with nothing pending the block waits and nothing changes (log 2). -/
def step (s : State) : Host.Outcome State Fault Refusal :=
  match s.queue with
  | [] => .next s
  | .program p :: rest => .next { s with prog := p, queue := rest }
  | .command q :: rest =>
    match decode q with
    | .ok i => exec i { s with queue := rest }
    | .error _ => .refused .illegalCommand

/-- The state with a command word as the host's next action, the operand buses 0 and the payload empty. The
block fetches nothing at a program counter: its operations come from the command port (30_encoding.md R76).
Log 15. -/
def State.withFetchWord (s : State) (_nbits w : Nat) : State :=
  { s with queue := .command (bareRequest (BitVec.ofNat 32 w)) :: s.queue }

end Sys2Proof.Machine
end

