-- ==== Sys2Proof/Safety.lean ====
section
/-! DEFINITION. What a safe state and a safe run are, in the terms claims use: what can be read of a state,
what an operation leaves alone, the invariant, and runs of effects. -/

namespace Sys2Proof.Machine

/-- What a reader finds at external index `i` of a bank: the word, or nothing outside the bounds
(10_state.md R20). -/
def peek (b : Bank) (i : Int) (s : State) : Option Word :=
  if inRange b i s then some (wordAt b i s) else none

/-- Two states agree on the contents, the offset and the size of every bank. -/
def SameBanks (s t : State) : Prop :=
  t.gpr = s.gpr ∧ t.status = s.status ∧ t.vec = s.vec ∧ t.mem = s.mem

/-- Two states agree on the controller and on the inputs (the instruction port, the host's pending actions,
`FUEL`), which no operation of files 40 to 43 touches. -/
def SameContext (s t : State) : Prop :=
  t.ctl = s.ctl ∧ t.prog = s.prog ∧ t.queue = s.queue ∧ t.fuel = s.fuel

/-- Two states agree on every bank's size and offset (10_state.md R33, R34). -/
def SameMap (s t : State) : Prop := ∀ b, bankSize b t = bankSize b s ∧ bankOff b t = bankOff b s

/-- The frame of an operation that writes words: every word of every bank outside `written` reads as before,
every size and offset is kept, and so are the controller and the inputs. -/
def Frame (written : Bank → Int → Prop) (s t : State) : Prop :=
  (∀ b i, ¬ written b i → peek b i t = peek b i s) ∧ SameMap s t ∧ SameContext s t

/-- As `Frame`, for an operation that replaces one bank whole: every other bank is untouched. -/
def OtherBanksKept (b : Bank) (s t : State) : Prop :=
  (∀ b' i, b' ≠ b → peek b' i t = peek b' i s) ∧
    (∀ b', b' ≠ b → bankSize b' t = bankSize b' s ∧ bankOff b' t = bankOff b' s) ∧ SameContext s t

/-- The invariant of the block: memory in canonical form and no larger than `MEM_MAX_WORDS` (10_state.md
R33), and the controller `Idle` between operations (R36, R143). -/
def State.Inv (s : State) : Prop := s.mem.wf ∧ s.mem.n ≤ Config.memMaxWords ∧ s.ctl = .idle

/-- A `PC` at external index 15: in range of `GPR` (43_machine_state_ops.md R130). -/
def PcReadable (s : State) : Prop := inRange .gpr 15 s = true

/-- The PC's value, `x[15]` (10_state.md R22). -/
def pcOf (s : State) : Word := wordAt .gpr 15 s

/-- The checks of `WS.DESER` on a map pass: the size is legal, for `MEM`, and every key is inside the new
bounds (40_wordstorage_ops.md R105). -/
def LoadOk (b : Bank) (p : SparseMap) (s : State) : Prop :=
  (b = .mem → 0 ≤ loadSize b p s ∧ loadSize b p s ≤ Config.memMaxWords) ∧
    ∀ x ∈ p.entries, 0 ≤ x.1 - p.offsetW.getD 0 ∧ x.1 - p.offsetW.getD 0 < loadSize b p s

/-- The word a map gives an external index, 0 where it has no entry (40_wordstorage_ops.md R105). -/
def mapWord (p : SparseMap) (i : Int) : Word :=
  ((p.entries.find? fun x => x.1 = i).map fun x => x.2).getD 0

/-- The word a command reads or writes through, at byte address `a`: in range, and the next one too if `a`
is not aligned (20_memory.md R59, R61). -/
def WordsMapped (a : Nat) (s : State) : Prop :=
  inRange .mem (wordIndex a) s = true ∧ (a % 4 ≠ 0 → inRange .mem (wordIndex a + 1) s = true)

/-- The state a command's loop works in: `Stepping`, with `ClearHighlights` emitted (44 R143). -/
def inCommand (s : State) : State := { s with ctl := .stepping, ev := s.ev ++ [.clearHighlights .ctl] }

/-- The state after a command that returns nothing: `Idle` (44 R143). -/
def afterCommand (s : State) : State := { s with ctl := .idle, answer := .none }

/-- The effect moves the PC by 4 whenever it completes: `PC.ADV` and operations that do not write slot 15
(44 R149 (d)). -/
def Advances (e : Effect) : Prop :=
  ∀ s t, PcReadable s → runEffect e [] s = .next t → PcReadable t ∧ pcOf t = pcOf s + 4

/-- Effects run one after the other, each once. -/
def runEffects : List Effect → State → Res State
  | [], s => .next s
  | e :: es, s => andThen (runEffect e [] s) (runEffects es)

/-- `s` stands at a valid instruction with this effect: a readable, aligned PC at it (44 R142). -/
def AtValid (s : State) (e : Effect) : Prop :=
  PcReadable s ∧ (pcOf s).toNat % 4 = 0 ∧ ∃ bp, s.prog[(pcOf s).toNat / 4]? = some (.valid e bp)

/-- One turn of a run loop after which the loop goes on: an effect completes, the PC changed, an instruction
exists there, and, where breakpoints count (`RUNBP`), it is none (44 R145, R146). -/
def Turn (breakpoints : Bool) (s t : State) : Prop :=
  (∃ e, AtValid s e ∧ runEffect e [] s = .next t) ∧ PcReadable t ∧ pcOf t ≠ pcOf s ∧
    (pcOf t).toNat % 4 = 0 ∧ (pcOf t).toNat / 4 < t.prog.length ∧
    (breakpoints = true → ∀ e, t.prog[(pcOf t).toNat / 4]? ≠ some (.valid e true))

/-- `n` turns of a run loop, each of which goes on. -/
inductive Turns (breakpoints : Bool) : Nat → State → State → Prop where
  | refl (s : State) : Turns breakpoints 0 s s
  | turn {n : Nat} {s t u : State} : Turn breakpoints s t → Turns breakpoints n t u → Turns breakpoints (n + 1) s u

/-- The turn that ends a run loop at a valid instruction: its effect completes, and then the PC did not change
(44 R145 (b), R146), no instruction exists at it ((c), R146), or, where breakpoints count (`RUNBP`), it is
one ((a)). -/
def LastTurn (breakpoints : Bool) (s t : State) : Prop :=
  (∃ e, AtValid s e ∧ runEffect e [] s = .next t) ∧ PcReadable t ∧
    (pcOf t = pcOf s ∨ (pcOf t).toNat % 4 ≠ 0 ∨ t.prog.length ≤ (pcOf t).toNat / 4 ∨
      breakpoints = true ∧ ∃ e, t.prog[(pcOf t).toNat / 4]? = some (.valid e true))

/-- `t` is `s` after the wrap and the end of a command: as it was where the PC is inside the program, else with
the PC set to 0 through the notifying setter (44 R143, R144). -/
def Wrapped (s t : State) : Prop :=
  ((pcOf s).toNat / 4 < s.prog.length → t = afterCommand s) ∧
    (s.prog.length ≤ (pcOf s).toNat / 4 →
      pcOf t = 0 ∧ (∀ b i, ¬ (b = .gpr ∧ i = 15) → peek b i t = peek b i s) ∧ SameMap s t ∧
      t.ev = s.ev ++ [.valueChanged .gpr 15 0 .gpr, .pcChanged 0 .gpr] ∧
      t.ctl = .idle ∧ t.prog = s.prog ∧ t.queue = s.queue ∧ t.fuel = s.fuel ∧ t.answer = .none)

/-- A run of steps that reached `t`: every step had a next state. -/
inductive SafeRun : State → State → Prop where
  | refl (s : State) : SafeRun s s
  | step {s t u : State} : SafeRun s t → step t = .next u → SafeRun s u

end Sys2Proof.Machine
end

