-- ==== Sys2Proof/Certificates/Slice0/Obligations.lean ====
section
/-! DEFINITION. The statements for the provers, from the numbered rules of spec/. Each docstring names the
rule it formalises, or says that the clause is the model's own choice. -/

open Sys2Proof Sys2Proof.Machine

/-! ## Encoding -/

/-- 30_encoding.md R77, R80 to R82: words of 95_test_vectors.md (scenario vectors and E1 to E18) name the
operations the spec says, or none. -/
def Obligations.DecodesTheSpecsExampleWords : Prop :=
  decode ⟨0x08800000, 15, 8, .empty⟩ = .ok (.wsSet .gpr 15 8 true) ∧
  decode ⟨0x34240300, 0, 0xFF, .empty⟩ = .ok (.vSete .quad 8 0 3 0xFF) ∧
  decode ⟨0x4C040000, 1, 0xAB, .empty⟩ = .ok (.mWrv 8 1 0xAB) ∧
  decode ⟨0x80000000, 0, 0, .empty⟩ = .ok .step ∧
  decode ⟨0x1C000010, 3, 9, .empty⟩ = .ok (.wsRecv .gpr 16 3 9) ∧
  decode ⟨0x77000000, 4, 7, .empty⟩ = .ok (.msHilite .mem 4 7) ∧
  decode ⟨0x00000000, 0, 0, .empty⟩ = .error .unassignedOp ∧
  decode ⟨0x08C00000, 0, 0, .empty⟩ = .error .reservedField ∧
  decode ⟨0x13000000, 0, 0, .empty⟩ = .error .setoffMem

/-- 30_encoding.md R77 to R81: the decoder reads back every operation the encoder writes, every operand at every
value. -/
def Obligations.DecodeOfEncodeIsTheOperation : Prop :=
  ∀ i : Instr, decode (encode i) = .ok i

/-- 30_encoding.md R81, R84: every command word that decodes is the one the encoder writes for that operation,
so no legal operation has a second word. -/
def Obligations.EncodeOfDecodeIsTheCommandWord : Prop :=
  ∀ (q : Request) (i : Instr), decode q = .ok i → (encode i).cmd = q.cmd

/-- 30_encoding.md R80 to R82: a use of the port decodes exactly when its word selects a row of the opcode
table (`word & mask = match`) and is not `WS.SETOFF` with `b = 3`; and no word selects two rows. -/
def Obligations.DecodesExactlyTheTablesWords : Prop :=
  (∀ q : Request, (∃ i, decode q = .ok i) ↔
    (∃ t ∈ opcodeTable, t.selects q.cmd = true) ∧ q.cmd &&& 0xFF000000 ≠ 0x13000000) ∧
  ∀ (cmd : Word), ∀ t ∈ opcodeTable, ∀ u ∈ opcodeTable,
    t.selects cmd = true → u.selects cmd = true → t = u

/-- 30_encoding.md R76: when the front of the host's queue is a use of the port that decodes to `i`, the step
runs `i` on the state with that use taken off the queue, and adds nothing around it. That the host's uses
wait in a queue is the model's choice (log 2). -/
def Obligations.StepRunsTheDecodedOperation : Prop :=
  ∀ (s : State) (q : Request) (rest : List HostInput) (i : Instr),
    s.queue = .command q :: rest → decode q = .ok i → step s = exec i { s with queue := rest }

/-- 30_encoding.md R82, 60_exceptions.md R166, R167: a word that selects no row is refused with `F = 6`; the
refusal gives no state and no event. (The spec's own decision D40.) -/
def Obligations.StepRefusesAnIllegalCommand : Prop :=
  ∀ (s : State) (q : Request) (rest : List HostInput) (e : DecodeError),
    s.queue = .command q :: rest → decode q = .error e →
    step s = .refused .illegalCommand ∧ portF (step s) = some 6

/-- 70_reset_and_hazards.md R200 in the form of log 2 and log 3 (the model's choice): a program edit changes
the instruction port alone, and with nothing pending nothing changes. -/
def Obligations.StepBetweenOperations : Prop :=
  (∀ (s : State) (p : Program) (rest : List HostInput),
    s.queue = .program p :: rest → step s = .next { s with prog := p, queue := rest }) ∧
  ∀ s : State, s.queue = [] → step s = .next s

/-! ## Reset and whole-machine rules -/

/-- 70_reset_and_hazards.md R186: after power-on every word of every bank is 0, so the PC is 0; memory has 32
words, at byte addresses 0 to 127 and no others; every offset is 0; the controller is `Idle` and the trace
empty. (The spec's own decision D20.) -/
def Obligations.PowerOnState : Prop :=
  (∀ i : Int, 0 ≤ i → i < 16 → peek .gpr i State.reset = some 0) ∧
  pcOf State.reset = 0 ∧
  (∀ i : Int, 0 ≤ i → i < 2 → peek .status i State.reset = some 0) ∧
  (∀ i : Int, 0 ≤ i → i < 64 → peek .vec i State.reset = some 0) ∧
  (∀ i : Int, 0 ≤ i → i < 32 → peek .mem i State.reset = some 0) ∧
  (∀ a : Nat, a < 128 → byteAt a State.reset = some 0) ∧
  (∀ a : Nat, 128 ≤ a → byteAt a State.reset = none) ∧
  (∀ b, bankOff b State.reset = 0) ∧
  bankSize .mem State.reset = 32 ∧
  State.reset.ctl = .idle ∧ State.reset.ev = []

/-- The invariant holds after power-on (10_state.md R33, R43). -/
def Obligations.PowerOnMeetsTheInvariant : Prop := State.reset.Inv

/-- Whatever the host does and whatever the program is, a step keeps the memory in canonical form and no
larger than `MEM_MAX_WORDS` (10_state.md R33) and ends with the controller `Idle` (R36, 44 R143). -/
def Obligations.EveryStepKeepsTheInvariant : Prop :=
  ∀ s t : State, s.Inv → step s = .next t → t.Inv

/-- 10_state.md R40, R43: the trace is the ordered list of every event since reset; no step erases, reorders
or inserts before an event already emitted. -/
def Obligations.EveryStepExtendsTheTrace : Prop :=
  ∀ s t : State, step s = .next t → s.ev <+: t.ev

/-- 20_memory.md R52, R71, 70_reset_and_hazards.md R200, 00_scope.md R16: no operation changes the instruction
sequence, whatever it stores, nor the host's pending actions, nor `FUEL`. -/
def Obligations.NoOperationChangesTheProgram : Prop :=
  ∀ (i : Instr) (s t : State), exec i s = .next t →
    t.prog = s.prog ∧ t.queue = s.queue ∧ t.fuel = s.fuel

/-- 10_state.md R34, R40 and 20_memory.md R65: events have no effect on the banks. Two states that differ
only in the trace and in the last answer give, for every operation, the same outcome up to those two. -/
def Obligations.TheTraceIsNeverRead : Prop :=
  ∀ (i : Instr) (s : State) (es : List Event) (a : Answer),
    match exec i s, exec i { s with ev := es ++ s.ev, answer := a } with
    | .next t, .next u => u = { t with ev := es ++ t.ev }
    | .fault r, .fault r' => r = r'
    | .refused r, .refused r' => r = r'
    | _, _ => False

/-- 10_state.md R45, 20_memory.md R65: the nine reading operations change no state and emit no event; only
the port's answer is new. -/
def Obligations.ReadsChangeNothing : Prop :=
  ∀ (i : Instr) (s t : State),
    (match i with
      | .wsGet .. | .wsSer .. | .vGetq .. | .vGetd .. | .vGete .. => True
      | .mRdw .. | .mRdv .. | .pcGet | .msSnap => True
      | _ => False) →
    exec i s = .next t → t = { s with answer := t.answer }

/-- 60_exceptions.md R160: the values of `F` for a completed operation and for each fault and refusal of the
table that is delivered on `F`. (The spec's own decision D30.) -/
def Obligations.FaultCodesOnThePort : Prop :=
  (∀ s, portF (.next s) = some 0) ∧ (∀ b i, portF (.fault (.addressing b i)) = some 1) ∧
  (∀ r e, portF (.fault (.addressingElement r e)) = some 1) ∧
  (∀ k, portF (.fault (.width k)) = some 5) ∧ portF (.refused .illegalCommand) = some 6 ∧
  Cause.code .instructionError = 2 ∧ Cause.code .pcInvalid = 3 ∧ Cause.code .stall = 4

/-- 00_scope.md R10: `sext_k(v)`, for a `k`-bit field `v`, is `v - 2^k` if its top bit is 1 and `v`
otherwise. -/
def Obligations.SignedViewOfAField : Prop :=
  ∀ (k : Nat) (v : Word), 1 ≤ k → k ≤ 32 →
    sextView k v =
      if v.getLsbD (k - 1) then ((v &&& mask k).toNat : Int) - 2 ^ k else ((v &&& mask k).toNat : Int)

/-! ## WordStorage operations -/

/-- 40_wordstorage_ops.md R100: `WS.GET` returns the word at an index in range, with no event and no state
written, and raises `AddressingFault` at any other. -/
def Obligations.WsGetReturnsTheWord : Prop :=
  ∀ (b : Bank) (a : Word) (s : State),
    (∀ v, peek b a.toInt s = some v → exec (.wsGet b a) s = .next { s with answer := .word v }) ∧
    (peek b a.toInt s = none → exec (.wsGet b a) s = .fault (.addressing b a.toInt))

/-- 40_wordstorage_ops.md R101: `WS.SET` at an index in range writes that word and no other, and emits
`ValueChanged` if notifying and then, on any write of `GPR` 15, `PcChanged`; at any other index it raises
`AddressingFault`. The frame: all other words, sizes, offsets, the controller, the program. (The spec's own
decisions D13, D27.) -/
def Obligations.WsSetWritesOneWord : Prop :=
  ∀ (b : Bank) (a d : Word) (n : Bool) (s : State),
    (inRange b a.toInt s = true →
      ∃ t, exec (.wsSet b a d n) s = .next t ∧ peek b a.toInt t = some d ∧
        Frame (fun b' i => b' = b ∧ i = a.toInt) s t ∧
        t.ev = s.ev ++ (if n then [.valueChanged b a.toInt d (bankComponent b)] else []) ++
          (if b = .gpr ∧ a.toInt = 15 then [.pcChanged d .gpr] else []) ∧
        t.answer = .none) ∧
    (inRange b a.toInt s = false → exec (.wsSet b a d n) s = .fault (.addressing b a.toInt))

/-- 40_wordstorage_ops.md R102: `clear(B, n)` is the loop `for i from B.off to B.off + B.N - 1, ascending:
set(B, i, 0, n)`. The premise is the invariant of memory's canonical form. (The spec's own decision D21.) -/
def Obligations.ClearIsTheLoopOfSets : Prop :=
  ∀ (b : Bank) (n : Bool) (s : State), s.mem.wf →
    exec (.wsClear b n) s =
      andThen ((List.range (bankSize b s)).foldl
        (fun r k => andThen r (bankSet b (bankOff b s + (k : Nat)) 0 n)) (.next s)) (complete .none)

/-- 40_wordstorage_ops.md R102: `WS.CLEAR` always completes with every slot of the bank 0, the size and the
offset kept, and with `n = 0` it emits nothing but the `PcChanged` of `GPR` 15. (The spec's own decision D21.)
-/
def Obligations.WsClearZeroesTheBank : Prop :=
  ∀ (b : Bank) (n : Bool) (s : State),
    ∃ t, exec (.wsClear b n) s = .next t ∧
      (∀ i, peek b i t = if inRange b i s then some 0 else none) ∧
      SameMap s t ∧ OtherBanksKept b s t ∧
      t.ev = s.ev ++ (List.range (bankSize b s)).flatMap (fun k =>
        (if n then [.valueChanged b (bankOff b s + (k : Nat)) 0 (bankComponent b)] else []) ++
          (if b = .gpr ∧ bankOff b s + (k : Nat) = 15 then [.pcChanged 0 .gpr] else [])) ∧
      t.answer = .none

/-- 40_wordstorage_ops.md R103: `WS.SETOFF` on a register bank moves the external indices and keeps the content
of every slot, with no event; with `b = 3` (`MEM`), whatever the other fields, the port refuses it as illegal.
(The spec's own decision D35.) -/
def Obligations.WsSetoffKeepsTheContent : Prop :=
  (∀ (b : RegisterBank) (a : Word) (s : State),
    ∃ t, exec (.wsSetoff b a) s = .next t ∧
      (∀ i, peek b.bank (i - bankOff b.bank s + a.toInt) t = peek b.bank i s) ∧
      bankOff b.bank t = a.toInt ∧ bankSize b.bank t = bankSize b.bank s ∧ OtherBanksKept b.bank s t ∧
      t.ev = s.ev ∧ t.answer = .none) ∧
  ∀ (s : State) (q : Request) (rest : List HostInput),
    s.queue = .command q :: rest → q.cmd &&& 0xFF000000 = 0x13000000 →
    step s = .refused .illegalCommand ∧ portF (step s) = some 6

/-- 40_wordstorage_ops.md R104: `WS.SER` returns exactly the non-zero slots keyed by external index, the offset
if it is not 0, and for `MEM` the size if it is not 32, with no event and no state written. The keys rise, which
is the form log 13 gives a finite map. (The spec's own decision D22.) -/
def Obligations.WsSerListsTheNonZeroWords : Prop :=
  ∀ (b : Bank) (s : State),
    ∃ m, exec (.wsSer b) s = .next { s with answer := .map m } ∧
      (∀ i v, (i, v) ∈ m.entries ↔ peek b i s = some v ∧ v ≠ 0) ∧
      m.entries.Pairwise (fun x y => x.1 < y.1) ∧
      m.offsetW = (if bankOff b s ≠ 0 then some (bankOff b s) else none) ∧
      m.sizeW = (if b = .mem ∧ bankSize b s ≠ 32 then some (bankSize b s : Int) else none)

/-- 40_wordstorage_ops.md R105: when its checks pass, `WS.DESER` replaces the bank by the map: the offset
(default 0), for `MEM` the size (default 32), every entry, and 0 in every other slot; then `SettingsChanged` if
`MEM` changed its map, and one notification for each slot, ascending, with the loaded value. (The spec's own
decisions D21, D22.) -/
def Obligations.WsDeserReplacesTheBank : Prop :=
  ∀ (b : Bank) (p : SparseMap) (s : State), p.wf = true → LoadOk b p s →
    ∃ t, exec (.wsDeser b p) s = .next t ∧
      bankOff b t = p.offsetW.getD 0 ∧
      (bankSize b t : Int) = (if b = .mem then p.sizeW.getD 32 else (bankSize b s : Int)) ∧
      (∀ i, inRange b i t = true → peek b i t = some (mapWord p i)) ∧
      OtherBanksKept b s t ∧
      t.ev = s.ev ++
        (if b = .mem ∧ (bankSize b t ≠ bankSize b s ∨ bankOff b t ≠ bankOff b s) then
          [.settingsChanged (bankSize b t) (bankOff b t) .mem] else []) ++
        (List.range (bankSize b t)).flatMap (fun k =>
          [.valueChanged b (bankOff b t + (k : Nat)) (mapWord p (bankOff b t + (k : Nat))) (bankComponent b)] ++
            (if b = .gpr ∧ bankOff b t + (k : Nat) = 15 then
              [.pcChanged (mapWord p (bankOff b t + (k : Nat))) .gpr] else [])) ∧
      t.answer = .none

/-- 40_wordstorage_ops.md R105: a size outside `[0, MEM_MAX_WORDS]` is an `AddressingFault` that names it,
whatever the keys; with a legal size, a key outside the new bounds is an `AddressingFault` that names such a
key. Which of several keys is named is the model's choice (log 10). -/
def Obligations.WsDeserFaultsOutsideTheNewBounds : Prop :=
  (∀ (p : SparseMap) (s : State), ¬ (0 ≤ p.sizeW.getD 32 ∧ p.sizeW.getD 32 ≤ Config.memMaxWords) →
    exec (.wsDeser .mem p) s = .fault (.addressing .mem (p.sizeW.getD 32))) ∧
  ∀ (b : Bank) (p : SparseMap) (s : State),
    (b = .mem → 0 ≤ p.sizeW.getD 32 ∧ p.sizeW.getD 32 ≤ Config.memMaxWords) →
    (∃ x ∈ p.entries, ¬ (0 ≤ x.1 - p.offsetW.getD 0 ∧ x.1 - p.offsetW.getD 0 < loadSize b p s)) →
    ∃ x ∈ p.entries, ¬ (0 ≤ x.1 - p.offsetW.getD 0 ∧ x.1 - p.offsetW.getD 0 < loadSize b p s) ∧
      exec (.wsDeser b p) s = .fault (.addressing b x.1)

/-- 40_wordstorage_ops.md R105, 95_test_vectors.md S-P3: loading a bank's own serialization, into any state,
gives back every word, the size and the offset. -/
def Obligations.DeserializeOfSerializeRestoresTheBank : Prop :=
  ∀ (b : Bank) (s u : State), bankSize .mem s ≤ Config.memMaxWords →
    ∃ t v m, exec (.wsSer b) s = .next t ∧ t.answer = .map m ∧ exec (.wsDeser b m) u = .next v ∧
      (∀ i, peek b i v = peek b i s) ∧ bankSize b v = bankSize b s ∧ bankOff b v = bankOff b s

/-- 40_wordstorage_ops.md R106, 10_state.md R41: an inbound notification of the bank's own origin is ignored,
whatever its index; one of any other origin is the notifying `set`, whose events carry the bank's own token.
(The spec's own decision D25.) -/
def Obligations.WsRecvSuppressesItsOwnEcho : Prop :=
  ∀ (b : Bank) (r : BitVec 8) (a d : Word) (s : State),
    (r = (bankComponent b).token → exec (.wsRecv b r a d) s = .next { s with answer := .none }) ∧
    (r ≠ (bankComponent b).token → exec (.wsRecv b r a d) s = exec (.wsSet b a d true) s) ∧
    (r ≠ (bankComponent b).token → inRange b a.toInt s = true →
      ∃ t, exec (.wsRecv b r a d) s = .next t ∧ peek b a.toInt t = some d)

/-! ## Vector operations -/

/-- 41_vector_ops.md R110, R112: `V.GETQ` and `V.GETD` return their words, the lowest index in the lowest
bits, with no event and no state written. -/
def Obligations.QuadAndDoubleReads : Prop :=
  (∀ (r : BitVec 8) (s : State) (w0 w1 w2 w3 : Word),
    peek .vec (4 * r.toNat) s = some w0 → peek .vec (4 * r.toNat + 1) s = some w1 →
    peek .vec (4 * r.toNat + 2) s = some w2 → peek .vec (4 * r.toNat + 3) s = some w3 →
    exec (.vGetq r) s = .next { s with answer := .quad (w3 ++ w2 ++ w1 ++ w0) }) ∧
  ∀ (r : BitVec 8) (s : State) (w0 w1 : Word),
    peek .vec (2 * r.toNat) s = some w0 → peek .vec (2 * r.toNat + 1) s = some w1 →
    exec (.vGetd r) s = .next { s with answer := .double (w1 ++ w0) }

/-- 41_vector_ops.md R111, R113: `V.SETQ` and `V.SETD` write their words, low word first, each notifying if
asked, and nothing else; the other half of the quad is unchanged. (The spec's own decision D28.) -/
def Obligations.QuadAndDoubleWrites : Prop :=
  (∀ (r : BitVec 8) (w0 w1 w2 w3 : Word) (n : Bool) (s : State),
    (∀ j : Nat, j < 4 → inRange .vec (4 * r.toNat + j) s = true) →
    ∃ t, exec (.vSetq r (w3 ++ w2 ++ w1 ++ w0) n) s = .next t ∧
      peek .vec (4 * r.toNat) t = some w0 ∧ peek .vec (4 * r.toNat + 1) t = some w1 ∧
      peek .vec (4 * r.toNat + 2) t = some w2 ∧ peek .vec (4 * r.toNat + 3) t = some w3 ∧
      Frame (fun b i => b = .vec ∧ 4 * (r.toNat : Int) ≤ i ∧ i < 4 * r.toNat + 4) s t ∧
      t.ev = s.ev ++ (if n then
        [.valueChanged .vec (4 * r.toNat) w0 .vec, .valueChanged .vec (4 * r.toNat + 1) w1 .vec,
         .valueChanged .vec (4 * r.toNat + 2) w2 .vec, .valueChanged .vec (4 * r.toNat + 3) w3 .vec]
        else []) ∧
      t.answer = .none) ∧
  ∀ (r : BitVec 8) (w0 w1 : Word) (n : Bool) (s : State),
    (∀ j : Nat, j < 2 → inRange .vec (2 * r.toNat + j) s = true) →
    ∃ t, exec (.vSetd r (w1 ++ w0) n) s = .next t ∧
      peek .vec (2 * r.toNat) t = some w0 ∧ peek .vec (2 * r.toNat + 1) t = some w1 ∧
      Frame (fun b i => b = .vec ∧ 2 * (r.toNat : Int) ≤ i ∧ i < 2 * r.toNat + 2) s t ∧
      t.ev = s.ev ++ (if n then
        [.valueChanged .vec (2 * r.toNat) w0 .vec, .valueChanged .vec (2 * r.toNat + 1) w1 .vec] else []) ∧
      t.answer = .none

/-- 41_vector_ops.md R110 to R113: the four accessors raise `AddressingFault` when a word of the register is out
of range; with `VEC.off = 0` that is `r >= 16` for a quad and `r >= 32` for a double. The index the fault names
is the first out of range, every lower one of the register's being in range; for the two reads that is the
model's choice (log 10). -/
def Obligations.QuadAndDoubleFaults : Prop :=
  ∀ (r : BitVec 8) (n : Bool) (d : BitVec 128) (d' : BitVec 64) (s : State),
    ((∃ j : Nat, j < 4 ∧ inRange .vec (4 * r.toNat + j) s = false) →
      ∃ j : Nat, j < 4 ∧ inRange .vec (4 * r.toNat + j) s = false ∧
        (∀ j' : Nat, j' < j → inRange .vec (4 * r.toNat + j') s = true) ∧
        exec (.vGetq r) s = .fault (.addressing .vec (4 * r.toNat + j)) ∧
        exec (.vSetq r d n) s = .fault (.addressing .vec (4 * r.toNat + j))) ∧
    ((∃ j : Nat, j < 2 ∧ inRange .vec (2 * r.toNat + j) s = false) →
      ∃ j : Nat, j < 2 ∧ inRange .vec (2 * r.toNat + j) s = false ∧
        (∀ j' : Nat, j' < j → inRange .vec (2 * r.toNat + j') s = true) ∧
        exec (.vGetd r) s = .fault (.addressing .vec (2 * r.toNat + j)) ∧
        exec (.vSetd r d' n) s = .fault (.addressing .vec (2 * r.toNat + j))) ∧
    (s.vec.off = 0 →
      ((∃ j : Nat, j < 4 ∧ inRange .vec (4 * r.toNat + j) s = false) ↔ 16 ≤ r.toNat) ∧
      ((∃ j : Nat, j < 2 ∧ inRange .vec (2 * r.toNat + j) s = false) ↔ 32 ≤ r.toNat))

/-- 41_vector_ops.md R114: where `locate` raises nothing, `V.GETE` returns bits `b+k-1 : b` of the word `r*cw +
(k*e) div 32`, with `b = (k*e) mod 32`, zero-extended, and changes nothing. (The spec's own decision D4.) -/
def Obligations.ElementRead : Prop :=
  ∀ (c : SizeClass) (w : BitVec 6) (r : BitVec 8) (e : BitVec 7) (s : State) (x : Word),
    w.toNat ∈ [1, 2, 4, 8, 16, 32] → w.toNat * e.toNat < 32 * sizeClassWords c →
    peek .vec (r.toNat * sizeClassWords c + (w.toNat * e.toNat / 32 : Nat)) s = some x →
    ∃ v, exec (.vGete c w r e) s = .next { s with answer := .word v } ∧
      ∀ j : Nat, v.getLsbD j = (decide (j < w.toNat) && x.getLsbD (w.toNat * e.toNat % 32 + j))

/-- 41_vector_ops.md R115: where `locate` raises nothing, `V.SETE` replaces exactly that field by the low `k`
bits of the value, with one `ValueChanged` of the whole word, and nothing else changes. (The spec's own
decisions D6, D29.) -/
def Obligations.ElementWrite : Prop :=
  ∀ (c : SizeClass) (w : BitVec 6) (r : BitVec 8) (e : BitVec 7) (d : Word) (s : State) (x : Word),
    w.toNat ∈ [1, 2, 4, 8, 16, 32] → w.toNat * e.toNat < 32 * sizeClassWords c →
    peek .vec (r.toNat * sizeClassWords c + (w.toNat * e.toNat / 32 : Nat)) s = some x →
    ∃ t y, exec (.vSete c w r e d) s = .next t ∧
      peek .vec (r.toNat * sizeClassWords c + (w.toNat * e.toNat / 32 : Nat)) t = some y ∧
      (∀ j : Nat, j < 32 → y.getLsbD j =
        if w.toNat * e.toNat % 32 ≤ j ∧ j < w.toNat * e.toNat % 32 + w.toNat then
          d.getLsbD (j - w.toNat * e.toNat % 32) else x.getLsbD j) ∧
      Frame (fun b i => b = .vec ∧ i = r.toNat * sizeClassWords c + (w.toNat * e.toNat / 32 : Nat)) s t ∧
      t.ev = s.ev ++
        [.valueChanged .vec (r.toNat * sizeClassWords c + (w.toNat * e.toNat / 32 : Nat)) y .vec] ∧
      t.answer = .none

/-- 41_vector_ops.md R114, R115, 60_exceptions.md R165, R171: the faults of the two element operations in their
order: the width, the element outside its register, the word outside the bank. (The spec's own decisions D3, D5,
D31.) -/
def Obligations.ElementFaultsInOrder : Prop :=
  ∀ (c : SizeClass) (w : BitVec 6) (r : BitVec 8) (e : BitVec 7) (d : Word) (s : State),
    (w.toNat ∉ [1, 2, 4, 8, 16, 32] →
      exec (.vGete c w r e) s = .fault (.width w.toNat) ∧
      exec (.vSete c w r e d) s = .fault (.width w.toNat)) ∧
    (w.toNat ∈ [1, 2, 4, 8, 16, 32] → 32 * sizeClassWords c ≤ w.toNat * e.toNat →
      exec (.vGete c w r e) s = .fault (.addressingElement r.toNat e.toNat) ∧
      exec (.vSete c w r e d) s = .fault (.addressingElement r.toNat e.toNat)) ∧
    (w.toNat ∈ [1, 2, 4, 8, 16, 32] → w.toNat * e.toNat < 32 * sizeClassWords c →
      peek .vec (r.toNat * sizeClassWords c + (w.toNat * e.toNat / 32 : Nat)) s = none →
      exec (.vGete c w r e) s =
        .fault (.addressing .vec (r.toNat * sizeClassWords c + (w.toNat * e.toNat / 32 : Nat))) ∧
      exec (.vSete c w r e d) s =
        .fault (.addressing .vec (r.toNat * sizeClassWords c + (w.toNat * e.toNat / 32 : Nat))))

/-- 41_vector_ops.md R116 (a), (b), 95 S-P1: an element written and then read is the low `k` bits of the
value; and the write leaves every element of a disjoint bit range of the array `VEC[63] ++ ... ++ VEC[0]` as
it was, through any class and width. -/
def Obligations.ElementWriteReadLaws : Prop :=
  (∀ (c : SizeClass) (w : BitVec 6) (r : BitVec 8) (e : BitVec 7) (d : Word) (s t : State),
    exec (.vSete c w r e d) s = .next t →
    exec (.vGete c w r e) t = .next { t with answer := .word (d &&& mask w.toNat) }) ∧
  ∀ (c c' : SizeClass) (w w' : BitVec 6) (r r' : BitVec 8) (e e' : BitVec 7) (d v : Word) (s t u : State),
    exec (.vSete c w r e d) s = .next t →
    exec (.vGete c' w' r' e') s = .next u → u.answer = .word v →
    (32 * sizeClassWords c * r.toNat + w.toNat * e.toNat + w.toNat ≤
        32 * sizeClassWords c' * r'.toNat + w'.toNat * e'.toNat ∨
      32 * sizeClassWords c' * r'.toNat + w'.toNat * e'.toNat + w'.toNat ≤
        32 * sizeClassWords c * r.toNat + w.toNat * e.toNat) →
    exec (.vGete c' w' r' e') t = .next { t with answer := .word v }

/-- 41_vector_ops.md R116 (d), (e), (f), 10_state.md R31 (a), (b): the views are one storage. A quad is two
doubles, a double two 32-bit elements, an element of width `2k` two of width `k`. -/
def Obligations.ViewsOfOneStorage : Prop :=
  (∀ (n : Nat) (s : State), n < 16 →
    quadAt n s = doubleAt (2 * n + 1) s ++ doubleAt (2 * n) s) ∧
  (∀ (m : Nat) (s : State), m < 32 →
    doubleAt m s = elementAt .double 32 m 1 s ++ elementAt .double 32 m 0 s) ∧
  (∀ (c : SizeClass) (k r e : Nat) (s : State), k ∈ [1, 2, 4, 8, 16] →
    (elementAt c (2 * k) r e s).toNat =
      (elementAt c k r (2 * e + 1) s).toNat * 2 ^ k + (elementAt c k r (2 * e) s).toNat) ∧
  (∀ (k n e : Nat) (s : State), k ∈ [1, 2, 4, 8, 16, 32] → k * e < 128 →
    elementAt .quad k n e s = elementAt .double k (2 * n + k * e / 64) (e % (64 / k)) s)

/-! ## Memory operations -/

/-- 42_memory_ops.md R120, 20_memory.md R56: a word read, aligned or not, is the four bytes from its address,
the lowest address in the lowest bits, with no event and no state written. -/
def Obligations.WordReadIsFourBytes : Prop :=
  ∀ (a : Word) (s : State), WordsMapped a.toNat s →
    ∃ b0 b1 b2 b3 : Byte,
      byteAt a.toNat s = some b0 ∧ byteAt (a.toNat + 1) s = some b1 ∧
      byteAt (a.toNat + 2) s = some b2 ∧ byteAt (a.toNat + 3) s = some b3 ∧
      exec (.mRdw a) s = .next { s with answer := .word (b3 ++ b2 ++ b1 ++ b0) }

/-- 42_memory_ops.md R121, 20_memory.md R56: a word write, aligned or not, sets the four bytes from its address
and changes no other byte and no other bank; one notification aligned, two misaligned, low word first, each
carrying the whole word now stored. (The spec's own decisions D2, D9.) -/
def Obligations.WordWriteSetsFourBytes : Prop :=
  ∀ (a d : Word) (s : State), WordsMapped a.toNat s →
    ∃ t, exec (.mWrw a d) s = .next t ∧
      (∀ j : Nat, j < 4 → byteAt (a.toNat + j) t = some (d.extractLsb' (8 * j) 8)) ∧
      (∀ x : Nat, x < a.toNat ∨ a.toNat + 4 ≤ x → byteAt x t = byteAt x s) ∧
      Frame (fun b i => b = .mem ∧
        (i = wordIndex a.toNat ∨ (a.toNat % 4 ≠ 0 ∧ i = wordIndex a.toNat + 1))) s t ∧
      (∃ lo hi, peek .mem (wordIndex a.toNat) t = some lo ∧
        (a.toNat % 4 ≠ 0 → peek .mem (wordIndex a.toNat + 1) t = some hi) ∧
        t.ev = s.ev ++ .valueChanged .mem (wordIndex a.toNat) lo .mem ::
          (if a.toNat % 4 = 0 then [] else [.valueChanged .mem (wordIndex a.toNat + 1) hi .mem])) ∧
      t.answer = .none

/-- 42_memory_ops.md R122: at a mapped address a value read is the word read there cut to `k` bits and
zero-extended, with no event and no state written. -/
def Obligations.ValueReadMasksTheWord : Prop :=
  ∀ (w : BitVec 6) (a : Word) (s : State), 1 ≤ w.toNat → w.toNat ≤ 32 → WordsMapped a.toNat s →
    ∃ v, exec (.mRdw a) s = .next { s with answer := .word v } ∧
      exec (.mRdv w a) s = .next { s with answer := .word (v &&& mask w.toNat) }

/-- 42_memory_ops.md R123: a value write replaces the low `k` bits of the word at its address by those of the
value, bit by bit, and changes no byte outside those four and no other bank. (The spec's own decisions D6, D10.)
-/
def Obligations.ValueWriteReplacesTheLowBits : Prop :=
  ∀ (w : BitVec 6) (a d : Word) (s : State), 1 ≤ w.toNat → w.toNat ≤ 32 → WordsMapped a.toNat s →
    ∃ t, exec (.mWrv w a d) s = .next t ∧
      (∀ j k : Nat, j < 4 → k < 8 → ∃ x y : Byte, byteAt (a.toNat + j) s = some x ∧
        byteAt (a.toNat + j) t = some y ∧
        y.getLsbD k = if 8 * j + k < w.toNat then d.getLsbD (8 * j + k) else x.getLsbD k) ∧
      (∀ x : Nat, x < a.toNat ∨ a.toNat + 4 ≤ x → byteAt x t = byteAt x s) ∧
      Frame (fun b i => b = .mem ∧
        (i = wordIndex a.toNat ∨ (a.toNat % 4 ≠ 0 ∧ i = wordIndex a.toNat + 1))) s t ∧
      (∃ lo hi, peek .mem (wordIndex a.toNat) t = some lo ∧
        (a.toNat % 4 ≠ 0 → peek .mem (wordIndex a.toNat + 1) t = some hi) ∧
        t.ev = s.ev ++ .valueChanged .mem (wordIndex a.toNat) lo .mem ::
          (if a.toNat % 4 = 0 then [] else [.valueChanged .mem (wordIndex a.toNat + 1) hi .mem])) ∧
      t.answer = .none

/-- 20_memory.md R61, 42_memory_ops.md R120 to R123, 60_exceptions.md R165, R171: the faults of the four
accesses. The width first; then the first word; then, at a misaligned address of any width, the next word, even
when every byte asked for exists. (The spec's own decisions D10, D31.) -/
def Obligations.MemoryFaultsInOrder : Prop :=
  ∀ (w : BitVec 6) (a d : Word) (s : State),
    (¬ (1 ≤ w.toNat ∧ w.toNat ≤ 32) →
      exec (.mRdv w a) s = .fault (.width w.toNat) ∧ exec (.mWrv w a d) s = .fault (.width w.toNat)) ∧
    (¬ WordsMapped a.toNat s →
      ∃ i, i = (if inRange .mem (wordIndex a.toNat) s then wordIndex a.toNat + 1 else wordIndex a.toNat) ∧
        exec (.mRdw a) s = .fault (.addressing .mem i) ∧ exec (.mWrw a d) s = .fault (.addressing .mem i) ∧
        (1 ≤ w.toNat → w.toNat ≤ 32 →
          exec (.mRdv w a) s = .fault (.addressing .mem i) ∧
          exec (.mWrv w a d) s = .fault (.addressing .mem i)))

/-- 42_memory_ops.md R126 (a) to (d), 95 S-P2, S-G: what was written is read back, at every address at which
the write does not fault; a value write of `8n` bits changes exactly `n` bytes; an aligned word write is the
notifying `WS.SET`. -/
def Obligations.MemoryWriteReadLaws : Prop :=
  (∀ (a d : Word) (s t : State), exec (.mWrw a d) s = .next t →
    exec (.mRdw a) t = .next { t with answer := .word d }) ∧
  (∀ (w : BitVec 6) (a d : Word) (s t : State), exec (.mWrv w a d) s = .next t →
    exec (.mRdv w a) t = .next { t with answer := .word (d &&& mask w.toNat) }) ∧
  (∀ (n : Nat) (w : BitVec 6) (a d : Word) (s t : State), w.toNat = 8 * n →
    exec (.mWrv w a d) s = .next t →
    (∀ j : Nat, j < n → byteAt (a.toNat + j) t = some (d.extractLsb' (8 * j) 8)) ∧
    ∀ x : Nat, x < a.toNat ∨ a.toNat + n ≤ x → byteAt x t = byteAt x s) ∧
  ∀ (a d : Word) (s : State), a.toNat % 4 = 0 →
    exec (.mWrw a d) s = exec (.wsSet .mem (BitVec.ofNat 32 (a.toNat / 4)) d true) s

/-- 42_memory_ops.md R124: `M.RESIZE` to the same size does nothing; to another legal size it sets the size,
keeps the offset, leaves every word 0, and emits `SettingsChanged` and the clear's notifications as asked; any
other size is an `AddressingFault`. (The spec's own decision D36.) -/
def Obligations.ResizeClearsTheMemory : Prop :=
  ∀ (a : Word) (n m : Bool) (s : State),
    (a.toInt = s.mem.n → exec (.mResize a n m) s = .next { s with answer := .none }) ∧
    (a.toInt ≠ s.mem.n → 0 ≤ a.toInt → a.toInt ≤ Config.memMaxWords →
      ∃ t, exec (.mResize a n m) s = .next t ∧ (bankSize .mem t : Int) = a.toInt ∧
        bankOff .mem t = bankOff .mem s ∧ (∀ i, inRange .mem i t = true → peek .mem i t = some 0) ∧
        OtherBanksKept .mem s t ∧
        t.ev = s.ev ++ (if n then [.settingsChanged (bankSize .mem t) (bankOff .mem s) .mem] else []) ++
          (if m then (List.range (bankSize .mem t)).map (fun k =>
            .valueChanged .mem (bankOff .mem s + (k : Nat)) 0 .mem) else []) ∧
        t.answer = .none) ∧
    (a.toInt ≠ s.mem.n → ¬ (0 ≤ a.toInt ∧ a.toInt ≤ Config.memMaxWords) →
      exec (.mResize a n m) s = .fault (.addressing .mem a.toInt))

/-- 42_memory_ops.md R125: `M.SETOFF` to the same offset does nothing; to another it sets the offset, keeps the
size, leaves every word 0, and emits `SettingsChanged` and the clear's notifications, with the new external
indices, as asked. (The spec's own decision D23.) -/
def Obligations.MemoryReoffsetClearsTheMemory : Prop :=
  ∀ (a : Word) (n m : Bool) (s : State),
    (a.toInt = s.mem.off → exec (.mSetoff a n m) s = .next { s with answer := .none }) ∧
    (a.toInt ≠ s.mem.off →
      ∃ t, exec (.mSetoff a n m) s = .next t ∧ bankSize .mem t = bankSize .mem s ∧
        bankOff .mem t = a.toInt ∧ (∀ i, inRange .mem i t = true → peek .mem i t = some 0) ∧
        OtherBanksKept .mem s t ∧
        t.ev = s.ev ++ (if n then [.settingsChanged (bankSize .mem s) a.toInt .mem] else []) ++
          (if m then (List.range (bankSize .mem s)).map (fun k =>
            .valueChanged .mem (a.toInt + (k : Nat)) 0 .mem) else []) ∧
        t.answer = .none)

/-! ## MachineState operations -/

/-- 43_machine_state_ops.md R130, R131, R132: what the three helpers return, write and emit, when external index
15 is in range of `GPR`, and their fault when it is not. (The spec's own decisions D12, D14.) -/
def Obligations.ProgramCounterHelpers : Prop :=
  ∀ (v : Word) (s : State),
    (PcReadable s →
      exec .pcGet s = .next { s with answer := .word (pcOf s) } ∧
      (∃ t, exec (.pcSet v) s = .next t ∧ pcOf t = v ∧ Frame (fun b i => b = .gpr ∧ i = 15) s t ∧
        t.ev = s.ev ++ [.valueChanged .gpr 15 v .gpr, .pcChanged v .gpr] ∧ t.answer = .none) ∧
      ∃ t, exec .pcAdv s = .next t ∧ (pcOf t).toNat = ((pcOf s).toNat + 4) % 2 ^ 32 ∧
        Frame (fun b i => b = .gpr ∧ i = 15) s t ∧
        t.ev = s.ev ++ [.pcChanged (pcOf t) .gpr] ∧ t.answer = .none) ∧
    (¬ PcReadable s →
      exec .pcGet s = .fault (.addressing .gpr 15) ∧ exec (.pcSet v) s = .fault (.addressing .gpr 15) ∧
      exec .pcAdv s = .fault (.addressing .gpr 15))

/-- 30_encoding.md R88: `PC.GET` = `WS.GET GPR, 15`; `PC.SET v` = `WS.SET GPR, 15, v, n=1`; `PC.ADV` =
`WS.SET GPR, 15, (x[15]+4) mod 2^32, n=0`, in every state. -/
def Obligations.ProgramCounterHelpersAreBankAccesses : Prop :=
  ∀ (v : Word) (s : State),
    exec .pcGet s = exec (.wsGet .gpr 15) s ∧ exec (.pcSet v) s = exec (.wsSet .gpr 15 v true) s ∧
    exec .pcAdv s = exec (.wsSet .gpr 15 (pcOf s + 4) false) s

/-- 43_machine_state_ops.md R133: `MS.SNAP` returns the four banks serialized, the status bank only if some
status word is not 0, with no event and no state written. -/
def Obligations.SnapshotIsTheBanksSerialized : Prop :=
  ∀ s : State, ∃ (p : Snapshot) (m : Bank → SparseMap),
    exec .msSnap s = .next { s with answer := .snapshot p } ∧
    (∀ b, exec (.wsSer b) s = .next { s with answer := .map (m b) }) ∧
    p.arm = some (m .gpr) ∧ p.memory = some (m .mem) ∧ p.neon = some (m .vec) ∧
    ((∃ i v, peek .status i s = some v ∧ v ≠ 0) → p.spec = some (m .status)) ∧
    ((∀ i v, peek .status i s = some v → v = 0) → p.spec = none)

/-- 43_machine_state_ops.md R134: `MS.REST` checks all four maps, an absent key as the empty record, before any
change, and then is the four `WS.DESER` in the order `GPR`, `MEM`, `VEC`, `STATUS`. Where a check fails, the
fault is that of the `WS.DESER` of the first bank, in that order, whose check fails. (The spec's own decision
D21.) -/
def Obligations.RestoreIsFourLoads : Prop :=
  ∀ (p : Snapshot) (s : State),
    (LoadOk .gpr (p.arm.getD .empty) s → LoadOk .mem (p.memory.getD .empty) s →
      LoadOk .vec (p.neon.getD .empty) s → LoadOk .status (p.spec.getD .empty) s →
      ∃ s1 s2 s3 t, exec (.wsDeser .gpr (p.arm.getD .empty)) s = .next s1 ∧
        exec (.wsDeser .mem (p.memory.getD .empty)) s1 = .next s2 ∧
        exec (.wsDeser .vec (p.neon.getD .empty)) s2 = .next s3 ∧
        exec (.wsDeser .status (p.spec.getD .empty)) s3 = .next t ∧
        exec (.msRest p) s = .next t) ∧
    (¬ LoadOk .gpr (p.arm.getD .empty) s →
      ∃ f, exec (.wsDeser .gpr (p.arm.getD .empty)) s = .fault f ∧ exec (.msRest p) s = .fault f) ∧
    (LoadOk .gpr (p.arm.getD .empty) s → ¬ LoadOk .mem (p.memory.getD .empty) s →
      ∃ f, exec (.wsDeser .mem (p.memory.getD .empty)) s = .fault f ∧ exec (.msRest p) s = .fault f) ∧
    (LoadOk .gpr (p.arm.getD .empty) s → LoadOk .mem (p.memory.getD .empty) s →
      ¬ LoadOk .vec (p.neon.getD .empty) s →
      ∃ f, exec (.wsDeser .vec (p.neon.getD .empty)) s = .fault f ∧ exec (.msRest p) s = .fault f) ∧
    (LoadOk .gpr (p.arm.getD .empty) s → LoadOk .mem (p.memory.getD .empty) s →
      LoadOk .vec (p.neon.getD .empty) s → ¬ LoadOk .status (p.spec.getD .empty) s →
      ∃ f, exec (.wsDeser .status (p.spec.getD .empty)) s = .fault f ∧ exec (.msRest p) s = .fault f)

/-- 43_machine_state_ops.md R133, R134, 90 C8: a snapshot taken and restored, into any state, gives back every
word, size and offset of every bank, but for the status offset when both status words are 0: the snapshot then
has no `spec` key, and both status words and the status offset are 0 afterwards. -/
def Obligations.RestoreOfSnapshotRestoresEveryBank : Prop :=
  ∀ s u : State, bankSize .mem s ≤ Config.memMaxWords →
    ∃ t v p, exec .msSnap s = .next t ∧ t.answer = .snapshot p ∧ exec (.msRest p) u = .next v ∧
      (∀ b, b ≠ .status →
        (∀ i, peek b i v = peek b i s) ∧ bankSize b v = bankSize b s ∧ bankOff b v = bankOff b s) ∧
      bankSize .status v = bankSize .status s ∧
      ((∃ i w, peek .status i s = some w ∧ w ≠ 0) →
        (∀ i, peek .status i v = peek .status i s) ∧ bankOff .status v = bankOff .status s) ∧
      ((∀ i w, peek .status i s = some w → w = 0) →
        (∀ i w, peek .status i v = some w → w = 0) ∧ bankOff .status v = 0)

/-- 43_machine_state_ops.md R135: `MS.HILITE` emits its one event and changes nothing; the range is not checked.
(The spec's own decision D37.) -/
def Obligations.HighlightOnlyEmits : Prop :=
  ∀ (b : Bank) (a d : Word) (s : State), ∃ t, exec (.msHilite b a d) s = .next t ∧ SameBanks s t ∧
    SameContext s t ∧ t.ev = s.ev ++ [.highlightIntent b a d .ms] ∧ t.answer = .none

/-! ## Controller commands -/

/-- 44_controller_commands.md R142, R144, 60_exceptions.md R162, R163, R171, R173: a `STEP` at a misaligned PC,
at a PC with no instruction, or at an error instruction emits `ClearHighlights` and one `Diagnostic`, changes no
bank, does not wrap, and ends `Idle`. Where external index 15 is out of range of `GPR`, `STEP` ends with that
`AddressingFault` (R161). (The spec's own decision D11.) -/
def Obligations.FailedStepOnlyReports : Prop :=
  (∀ s : State, ¬ PcReadable s → exec .step s = .fault (.addressing .gpr 15)) ∧
  ∀ s : State, PcReadable s →
    (((pcOf s).toNat % 4 ≠ 0 ∨ s.prog.length ≤ (pcOf s).toNat / 4) →
      ∃ t, exec .step s = .next t ∧ SameBanks s t ∧
        t.ev = s.ev ++ [.clearHighlights .ctl, .diagnostic .pcInvalid (.pc (pcOf s)) .ctl] ∧
        t.ctl = .idle ∧ t.prog = s.prog ∧ t.queue = s.queue ∧ t.answer = .none) ∧
    ∀ msg span, (pcOf s).toNat % 4 = 0 → s.prog[(pcOf s).toNat / 4]? = some (.error msg span) →
      ∃ t, exec .step s = .next t ∧ SameBanks s t ∧
        t.ev = s.ev ++
          [.clearHighlights .ctl, .diagnostic .instructionError (.parse (pcOf s) msg span) .ctl] ∧
        t.ctl = .idle ∧ t.prog = s.prog ∧ t.queue = s.queue ∧ t.answer = .none

/-- 44_controller_commands.md R142 to R144: a `STEP` at a valid instruction runs its effect on the state with
`ClearHighlights` emitted and the controller `Stepping`, and then, if the PC is at or beyond the end of the
program, sets it to 0 through the notifying setter; it ends `Idle`. An effect that leaves external index 15 out
of range of `GPR` ends the command with that `AddressingFault` (60_exceptions.md R161). (The spec's own decision
D15.) -/
def Obligations.StepRunsTheEffectThenWraps : Prop :=
  (∀ (s u : State) (e : Effect), AtValid s e → runEffect e [] (inCommand s) = .next u → ¬ PcReadable u →
    exec .step s = .fault (.addressing .gpr 15)) ∧
  ∀ (s u : State) (e : Effect) (bp : Bool), PcReadable s → (pcOf s).toNat % 4 = 0 →
    s.prog[(pcOf s).toNat / 4]? = some (.valid e bp) →
    runEffect e [] (inCommand s) = .next u → PcReadable u →
    ((pcOf u).toNat / 4 < s.prog.length → exec .step s = .next (afterCommand u)) ∧
    (s.prog.length ≤ (pcOf u).toNat / 4 →
      ∃ t, exec .step s = .next t ∧ pcOf t = 0 ∧
        (∀ b i, ¬ (b = .gpr ∧ i = 15) → peek b i t = peek b i u) ∧ SameMap u t ∧
        t.ev = u.ev ++ [.valueChanged .gpr 15 0 .gpr, .pcChanged 0 .gpr] ∧
        t.ctl = .idle ∧ t.prog = s.prog ∧ t.queue = s.queue ∧ t.answer = .none)

/-- 44_controller_commands.md R141, 60_exceptions.md R166: an effect, whatever it is, leaves the controller and the
inputs alone, and only adds to the trace. It acts through the operations of files 40 to 43 alone: each one it
issues means what it means at the port, and the effect goes on from the state it leaves; a controller command is
refused (log 17). No operation is illegal once decoded: `IllegalCommand` is no outcome of an effect, nor of any
meaning at the port. -/
def Obligations.EffectsActOnTheBanksOnly : Prop :=
  (∀ (e : Effect) (ts : List Answer) (s t : State), runEffect e ts s = .next t →
    SameContext s t ∧ s.ev <+: t.ev) ∧
  (∀ (i : Instr) (s : State), i.isCommand = false → execOperation i s = exec i s) ∧
  (∀ (x : Action) (e : Effect) (ts : List Answer) (s : State),
    ((actionInstr ts x).isCommand = false →
      runEffect (.act x e) ts s =
        andThen (exec (actionInstr ts x) s) fun t => runEffect e (ts ++ [t.answer]) t) ∧
    ((actionInstr ts x).isCommand = true → runEffect (.act x e) ts s = .refused .effectIssuesCommand)) ∧
  (∀ (i : Instr) (ts : List Answer), actionInstr ts { op := i } = i) ∧
  (∀ (e : Effect) (ts : List Answer) (s : State), runEffect e ts s ≠ .refused .illegalCommand) ∧
  ∀ (i : Instr) (s : State), exec i s ≠ .refused .illegalCommand

/-- 44_controller_commands.md R141, 60_exceptions.md R161, R174: a fault inside an effect is the outcome of the
command: in `STEP`'s one effect, and in `RUNBP` and `RUNEND` in the effect of the first instruction or of any
later one the loop comes to. So is, in the two runs, the `AddressingFault` of the PC's own read where an effect
leaves external index 15 out of range. The number of turns is below `FUEL` (00_scope.md R7). (The spec's own
decision D34.) -/
def Obligations.FaultInAnEffectEndsTheCommand : Prop :=
  (∀ (s : State) (e : Effect) (r : Fault), AtValid s e → runEffect e [] (inCommand s) = .fault r →
    exec .step s = .fault r ∧ (0 < s.fuel → exec .runbp s = .fault r ∧ exec .runend s = .fault r)) ∧
  (∀ (n : Nat) (s u : State) (e : Effect) (r : Fault), n < s.fuel → AtValid u e →
    runEffect e [] u = .fault r →
    (Turns true n (inCommand s) u → exec .runbp s = .fault r) ∧
    (Turns false n (inCommand s) u → exec .runend s = .fault r)) ∧
  ∀ (n : Nat) (s u v : State) (e : Effect), n < s.fuel → AtValid u e →
    runEffect e [] u = .next v → ¬ PcReadable v →
    (Turns true n (inCommand s) u → exec .runbp s = .fault (.addressing .gpr 15)) ∧
    (Turns false n (inCommand s) u → exec .runend s = .fault (.addressing .gpr 15))

/-- 44_controller_commands.md R145, R146, 70_reset_and_hazards.md R191, R192, 95 S-E, programs 2 and 3: after any
number of turns below `FUEL`, none included, a run ends after one step more that meets an exit test: the PC did not
change, no instruction exists at it, or, for `RUNBP`, it is a breakpoint; the wrap is then applied once. Where
that step is the first, `RUNBP` did what `STEP` does. A run that comes to an error instruction goes on to it,
reports `InstructionError` once, and ends by the stall on it, with no wrap. One that makes `FUEL` turns is refused
(93 U6). -/
def Obligations.RunToBreakpointEndsAfterOneStep : Prop :=
  (∀ (s u : State), 0 < s.fuel → LastTurn true (inCommand s) u →
    exec .runbp s = exec .step s ∧ ∃ t, exec .runbp s = .next t) ∧
  (∀ (n : Nat) (s u v : State), n < s.fuel → Turns true n (inCommand s) u → LastTurn true u v →
    ∃ t, exec .runbp s = .next t ∧ Wrapped v t) ∧
  (∀ (n : Nat) (s u v : State), n < s.fuel → Turns false n (inCommand s) u → LastTurn false u v →
    ∃ t, exec .runend s = .next t ∧ Wrapped v t) ∧
  (∀ (n : Nat) (s u : State) (msg : String) (span : List Nat), n < s.fuel → PcReadable u →
    (pcOf u).toNat % 4 = 0 → u.prog[(pcOf u).toNat / 4]? = some (.error msg span) →
    ∃ t, SameBanks u t ∧
      t.ev = u.ev ++ [.diagnostic .instructionError (.parse (pcOf u) msg span) .ctl] ∧
      t.ctl = .idle ∧ t.prog = u.prog ∧ t.queue = u.queue ∧ t.answer = .none ∧
      (Turns true n (inCommand s) u → exec .runbp s = .next t) ∧
      (Turns false n (inCommand s) u → exec .runend s = .next t)) ∧
  ∀ s u : State,
    (Turns true s.fuel (inCommand s) u → exec .runbp s = .refused .fuelExhausted) ∧
    (0 < s.fuel → Turns false s.fuel (inCommand s) u → exec .runend s = .refused .fuelExhausted)

/-- 44_controller_commands.md R145, R146 (decisions D16, D33): at a PC that is misaligned or has no instruction,
`RUNBP` reports it once and `RUNEND` runs no step and reports nothing; unlike `STEP`, both then wrap a PC beyond
the end. Where external index 15 is out of range of `GPR`, both end with that `AddressingFault`
(60_exceptions.md R161). `FUEL` allows a step core (00_scope.md R7). -/
def Obligations.RunsAtAnInvalidPc : Prop :=
  (∀ s : State, ¬ PcReadable s →
    (0 < s.fuel → exec .runbp s = .fault (.addressing .gpr 15)) ∧
    exec .runend s = .fault (.addressing .gpr 15)) ∧
  ∀ s : State, 0 < s.fuel → PcReadable s → ((pcOf s).toNat % 4 ≠ 0 ∨ s.prog.length ≤ (pcOf s).toNat / 4) →
    ∃ t u, exec .runbp s = .next t ∧ exec .runend s = .next u ∧ SameBanks t u ∧
      pcOf t = (if s.prog.length ≤ (pcOf s).toNat / 4 then 0 else pcOf s) ∧
      (∀ b i, ¬ (b = .gpr ∧ i = 15) → peek b i t = peek b i s) ∧ SameMap s t ∧
      t.ev = s.ev ++ [.clearHighlights .ctl, .diagnostic .pcInvalid (.pc (pcOf s)) .ctl] ++
        (if s.prog.length ≤ (pcOf s).toNat / 4 then
          [.valueChanged .gpr 15 0 .gpr, .pcChanged 0 .gpr] else []) ∧
      u.ev = s.ev ++ [.clearHighlights .ctl] ++
        (if s.prog.length ≤ (pcOf s).toNat / 4 then
          [.valueChanged .gpr 15 0 .gpr, .pcChanged 0 .gpr] else []) ∧
      t.ctl = .idle ∧ t.prog = s.prog ∧ t.queue = s.queue ∧ SameContext t u

/-- 44_controller_commands.md R149 (b), 70_reset_and_hazards.md R193: after a run command that completes, the
PC is inside the program or 0. -/
def Obligations.RunsLeaveThePcInTheProgram : Prop :=
  ∀ s t : State, (exec .runbp s = .next t ∨ exec .runend s = .next t) →
    PcReadable t ∧ ((pcOf t).toNat / 4 < t.prog.length ∨ pcOf t = 0)

/-- 44_controller_commands.md R149 (d): from an aligned PC in range, if the instructions from there on are
valid, each effect moves the PC by 4 and, run one after the other, they complete, then `RUNEND` completes
having run each of them once, in order. At the end of the program the PC is wrapped to 0; at an error
instruction the run stops on it, with its diagnostic. The premise `instruction_count <= 2^29` is decision
D32's; `FUEL` allows a step core for each instruction (00_scope.md R7). -/
def Obligations.StraightLineProgramRunsToItsEnd : Prop :=
  ∀ (s u : State) (es : List (Effect × Bool)) (k : Nat) (rest : Program),
    PcReadable s → (pcOf s).toNat = 4 * k → s.prog.length ≤ 2 ^ 29 → s.prog.length ≤ s.fuel →
    s.prog.drop k = es.map (fun x => .valid x.1 x.2) ++ rest →
    (∀ x ∈ es, Advances x.1) →
    runEffects (es.map Prod.fst) (inCommand s) = .next u →
    (rest = [] →
      ∃ t, exec .runend s = .next t ∧ pcOf t = 0 ∧
        (∀ b i, ¬ (b = .gpr ∧ i = 15) → peek b i t = peek b i u) ∧
        t.ev = u.ev ++ [.valueChanged .gpr 15 0 .gpr, .pcChanged 0 .gpr] ∧ t.ctl = .idle) ∧
    (∀ msg span rest', rest = .error msg span :: rest' →
      ∃ t, exec .runend s = .next t ∧ (pcOf t).toNat = 4 * (k + es.length) ∧ SameBanks u t ∧
        t.ev = u.ev ++ [.diagnostic .instructionError (.parse (pcOf t) msg span) .ctl] ∧ t.ctl = .idle)

/-- 44_controller_commands.md R145: along instructions whose effects each move the PC by 4, `RUNBP` runs them
in order and stops at the first breakpoint after the first of them, with no wrap; a breakpoint on the
starting instruction does not stop it. `FUEL` allows a step core for each instruction (00_scope.md R7). -/
def Obligations.RunStopsAtTheFirstBreakpoint : Prop :=
  ∀ (s u : State) (e0 e1 : Effect) (b0 : Bool) (es : List Effect) (k : Nat) (rest : Program),
    PcReadable s → (pcOf s).toNat = 4 * k → s.prog.length ≤ 2 ^ 29 → s.prog.length ≤ s.fuel →
    s.prog.drop k = .valid e0 b0 :: (es.map (fun e => .valid e false) ++ .valid e1 true :: rest) →
    (∀ e ∈ e0 :: es, Advances e) →
    runEffects (e0 :: es) (inCommand s) = .next u →
    exec .runbp s = .next (afterCommand u) ∧ (pcOf u).toNat = 4 * (k + 1 + es.length)

/-- 44_controller_commands.md R144 to R146, 95 S-D, C1: on a program whose every effect is `PC.ADV`, from an
aligned PC in range, each of the three commands completes. `STEP` moves the PC by 4, or to 0 past the last
instruction; `RUNEND` ends at 0; `RUNBP` ends at 0 or at a breakpoint. No other word changes. The premise
`instruction_count <= 2^29` is decision D32's; `FUEL` allows a step core for each instruction. -/
def Obligations.AdvancingProgramCommandsComplete : Prop :=
  ∀ s : State, PcReadable s → (pcOf s).toNat % 4 = 0 → (pcOf s).toNat / 4 < s.prog.length →
    s.prog.length ≤ 2 ^ 29 → s.prog.length ≤ s.fuel →
    (∀ i ∈ s.prog, ∃ bp, i = .valid (.act { op := .pcAdv } .done) bp) →
    ∃ t u v, exec .step s = .next t ∧ exec .runend s = .next u ∧ exec .runbp s = .next v ∧
      pcOf t = (if (pcOf s).toNat / 4 + 1 < s.prog.length then pcOf s + 4 else 0) ∧
      pcOf u = 0 ∧
      (pcOf v = 0 ∨ ∃ e, s.prog[(pcOf v).toNat / 4]? = some (.valid e true)) ∧
      (∀ b i, ¬ (b = .gpr ∧ i = 15) →
        peek b i t = peek b i s ∧ peek b i u = peek b i s ∧ peek b i v = peek b i s) ∧
      t.ctl = .idle ∧ u.ctl = .idle ∧ v.ctl = .idle

/-- 44_controller_commands.md R147: `RSTX` writes slot 15 alone, through the notifying setter, with no
`ClearHighlights`; it faults only where external index 15 is out of range. (The spec's own decision D15.) -/
def Obligations.ResetExecutionZeroesThePc : Prop :=
  ∀ s : State,
    (PcReadable s →
      ∃ t, exec .rstx s = .next t ∧ pcOf t = 0 ∧
        (∀ b i, ¬ (b = .gpr ∧ i = 15) → peek b i t = peek b i s) ∧ SameMap s t ∧
        t.ev = s.ev ++ [.valueChanged .gpr 15 0 .gpr, .pcChanged 0 .gpr] ∧
        t.ctl = .idle ∧ t.prog = s.prog ∧ t.queue = s.queue ∧ t.answer = .none) ∧
    (¬ PcReadable s → exec .rstx s = .fault (.addressing .gpr 15))

/-- 44_controller_commands.md R148, 10_state.md R43: `RSTM` always completes, with every bank as after power-on
and the controller `Idle`; it erases no event and appends one notification for each slot of every bank,
`PcChanged(0)` after `GPR` slot 15, and `SettingsChanged(32, 0)` if the memory's map changed. (The spec's own
decisions D19, D21.) -/
def Obligations.ResetMachineRestoresPowerOn : Prop :=
  ∀ s : State,
    ∃ t, exec .rstm s = .next t ∧ SameBanks State.reset t ∧
      t.ctl = .idle ∧ t.prog = s.prog ∧ t.queue = s.queue ∧ t.answer = .none ∧
      t.ev = s.ev ++
        (List.range 16).map (fun k => .valueChanged .gpr (k : Nat) 0 .gpr) ++ [.pcChanged 0 .gpr] ++
        (if s.mem.n ≠ 32 ∨ s.mem.off ≠ 0 then [.settingsChanged 32 0 .mem] else []) ++
        (List.range 32).map (fun k => .valueChanged .mem (k : Nat) 0 .mem) ++
        (List.range 64).map (fun k => .valueChanged .vec (k : Nat) 0 .vec) ++
        (List.range 2).map (fun k => .valueChanged .status (k : Nat) 0 .status)
end

