-- ==== Sys2Proof/Laws/State.lean ====
section
/-! SUPPORT. One lemma per field per update of State, so that no later proof unfolds a record update. -/

namespace Sys2Proof.Machine

variable (s : State) (e : Event) (es : List Event) (b : Bank) (k : Nat) (v : Word) (o : Int)

@[simp] theorem emit_gpr : (emit e s).gpr = s.gpr := rfl
@[simp] theorem emit_status : (emit e s).status = s.status := rfl
@[simp] theorem emit_vec : (emit e s).vec = s.vec := rfl
@[simp] theorem emit_mem : (emit e s).mem = s.mem := rfl
@[simp] theorem emit_ctl : (emit e s).ctl = s.ctl := rfl
@[simp] theorem emit_ev : (emit e s).ev = s.ev ++ [e] := rfl
@[simp] theorem emit_answer : (emit e s).answer = s.answer := rfl
@[simp] theorem emit_prog : (emit e s).prog = s.prog := rfl
@[simp] theorem emit_queue : (emit e s).queue = s.queue := rfl
@[simp] theorem emit_fuel : (emit e s).fuel = s.fuel := rfl

@[simp] theorem emitAll_gpr : (emitAll es s).gpr = s.gpr := rfl
@[simp] theorem emitAll_status : (emitAll es s).status = s.status := rfl
@[simp] theorem emitAll_vec : (emitAll es s).vec = s.vec := rfl
@[simp] theorem emitAll_mem : (emitAll es s).mem = s.mem := rfl
@[simp] theorem emitAll_ctl : (emitAll es s).ctl = s.ctl := rfl
@[simp] theorem emitAll_ev : (emitAll es s).ev = s.ev ++ es := rfl
@[simp] theorem emitAll_answer : (emitAll es s).answer = s.answer := rfl
@[simp] theorem emitAll_prog : (emitAll es s).prog = s.prog := rfl
@[simp] theorem emitAll_queue : (emitAll es s).queue = s.queue := rfl
@[simp] theorem emitAll_fuel : (emitAll es s).fuel = s.fuel := rfl

@[simp] theorem setAnswer_answer (a : Answer) : (setAnswer a s).answer = a := rfl
@[simp] theorem setAnswer_gpr (a : Answer) : (setAnswer a s).gpr = s.gpr := rfl
@[simp] theorem setAnswer_status (a : Answer) : (setAnswer a s).status = s.status := rfl
@[simp] theorem setAnswer_vec (a : Answer) : (setAnswer a s).vec = s.vec := rfl
@[simp] theorem setAnswer_mem (a : Answer) : (setAnswer a s).mem = s.mem := rfl
@[simp] theorem setAnswer_ctl (a : Answer) : (setAnswer a s).ctl = s.ctl := rfl
@[simp] theorem setAnswer_ev (a : Answer) : (setAnswer a s).ev = s.ev := rfl
@[simp] theorem setAnswer_prog (a : Answer) : (setAnswer a s).prog = s.prog := rfl
@[simp] theorem setAnswer_queue (a : Answer) : (setAnswer a s).queue = s.queue := rfl
@[simp] theorem setAnswer_fuel (a : Answer) : (setAnswer a s).fuel = s.fuel := rfl

@[simp] theorem setCtl_ctl (c : CtlState) : (setCtl c s).ctl = c := rfl
@[simp] theorem setCtl_gpr (c : CtlState) : (setCtl c s).gpr = s.gpr := rfl
@[simp] theorem setCtl_status (c : CtlState) : (setCtl c s).status = s.status := rfl
@[simp] theorem setCtl_vec (c : CtlState) : (setCtl c s).vec = s.vec := rfl
@[simp] theorem setCtl_mem (c : CtlState) : (setCtl c s).mem = s.mem := rfl
@[simp] theorem setCtl_ev (c : CtlState) : (setCtl c s).ev = s.ev := rfl
@[simp] theorem setCtl_answer (c : CtlState) : (setCtl c s).answer = s.answer := rfl
@[simp] theorem setCtl_prog (c : CtlState) : (setCtl c s).prog = s.prog := rfl
@[simp] theorem setCtl_queue (c : CtlState) : (setCtl c s).queue = s.queue := rfl
@[simp] theorem setCtl_fuel (c : CtlState) : (setCtl c s).fuel = s.fuel := rfl

@[simp] theorem setAnswer_setAnswer (a a' : Answer) : setAnswer a (setAnswer a' s) = setAnswer a s := rfl
@[simp] theorem setCtl_setCtl (c c' : CtlState) : setCtl c (setCtl c' s) = setCtl c s := rfl

@[simp] theorem setSlot_ctl : (setSlot b k v s).ctl = s.ctl := by cases b <;> rfl
@[simp] theorem setSlot_ev : (setSlot b k v s).ev = s.ev := by cases b <;> rfl
@[simp] theorem setSlot_answer : (setSlot b k v s).answer = s.answer := by cases b <;> rfl
@[simp] theorem setSlot_prog : (setSlot b k v s).prog = s.prog := by cases b <;> rfl
@[simp] theorem setSlot_queue : (setSlot b k v s).queue = s.queue := by cases b <;> rfl
@[simp] theorem setSlot_fuel : (setSlot b k v s).fuel = s.fuel := by cases b <;> rfl

@[simp] theorem putWord_ctl (i : Int) : (putWord b i v s).ctl = s.ctl := setSlot_ctl ..
@[simp] theorem putWord_ev (i : Int) : (putWord b i v s).ev = s.ev := setSlot_ev ..
@[simp] theorem putWord_answer (i : Int) : (putWord b i v s).answer = s.answer := setSlot_answer ..
@[simp] theorem putWord_prog (i : Int) : (putWord b i v s).prog = s.prog := setSlot_prog ..
@[simp] theorem putWord_queue (i : Int) : (putWord b i v s).queue = s.queue := setSlot_queue ..
@[simp] theorem putWord_fuel (i : Int) : (putWord b i v s).fuel = s.fuel := setSlot_fuel ..

@[simp] theorem zeroBank_ctl : (zeroBank b s).ctl = s.ctl := by cases b <;> rfl
@[simp] theorem zeroBank_ev : (zeroBank b s).ev = s.ev := by cases b <;> rfl
@[simp] theorem zeroBank_answer : (zeroBank b s).answer = s.answer := by cases b <;> rfl
@[simp] theorem zeroBank_prog : (zeroBank b s).prog = s.prog := by cases b <;> rfl
@[simp] theorem zeroBank_queue : (zeroBank b s).queue = s.queue := by cases b <;> rfl
@[simp] theorem zeroBank_fuel : (zeroBank b s).fuel = s.fuel := by cases b <;> rfl

@[simp] theorem remapBank_ctl : (remapBank b k o s).ctl = s.ctl := by cases b <;> rfl
@[simp] theorem remapBank_ev : (remapBank b k o s).ev = s.ev := by cases b <;> rfl
@[simp] theorem remapBank_answer : (remapBank b k o s).answer = s.answer := by cases b <;> rfl
@[simp] theorem remapBank_prog : (remapBank b k o s).prog = s.prog := by cases b <;> rfl
@[simp] theorem remapBank_queue : (remapBank b k o s).queue = s.queue := by cases b <;> rfl
@[simp] theorem remapBank_fuel : (remapBank b k o s).fuel = s.fuel := by cases b <;> rfl

@[simp] theorem setOffset_ctl : (setOffset b o s).ctl = s.ctl := by cases b <;> rfl
@[simp] theorem setOffset_ev : (setOffset b o s).ev = s.ev := by cases b <;> rfl
@[simp] theorem setOffset_answer : (setOffset b o s).answer = s.answer := by cases b <;> rfl
@[simp] theorem setOffset_prog : (setOffset b o s).prog = s.prog := by cases b <;> rfl
@[simp] theorem setOffset_queue : (setOffset b o s).queue = s.queue := by cases b <;> rfl
@[simp] theorem setOffset_fuel : (setOffset b o s).fuel = s.fuel := by cases b <;> rfl

end Sys2Proof.Machine
end

