-- ==== Sys2Proof/Laws/Cells.lean ====
section
/-! SUPPORT. Reading after writing the byte cells and the words of memory, and the canonical form. -/

namespace Sys2Proof.Machine

theorem cellRead_cellInsert_ne (cs : List Host.Cell) (k j : Nat) (v : Byte) (h : j ≠ k) :
    cellRead (cellInsert cs k v) j = cellRead cs j := by
  induction cs with
  | nil => simp [cellInsert, cellRead, Ne.symm h]
  | cons c t ih =>
    obtain ⟨i, x⟩ := c
    by_cases hk : k < i <;> simp [cellInsert, hk, cellRead, Ne.symm h, ih]

theorem cellRead_cellInsert_same (cs : List Host.Cell) (k : Nat) (v : Byte) (h : ∀ c ∈ cs, c.1 ≠ k) :
    cellRead (cellInsert cs k v) k = v := by
  induction cs with
  | nil => simp [cellInsert, cellRead]
  | cons c t ih =>
    obtain ⟨i, x⟩ := c
    have hi : i ≠ k := h (i, x) (by simp)
    have := ih (fun c hc => h c (by simp [hc]))
    by_cases hk : k < i <;> simp [cellInsert, hk, cellRead, hi, this]

theorem cellRead_erase_ne (cs : List Host.Cell) (k j : Nat) (h : j ≠ k) :
    cellRead (cs.filter fun c => c.1 != k) j = cellRead cs j := by
  induction cs with
  | nil => rfl
  | cons c t ih =>
    obtain ⟨i, x⟩ := c
    by_cases hi : i = k
    · subst hi; simp [cellRead, Ne.symm h, ih]
    · simp [hi, cellRead, ih]

theorem cellRead_absent (cs : List Host.Cell) (k : Nat) (h : ∀ c ∈ cs, c.1 ≠ k) : cellRead cs k = 0 := by
  induction cs with
  | nil => rfl
  | cons c t ih =>
    obtain ⟨i, x⟩ := c
    have hi : i ≠ k := h (i, x) (by simp)
    simp [cellRead, hi, ih (fun c hc => h c (by simp [hc]))]

/-- Reading the byte just written, in any list of cells. -/
@[simp] theorem cellRead_cellWrite_same (cs : List Host.Cell) (k : Nat) (v : Byte) :
    cellRead (cellWrite cs k v) k = v := by
  have hne : ∀ c ∈ cs.filter (fun c => c.1 != k), c.1 ≠ k := by simp
  unfold cellWrite
  by_cases hv : v = 0
  · rw [if_pos hv, cellRead_absent _ _ hne, hv]
  · rw [if_neg hv, cellRead_cellInsert_same _ _ _ hne]

/-- A write leaves every other byte alone. -/
theorem cellRead_cellWrite_ne (cs : List Host.Cell) (k j : Nat) (v : Byte) (h : j ≠ k) :
    cellRead (cellWrite cs k v) j = cellRead cs j := by
  unfold cellWrite
  by_cases hv : v = 0
  · rw [if_pos hv, cellRead_erase_ne _ _ _ h]
  · rw [if_neg hv, cellRead_cellInsert_ne _ _ _ _ h, cellRead_erase_ne _ _ _ h]

/-! The canonical form -/

theorem mem_cellInsert (cs : List Host.Cell) (k : Nat) (v : Byte) (c : Host.Cell) :
    c ∈ cellInsert cs k v ↔ c = (k, v) ∨ c ∈ cs := by
  induction cs with
  | nil => simp [cellInsert]
  | cons d t ih =>
    obtain ⟨i, x⟩ := d
    by_cases hk : k < i <;> simp [cellInsert, hk, ih]
    tauto

theorem pairwise_cellInsert (cs : List Host.Cell) (k : Nat) (v : Byte)
    (h : cs.Pairwise (fun x y => x.1 < y.1)) (hne : ∀ c ∈ cs, c.1 ≠ k) :
    (cellInsert cs k v).Pairwise (fun x y => x.1 < y.1) := by
  induction cs with
  | nil => simp [cellInsert]
  | cons d t ih =>
    obtain ⟨i, x⟩ := d
    obtain ⟨hd, ht⟩ := List.pairwise_cons.mp h
    have hi : i ≠ k := hne (i, x) (by simp)
    by_cases hk : k < i
    · simp only [cellInsert, hk, if_true, List.pairwise_cons]
      refine ⟨fun c hc => ?_, hd, ht⟩
      rcases List.mem_cons.mp hc with rfl | hc
      · exact hk
      · exact lt_trans hk (hd c hc)
    · simp only [cellInsert, hk, if_false, List.pairwise_cons]
      refine ⟨fun c hc => ?_, ih ht (fun c hc => hne c (by simp [hc]))⟩
      rcases (mem_cellInsert _ _ _ _).mp hc with rfl | hc
      · simp only; omega
      · exact hd c hc

/-- Every byte write inside the memory keeps the canonical form. -/
theorem cellWrite_wf (m : Memory) (k : Nat) (v : Byte) (h : m.wf) (hk : k < 4 * m.n) :
    ({ m with cells := cellWrite m.cells k v } : Memory).wf := by
  obtain ⟨hp, hc⟩ := h
  have hp' := hp.filter (fun c => c.1 != k)
  have hc' : ∀ c ∈ m.cells.filter (fun c => c.1 != k), c.2 ≠ 0 ∧ c.1 < 4 * m.n := fun c h =>
    hc c (List.mem_of_mem_filter h)
  have hne : ∀ c ∈ m.cells.filter (fun c => c.1 != k), c.1 ≠ k := by simp
  by_cases hv : v = 0
  · simp only [Memory.wf, cellWrite, hv, if_true]; exact ⟨hp', hc'⟩
  · simp only [Memory.wf, cellWrite, hv, if_false]
    refine ⟨pairwise_cellInsert _ _ _ hp' hne, fun c h => ?_⟩
    rcases (mem_cellInsert _ _ _ _).mp h with rfl | h
    · exact ⟨hv, hk⟩
    · exact hc' c h

/-! Words of memory -/

theorem memSetWord_cells (m : Memory) (k : Nat) (v : Word) :
    (memSetWord m k v).cells =
      cellWrite (cellWrite (cellWrite (cellWrite m.cells (4 * k) (v.extractLsb' 0 8)) (4 * k + 1)
        (v.extractLsb' 8 8)) (4 * k + 2) (v.extractLsb' 16 8)) (4 * k + 3) (v.extractLsb' 24 8) := rfl

@[simp] theorem memSetWord_n (m : Memory) (k : Nat) (v : Word) : (memSetWord m k v).n = m.n := rfl
@[simp] theorem memSetWord_off (m : Memory) (k : Nat) (v : Word) : (memSetWord m k v).off = m.off := rfl

/-- A word is its four bytes, byte lane `j` in bits `8j+7 : 8j` (20_memory.md R55). -/
theorem word_of_bytes (v : Word) :
    (v.extractLsb' 24 8 ++ v.extractLsb' 16 8 ++ v.extractLsb' 8 8 ++ v.extractLsb' 0 8 : Word) = v := by
  ext i hi
  simp only [BitVec.getElem_append, BitVec.getElem_extractLsb']
  split_ifs <;> simp only [← BitVec.getLsbD_eq_getElem] <;> congr 1 <;> omega

@[simp] theorem memWord_memSetWord_same (m : Memory) (k : Nat) (v : Word) :
    memWord (memSetWord m k v) k = v := by
  unfold memWord
  rw [memSetWord_cells]
  rw [cellRead_cellWrite_same]
  repeat rw [cellRead_cellWrite_ne (h := by omega)]
  rw [cellRead_cellWrite_same]
  repeat rw [cellRead_cellWrite_ne (h := by omega)]
  rw [cellRead_cellWrite_same]
  repeat rw [cellRead_cellWrite_ne (h := by omega)]
  rw [cellRead_cellWrite_same]
  exact word_of_bytes v

theorem memWord_memSetWord_ne (m : Memory) (k j : Nat) (v : Word) (h : j ≠ k) :
    memWord (memSetWord m k v) j = memWord m j := by
  unfold memWord
  rw [memSetWord_cells]
  repeat rw [cellRead_cellWrite_ne (h := by omega)]

theorem memSetWord_wf (m : Memory) (k : Nat) (v : Word) (h : m.wf) (hk : k < m.n) :
    (memSetWord m k v).wf := by
  have h0 := cellWrite_wf m (4 * k) (v.extractLsb' 0 8) h (by omega)
  have h1 := cellWrite_wf _ (4 * k + 1) (v.extractLsb' 8 8) h0 (by simp only; omega)
  have h2 := cellWrite_wf _ (4 * k + 2) (v.extractLsb' 16 8) h1 (by simp only; omega)
  exact cellWrite_wf _ (4 * k + 3) (v.extractLsb' 24 8) h2 (by simp only; omega)

/-- Two canonical memories that read alike are the same cells: equal memories are equal data. -/
theorem cells_ext {cs ds : List Host.Cell}
    (hc : cs.Pairwise (fun x y => x.1 < y.1)) (hd : ds.Pairwise (fun x y => x.1 < y.1))
    (zc : ∀ c ∈ cs, c.2 ≠ 0) (zd : ∀ c ∈ ds, c.2 ≠ 0)
    (h : ∀ k, cellRead cs k = cellRead ds k) : cs = ds := by
  induction cs generalizing ds with
  | nil =>
    cases ds with
    | nil => rfl
    | cons d t =>
      obtain ⟨i, x⟩ := d
      have := h i
      simp [cellRead] at this
      exact absurd this.symm (zd (i, x) (by simp))
  | cons c t ih =>
    obtain ⟨i, x⟩ := c
    obtain ⟨hci, hct⟩ := List.pairwise_cons.mp hc
    have absent : ∀ (us : List Host.Cell) (k : Nat), (∀ u ∈ us, k < u.1) → cellRead us k = 0 := fun us k hu =>
      cellRead_absent us k fun u m e => by have := hu u m; omega
    cases ds with
    | nil =>
      have := h i
      simp [cellRead] at this
      exact absurd this (zc (i, x) (by simp))
    | cons d u =>
      obtain ⟨j, y⟩ := d
      obtain ⟨hdj, hdu⟩ := List.pairwise_cons.mp hd
      have hx : x ≠ 0 := zc (i, x) (by simp)
      have hy : y ≠ 0 := zd (j, y) (by simp)
      have hij : i = j := by
        rcases Nat.lt_trichotomy i j with hl | he | hg
        · have := h i
          rw [absent ((j, y) :: u) i (by
            intro w hw; rcases List.mem_cons.mp hw with rfl | hw
            · exact hl
            · exact lt_trans hl (hdj w hw))] at this
          simp [cellRead] at this
          exact absurd this hx
        · exact he
        · have := h j
          rw [absent ((i, x) :: t) j (by
            intro w hw; rcases List.mem_cons.mp hw with rfl | hw
            · exact hg
            · exact lt_trans hg (hci w hw))] at this
          simp [cellRead] at this
          exact absurd this.symm hy
      subst hij
      have hxy : x = y := by simpa [cellRead] using h i
      subst hxy
      congr 1
      refine ih hct hdu (fun c m => zc c (by simp [m])) (fun c m => zd c (by simp [m])) fun k => ?_
      by_cases hk : i = k
      · subst hk; rw [absent t i hci, absent u i hdj]
      · simpa [cellRead, hk] using h k

end Sys2Proof.Machine
end

