-- ==== Sys2Proof/Laws/Banks.lean ====
section
/-! SUPPORT. Sequencing, and what each operation on a bank reads and writes, said once. -/

namespace Sys2Proof.Machine

/-! Sequencing -/

@[simp] theorem andThen_next {α β : Type} (a : α) (f : α → Res β) : andThen (.next a) f = f a := rfl
@[simp] theorem andThen_fault {α β : Type} (r : Fault) (f : α → Res β) : andThen (.fault r) f = .fault r := rfl
@[simp] theorem andThen_refused {α β : Type} (r : Refusal) (f : α → Res β) :
    andThen (.refused r) f = .refused r := rfl
@[simp] theorem unlessFault_none {α : Type} (x : Res α) : unlessFault none x = x := rfl
@[simp] theorem unlessFault_some {α : Type} (r : Fault) (x : Res α) : unlessFault (some r) x = .fault r := rfl

/-- If a sequence completes, its first part completed and the rest completed from there. -/
theorem andThen_eq_next {α β : Type} {x : Res α} {f : α → Res β} {b : β} :
    andThen x f = .next b ↔ ∃ a, x = .next a ∧ f a = .next b := by
  cases x <;> simp

theorem unlessFault_eq_next {α : Type} {c : Option Fault} {x : Res α} {a : α} :
    unlessFault c x = .next a ↔ c = none ∧ x = .next a := by
  cases c <;> simp

theorem andThen_assoc {α β γ : Type} (x : Res α) (f : α → Res β) (g : β → Res γ) :
    andThen (andThen x f) g = andThen x fun a => andThen (f a) g := by
  cases x <;> rfl

@[simp] theorem complete_eq_next {a : Answer} {s t : State} :
    complete a s = .next t ↔ t = setAnswer a s := by
  simp [complete, eq_comm]

/-! What a bank is does not depend on the other fields -/

theorem bankSize_congr {s t : State} (h : SameBanks s t) (b : Bank) : bankSize b t = bankSize b s := by
  obtain ⟨h1, h2, h3, h4⟩ := h
  cases b <;> simp [bankSize, h4]

theorem bankOff_congr {s t : State} (h : SameBanks s t) (b : Bank) : bankOff b t = bankOff b s := by
  obtain ⟨h1, h2, h3, h4⟩ := h
  cases b <;> simp [bankOff, h1, h2, h3, h4]

theorem slotWord_congr {s t : State} (h : SameBanks s t) (b : Bank) (k : Nat) :
    slotWord b k t = slotWord b k s := by
  obtain ⟨h1, h2, h3, h4⟩ := h
  cases b <;> simp [slotWord, h1, h2, h3, h4]

theorem inRange_congr {s t : State} (h : SameBanks s t) (b : Bank) (i : Int) :
    inRange b i t = inRange b i s := by
  simp [inRange, bankSize_congr h, bankOff_congr h]

theorem wordAt_congr {s t : State} (h : SameBanks s t) (b : Bank) (i : Int) : wordAt b i t = wordAt b i s := by
  simp [wordAt, slotOf, slotWord_congr h, bankOff_congr h]

theorem peek_congr {s t : State} (h : SameBanks s t) (b : Bank) (i : Int) : peek b i t = peek b i s := by
  simp [peek, inRange_congr h, wordAt_congr h]

theorem byteAt_congr {s t : State} (h : SameBanks s t) (a : Nat) : byteAt a t = byteAt a s := by
  simp [byteAt, inRange_congr h, wordAt_congr h]

theorem SameBanks.refl (s : State) : SameBanks s s := ⟨rfl, rfl, rfl, rfl⟩

theorem SameBanks.trans {s t u : State} (h : SameBanks s t) (g : SameBanks t u) : SameBanks s u :=
  ⟨g.1.trans h.1, g.2.1.trans h.2.1, g.2.2.1.trans h.2.2.1, g.2.2.2.trans h.2.2.2⟩

theorem SameContext.refl (s : State) : SameContext s s := ⟨rfl, rfl, rfl, rfl⟩

theorem SameContext.trans {s t u : State} (h : SameContext s t) (g : SameContext t u) : SameContext s u :=
  ⟨g.1.trans h.1, g.2.1.trans h.2.1, g.2.2.1.trans h.2.2.1, g.2.2.2.trans h.2.2.2⟩

theorem SameBanks.symm {s t : State} (h : SameBanks s t) : SameBanks t s :=
  ⟨h.1.symm, h.2.1.symm, h.2.2.1.symm, h.2.2.2.symm⟩

theorem sameBanks_emit (e : Event) (s : State) : SameBanks s (emit e s) := ⟨rfl, rfl, rfl, rfl⟩
theorem sameBanks_emitAll (es : List Event) (s : State) : SameBanks s (emitAll es s) := ⟨rfl, rfl, rfl, rfl⟩
theorem sameBanks_setAnswer (a : Answer) (s : State) : SameBanks s (setAnswer a s) := ⟨rfl, rfl, rfl, rfl⟩
theorem sameBanks_setCtl (c : CtlState) (s : State) : SameBanks s (setCtl c s) := ⟨rfl, rfl, rfl, rfl⟩
theorem sameBanks_diagnose (k : Cause) (i : DiagInfo) (s : State) : SameBanks s (diagnose k i s) :=
  ⟨rfl, rfl, rfl, rfl⟩
theorem sameBanks_beginCommand (s : State) : SameBanks s (beginCommand s) := ⟨rfl, rfl, rfl, rfl⟩
theorem sameBanks_inCommand (s : State) : SameBanks s (inCommand s) := ⟨rfl, rfl, rfl, rfl⟩
theorem sameBanks_afterCommand (s : State) : SameBanks s (afterCommand s) := ⟨rfl, rfl, rfl, rfl⟩

@[simp] theorem bankSize_emit (b : Bank) (e : Event) (s : State) : bankSize b (emit e s) = bankSize b s :=
  bankSize_congr (sameBanks_emit e s) b
@[simp] theorem bankSize_emitAll (b : Bank) (es : List Event) (s : State) :
    bankSize b (emitAll es s) = bankSize b s := bankSize_congr (sameBanks_emitAll es s) b
@[simp] theorem bankOff_emit (b : Bank) (e : Event) (s : State) : bankOff b (emit e s) = bankOff b s :=
  bankOff_congr (sameBanks_emit e s) b
@[simp] theorem bankOff_emitAll (b : Bank) (es : List Event) (s : State) :
    bankOff b (emitAll es s) = bankOff b s := bankOff_congr (sameBanks_emitAll es s) b
@[simp] theorem slotWord_emit (b : Bank) (k : Nat) (e : Event) (s : State) :
    slotWord b k (emit e s) = slotWord b k s := slotWord_congr (sameBanks_emit e s) b k
@[simp] theorem slotWord_emitAll (b : Bank) (k : Nat) (es : List Event) (s : State) :
    slotWord b k (emitAll es s) = slotWord b k s := slotWord_congr (sameBanks_emitAll es s) b k
@[simp] theorem inRange_emit (b : Bank) (i : Int) (e : Event) (s : State) :
    inRange b i (emit e s) = inRange b i s := inRange_congr (sameBanks_emit e s) b i
@[simp] theorem inRange_emitAll (b : Bank) (i : Int) (es : List Event) (s : State) :
    inRange b i (emitAll es s) = inRange b i s := inRange_congr (sameBanks_emitAll es s) b i
@[simp] theorem wordAt_emit (b : Bank) (i : Int) (e : Event) (s : State) :
    wordAt b i (emit e s) = wordAt b i s := wordAt_congr (sameBanks_emit e s) b i
@[simp] theorem wordAt_emitAll (b : Bank) (i : Int) (es : List Event) (s : State) :
    wordAt b i (emitAll es s) = wordAt b i s := wordAt_congr (sameBanks_emitAll es s) b i
@[simp] theorem peek_emit (b : Bank) (i : Int) (e : Event) (s : State) :
    peek b i (emit e s) = peek b i s := peek_congr (sameBanks_emit e s) b i
@[simp] theorem peek_emitAll (b : Bank) (i : Int) (es : List Event) (s : State) :
    peek b i (emitAll es s) = peek b i s := peek_congr (sameBanks_emitAll es s) b i

@[simp] theorem bankSize_setAnswer (b : Bank) (a : Answer) (s : State) :
    bankSize b (setAnswer a s) = bankSize b s := bankSize_congr (sameBanks_setAnswer a s) b
@[simp] theorem bankOff_setAnswer (b : Bank) (a : Answer) (s : State) :
    bankOff b (setAnswer a s) = bankOff b s := bankOff_congr (sameBanks_setAnswer a s) b
@[simp] theorem slotWord_setAnswer (b : Bank) (k : Nat) (a : Answer) (s : State) :
    slotWord b k (setAnswer a s) = slotWord b k s := slotWord_congr (sameBanks_setAnswer a s) b k
@[simp] theorem inRange_setAnswer (b : Bank) (i : Int) (a : Answer) (s : State) :
    inRange b i (setAnswer a s) = inRange b i s := inRange_congr (sameBanks_setAnswer a s) b i
@[simp] theorem wordAt_setAnswer (b : Bank) (i : Int) (a : Answer) (s : State) :
    wordAt b i (setAnswer a s) = wordAt b i s := wordAt_congr (sameBanks_setAnswer a s) b i
@[simp] theorem peek_setAnswer (b : Bank) (i : Int) (a : Answer) (s : State) :
    peek b i (setAnswer a s) = peek b i s := peek_congr (sameBanks_setAnswer a s) b i
@[simp] theorem byteAt_setAnswer (x : Nat) (a : Answer) (s : State) :
    byteAt x (setAnswer a s) = byteAt x s := byteAt_congr (sameBanks_setAnswer a s) x
@[simp] theorem bankSize_setCtl (b : Bank) (a : CtlState) (s : State) :
    bankSize b (setCtl a s) = bankSize b s := bankSize_congr (sameBanks_setCtl a s) b
@[simp] theorem bankOff_setCtl (b : Bank) (a : CtlState) (s : State) :
    bankOff b (setCtl a s) = bankOff b s := bankOff_congr (sameBanks_setCtl a s) b
@[simp] theorem slotWord_setCtl (b : Bank) (k : Nat) (a : CtlState) (s : State) :
    slotWord b k (setCtl a s) = slotWord b k s := slotWord_congr (sameBanks_setCtl a s) b k
@[simp] theorem inRange_setCtl (b : Bank) (i : Int) (a : CtlState) (s : State) :
    inRange b i (setCtl a s) = inRange b i s := inRange_congr (sameBanks_setCtl a s) b i
@[simp] theorem wordAt_setCtl (b : Bank) (i : Int) (a : CtlState) (s : State) :
    wordAt b i (setCtl a s) = wordAt b i s := wordAt_congr (sameBanks_setCtl a s) b i
@[simp] theorem peek_setCtl (b : Bank) (i : Int) (a : CtlState) (s : State) :
    peek b i (setCtl a s) = peek b i s := peek_congr (sameBanks_setCtl a s) b i
@[simp] theorem byteAt_setCtl (x : Nat) (a : CtlState) (s : State) :
    byteAt x (setCtl a s) = byteAt x s := byteAt_congr (sameBanks_setCtl a s) x
@[simp] theorem byteAt_emitAll (x : Nat) (es : List Event) (s : State) :
    byteAt x (emitAll es s) = byteAt x s := byteAt_congr (sameBanks_emitAll es s) x

/-! Slots -/

@[simp] theorem bankSize_setSlot (b b' : Bank) (k : Nat) (v : Word) (s : State) :
    bankSize b' (setSlot b k v s) = bankSize b' s := by cases b <;> cases b' <;> rfl
@[simp] theorem bankOff_setSlot (b b' : Bank) (k : Nat) (v : Word) (s : State) :
    bankOff b' (setSlot b k v s) = bankOff b' s := by cases b <;> cases b' <;> rfl
@[simp] theorem inRange_setSlot (b b' : Bank) (k : Nat) (i : Int) (v : Word) (s : State) :
    inRange b' i (setSlot b k v s) = inRange b' i s := by simp [inRange]

theorem slotWord_setSlot_same (b : Bank) (k : Nat) (v : Word) (s : State) (h : k < bankSize b s) :
    slotWord b k (setSlot b k v s) = v := by
  cases b <;> simp_all [slotWord, setSlot, bankSize]

theorem slotWord_setSlot_ne (b b' : Bank) (k j : Nat) (v : Word) (s : State) (h : ¬ (b' = b ∧ j = k)) :
    slotWord b' j (setSlot b k v s) = slotWord b' j s := by
  by_cases hb : b' = b
  · subst hb
    have hj : j ≠ k := fun e => h ⟨rfl, e⟩
    cases b' <;>
      simp [slotWord, setSlot, Vector.getElem?_setIfInBounds_ne, hj.symm, memWord_memSetWord_ne _ _ _ _ hj]
  · cases b <;> cases b' <;> first | rfl | exact absurd rfl hb

/-- An index in range is its bank's offset plus the slot it names, which exists. -/
theorem slotOf_spec {b : Bank} {i : Int} {s : State} (h : inRange b i s = true) :
    bankOff b s + (slotOf b i s : Int) = i ∧ slotOf b i s < bankSize b s := by
  simp only [inRange, decide_eq_true_eq] at h
  simp only [slotOf]
  omega

theorem inRange_slot {b : Bank} {k : Nat} {s : State} (h : k < bankSize b s) :
    inRange b (bankOff b s + (k : Int)) s = true := by
  simp only [inRange, decide_eq_true_eq]; omega

theorem slotOf_slot (b : Bank) (k : Nat) (s : State) : slotOf b (bankOff b s + (k : Int)) s = k := by
  simp only [slotOf]; omega

@[simp] theorem bankSize_putWord (b b' : Bank) (i : Int) (v : Word) (s : State) :
    bankSize b' (putWord b i v s) = bankSize b' s := bankSize_setSlot ..
@[simp] theorem bankOff_putWord (b b' : Bank) (i : Int) (v : Word) (s : State) :
    bankOff b' (putWord b i v s) = bankOff b' s := bankOff_setSlot ..
@[simp] theorem inRange_putWord (b b' : Bank) (i j : Int) (v : Word) (s : State) :
    inRange b' j (putWord b i v s) = inRange b' j s := inRange_setSlot ..

theorem wordAt_putWord_same {b : Bank} {i : Int} (v : Word) {s : State} (h : inRange b i s = true) :
    wordAt b i (putWord b i v s) = v := by
  have hk := (slotOf_spec h).2
  have : slotOf b i (putWord b i v s) = slotOf b i s := by simp [slotOf]
  rw [wordAt, this]
  exact slotWord_setSlot_same b _ v s hk

theorem wordAt_putWord_ne {b b' : Bank} {i j : Int} (v : Word) {s : State} (h : inRange b i s = true)
    (hj : inRange b' j s = true) (hne : ¬ (b' = b ∧ j = i)) :
    wordAt b' j (putWord b i v s) = wordAt b' j s := by
  have : slotOf b' j (putWord b i v s) = slotOf b' j s := by simp [slotOf]
  rw [wordAt, this]
  refine slotWord_setSlot_ne _ _ _ _ _ _ ?_
  rintro ⟨rfl, e⟩
  have h1 := (slotOf_spec h).1
  have h2 := (slotOf_spec hj).1
  exact hne ⟨rfl, by rw [← h1, ← h2, e]⟩

theorem peek_putWord_same {b : Bank} {i : Int} (v : Word) {s : State} (h : inRange b i s = true) :
    peek b i (putWord b i v s) = some v := by
  simp [peek, h, wordAt_putWord_same v h]

/-- A write in range leaves what a reader finds anywhere else as it was. -/
theorem peek_putWord_ne {b b' : Bank} {i j : Int} (v : Word) {s : State} (h : inRange b i s = true)
    (hne : ¬ (b' = b ∧ j = i)) : peek b' j (putWord b i v s) = peek b' j s := by
  by_cases hj : inRange b' j s = true
  · simp [peek, hj, wordAt_putWord_ne v h hj hne]
  · simp [peek, hj]

theorem sameMap_putWord (b : Bank) (i : Int) (v : Word) (s : State) : SameMap s (putWord b i v s) :=
  fun _ => ⟨bankSize_putWord .., bankOff_putWord ..⟩

theorem frame_putWord {b : Bank} {i : Int} (v : Word) {s : State} (h : inRange b i s = true) :
    Frame (fun b' j => b' = b ∧ j = i) s (putWord b i v s) :=
  ⟨fun _ _ hne => peek_putWord_ne v h hne, sameMap_putWord b i v s, by simp [SameContext]⟩

/-! `get` and `set` -/

theorem peek_eq_some {b : Bank} {i : Int} {s : State} {v : Word} :
    peek b i s = some v ↔ inRange b i s = true ∧ wordAt b i s = v := by
  simp only [peek]; split <;> simp_all

theorem peek_eq_none {b : Bank} {i : Int} {s : State} : peek b i s = none ↔ inRange b i s = false := by
  simp only [peek]; split <;> simp_all

theorem bankGet_inRange {b : Bank} {i : Int} {s : State} (h : inRange b i s = true) :
    bankGet b i s = .next (wordAt b i s) := by simp [bankGet, indexFault, h]

theorem bankGet_outOfRange {b : Bank} {i : Int} {s : State} (h : inRange b i s = false) :
    bankGet b i s = .fault (.addressing b i) := by simp [bankGet, indexFault, h]

theorem bankSet_inRange {b : Bank} {i : Int} {s : State} (v : Word) (n : Bool) (h : inRange b i s = true) :
    bankSet b i v n s = .next (emitAll (writeEvents b i v n) (putWord b i v s)) := by
  simp [bankSet, indexFault, h]

theorem bankSet_outOfRange {b : Bank} {i : Int} {s : State} (v : Word) (n : Bool) (h : inRange b i s = false) :
    bankSet b i v n s = .fault (.addressing b i) := by simp [bankSet, indexFault, h]

/-- Everything a `get` that completes tells. -/
theorem bankGet_eq_next {b : Bank} {i : Int} {s : State} {v : Word} :
    bankGet b i s = .next v ↔ inRange b i s = true ∧ v = wordAt b i s := by
  cases h : inRange b i s
  · simp [bankGet_outOfRange h]
  · simp [bankGet_inRange h, eq_comm]

/-- Everything a `set` that completes does. -/
theorem bankSet_eq_next {b : Bank} {i : Int} {v : Word} {n : Bool} {s t : State} :
    bankSet b i v n s = .next t ↔
      inRange b i s = true ∧ t = emitAll (writeEvents b i v n) (putWord b i v s) := by
  cases h : inRange b i s
  · simp [bankSet_outOfRange v n h]
  · simp [bankSet_inRange v n h, eq_comm]

/-! Clearing, re-mapping and re-offsetting -/

@[simp] theorem bankSize_zeroBank (b b' : Bank) (s : State) : bankSize b' (zeroBank b s) = bankSize b' s := by
  cases b <;> cases b' <;> rfl
@[simp] theorem bankOff_zeroBank (b b' : Bank) (s : State) : bankOff b' (zeroBank b s) = bankOff b' s := by
  cases b <;> cases b' <;> rfl

@[simp] theorem memWord_nil (n : Nat) (o : Int) (k : Nat) : memWord { n := n, off := o, cells := [] } k = 0 := by
  simp only [memWord, cellRead]; decide

theorem replicate_getD (n k : Nat) : ((Vector.replicate n (0 : Word))[k]?).getD 0 = 0 := by
  rw [Vector.getElem?_replicate]; split <;> rfl

@[simp] theorem slotWord_zeroBank_same (b : Bank) (k : Nat) (s : State) : slotWord b k (zeroBank b s) = 0 := by
  cases b <;> simp only [slotWord, zeroBank, replicate_getD, memWord_nil]

theorem slotWord_zeroBank_ne (b b' : Bank) (k : Nat) (s : State) (h : b' ≠ b) :
    slotWord b' k (zeroBank b s) = slotWord b' k s := by
  cases b <;> cases b' <;> first | rfl | exact absurd rfl h

theorem bankSize_remapBank_same (b : Bank) (n : Nat) (o : Int) (s : State) :
    bankSize b (remapBank b n o s) = if b = .mem then n else bankSize b s := by cases b <;> rfl

theorem bankSize_remapBank_ne (b b' : Bank) (n : Nat) (o : Int) (s : State) (h : b' ≠ b) :
    bankSize b' (remapBank b n o s) = bankSize b' s := by
  cases b <;> cases b' <;> first | rfl | exact absurd rfl h

@[simp] theorem bankOff_remapBank_same (b : Bank) (n : Nat) (o : Int) (s : State) :
    bankOff b (remapBank b n o s) = o := by cases b <;> rfl

theorem bankOff_remapBank_ne (b b' : Bank) (n : Nat) (o : Int) (s : State) (h : b' ≠ b) :
    bankOff b' (remapBank b n o s) = bankOff b' s := by
  cases b <;> cases b' <;> first | rfl | exact absurd rfl h

@[simp] theorem slotWord_remapBank_same (b : Bank) (n k : Nat) (o : Int) (s : State) :
    slotWord b k (remapBank b n o s) = 0 := by
  cases b <;> simp only [slotWord, remapBank, replicate_getD, memWord_nil]

theorem slotWord_remapBank_ne (b b' : Bank) (n k : Nat) (o : Int) (s : State) (h : b' ≠ b) :
    slotWord b' k (remapBank b n o s) = slotWord b' k s := by
  cases b <;> cases b' <;> first | rfl | exact absurd rfl h

@[simp] theorem bankOff_setOffset_same (b : Bank) (o : Int) (s : State) : bankOff b (setOffset b o s) = o := by
  cases b <;> rfl

theorem bankOff_setOffset_ne (b b' : Bank) (o : Int) (s : State) (h : b' ≠ b) :
    bankOff b' (setOffset b o s) = bankOff b' s := by
  cases b <;> cases b' <;> first | rfl | exact absurd rfl h

@[simp] theorem bankSize_setOffset (b b' : Bank) (o : Int) (s : State) :
    bankSize b' (setOffset b o s) = bankSize b' s := by cases b <;> cases b' <;> rfl

@[simp] theorem slotWord_setOffset (b b' : Bank) (k : Nat) (o : Int) (s : State) :
    slotWord b' k (setOffset b o s) = slotWord b' k s := by cases b <;> cases b' <;> rfl

/-- Words are read alike where the slots, the size and the offset of a bank are alike. -/
theorem peek_of_slots {b : Bank} {s t : State} (hn : bankSize b t = bankSize b s)
    (ho : bankOff b t = bankOff b s) (hw : ∀ k, k < bankSize b s → slotWord b k t = slotWord b k s) (i : Int) :
    peek b i t = peek b i s := by
  have hr : inRange b i t = inRange b i s := by simp [inRange, hn, ho]
  by_cases h : inRange b i s = true
  · have hs : slotOf b i t = slotOf b i s := by simp [slotOf, ho]
    simp [peek, hr, h, wordAt, hs, hw _ (slotOf_spec h).2]
  · simp [peek, hr, h]

/-! A word write and the bytes -/

theorem bankEvents_mem (s : State) (n : Bool) :
    bankEvents .mem n s = if n then (List.range s.mem.n).map (fun k =>
      Event.valueChanged .mem (s.mem.off + (k : Nat)) (memWord s.mem k) .mem) else [] := by
  cases n
  · rfl
  · simp [bankEvents, writeEvents, bankSize, bankOff, slotWord, bankComponent]
    induction List.range s.mem.n with
    | nil => rfl
    | cons a t ih => simp [ih]

end Sys2Proof.Machine
end

