-- ==== Sys2Proof/Laws/Changes.lean ====
section
/-! SUPPORT. Said once: all that an operation, an effect or a command can do to a state, as a chain of
primitive changes. Every whole-machine rule is then a fact about the primitive changes. -/

namespace Sys2Proof.Machine

/-- The primitive changes. None touches the controller, the program or the host's queue. -/
inductive Change : State → State → Prop where
  | emits (es : List Event) (s : State) : Change s (emitAll es s)
  | answers (a : Answer) (s : State) : Change s (setAnswer a s)
  | slot (b : Bank) (k : Nat) (v : Word) (s : State) (h : k < bankSize b s) : Change s (setSlot b k v s)
  | offset (b : Bank) (o : Int) (s : State) : Change s (setOffset b o s)
  | zero (b : Bank) (s : State) : Change s (zeroBank b s)
  | remap (b : Bank) (n : Nat) (o : Int) (s : State) (h : b = .mem → n ≤ Config.memMaxWords ∨ n = bankSize .mem s) :
      Change s (remapBank b n o s)

/-- A chain of primitive changes. -/
abbrev Changes := Relation.ReflTransGen Change

theorem changes_emitAll (es : List Event) {s t : State} (h : Changes s t) : Changes s (emitAll es t) :=
  h.tail (.emits es t)

theorem changes_emit (e : Event) {s t : State} (h : Changes s t) : Changes s (emit e t) :=
  h.tail (.emits [e] t)

theorem changes_answer (a : Answer) {s t : State} (h : Changes s t) : Changes s (setAnswer a t) :=
  h.tail (.answers a t)

theorem changes_complete {a : Answer} {s t u : State} (h : Changes s t) (hu : complete a t = .next u) :
    Changes s u := by
  rw [complete_eq_next] at hu; subst hu; exact changes_answer a h

theorem changes_bankSet {b : Bank} {i : Int} {v : Word} {n : Bool} {s t : State}
    (h : bankSet b i v n s = .next t) : Changes s t := by
  obtain ⟨hr, rfl⟩ := bankSet_eq_next.mp h
  exact changes_emitAll _ (.single (.slot b _ v s (slotOf_spec hr).2))

theorem changes_bankClear (b : Bank) (n : Bool) (s : State) : Changes s (bankClear b n s) :=
  changes_emitAll _ (.single (.zero b s))

theorem changes_writeWord {a : Nat} {v : Word} {s t : State} (h : writeWord a v s = .next t) : Changes s t := by
  unfold writeWord at h
  split at h
  · exact changes_bankSet h
  · simp only [andThen_eq_next] at h
    obtain ⟨lo, -, hi, -, u, h1, h2⟩ := h
    exact (changes_bankSet h1).trans (changes_bankSet h2)

theorem changes_remapMemory (k : Nat) (o : Int) (n m : Bool) (s : State)
    (h : k ≤ Config.memMaxWords ∨ k = bankSize .mem s) : Changes s (remapMemory k o n m s) := by
  have h0 : Changes s (remapBank .mem k o s) := .single (.remap .mem k o s fun _ => h)
  simp only [remapMemory]
  cases n
  · exact h0.trans (changes_bankClear _ _ _)
  · exact (changes_emit _ h0).trans (changes_bankClear _ _ _)

/-- What `loadFault` finding nothing says (40_wordstorage_ops.md R105). -/
theorem loadFault_eq_none {b : Bank} {p : SparseMap} {s : State} : loadFault b p s = none ↔ LoadOk b p s := by
  unfold loadFault LoadOk
  have hl : legalSize (loadSize b p s) = true ↔
      0 ≤ loadSize b p s ∧ loadSize b p s ≤ Config.memMaxWords := by
    simp only [legalSize, Bool.and_eq_true, decide_eq_true_eq]; omega
  by_cases hb : b = .mem
  · by_cases hs : legalSize (loadSize b p s) = true
    · simp [hb, hb ▸ hs, hb ▸ hl.mp hs]
    · rw [if_pos ⟨hb, hs⟩]
      have := mt hl.mpr hs
      simp only [reduceCtorEq, false_iff]
      exact fun h => this (h.1 hb)
  · simp [hb]

theorem loadSize_toNat_mem {p : SparseMap} {s : State} (h : LoadOk .mem p s) :
    (loadSize .mem p s).toNat ≤ Config.memMaxWords := by
  have := h.1 rfl; omega

/-- The size a bank has while a map is loaded into it. -/
theorem bankSize_remap_load (b : Bank) (p : SparseMap) (o : Int) (s : State) :
    bankSize b (remapBank b (loadSize b p s).toNat o s) = (loadSize b p s).toNat := by
  rw [bankSize_remapBank_same]; cases b <;> simp [loadSize]

theorem changes_loadEntries (b : Bank) (o : Int) (es : List (Int × Word)) (s : State)
    (h : ∀ x ∈ es, (x.1 - o).toNat < bankSize b s) : Changes s (loadEntries b o es s) := by
  induction es generalizing s with
  | nil => exact .refl
  | cons x t ih =>
    have h1 : Changes s (setSlot b (x.1 - o).toNat x.2 s) := .single (.slot b _ _ s (h x (by simp)))
    exact h1.trans (ih _ fun y hy => by simpa using h y (by simp [hy]))

theorem changes_loadMap {b : Bank} {p : SparseMap} {s : State} (h : LoadOk b p s) :
    Changes s (loadMap b p s) := by
  have h0 : Changes s (remapBank b (loadSize b p s).toNat (p.offsetW.getD 0) s) :=
    .single (.remap b _ _ s fun hb => .inl (by subst hb; exact loadSize_toNat_mem h))
  have h1 := h0.trans (changes_loadEntries b (p.offsetW.getD 0) p.entries _ (by
    intro x hx
    rw [bankSize_remap_load]
    have := h.2 x hx
    omega))
  simp only [loadMap]
  split
  · exact changes_emitAll _ (changes_emit _ h1)
  · exact changes_emitAll _ h1

theorem loadSize_congr {b : Bank} {p : SparseMap} {s t : State} (h : b ≠ .mem) :
    loadSize b p t = loadSize b p s := by cases b <;> simp_all [loadSize, bankSize]

theorem loadOk_congr {b : Bank} {p : SparseMap} (s t : State) : LoadOk b p t ↔ LoadOk b p s := by
  have : loadSize b p t = loadSize b p s := by cases b <;> rfl
  simp only [LoadOk, this]

theorem restoreFault_eq_none {p : Snapshot} {s : State} :
    restoreFault p s = none ↔ ∀ x ∈ snapshotMaps p, LoadOk x.1 x.2 s := by
  simp only [restoreFault, List.findSome?_eq_none_iff, loadFault_eq_none]

theorem changes_restore {p : Snapshot} {s : State} (h : restoreFault p s = none) : Changes s (restore p s) := by
  rw [restoreFault_eq_none] at h
  have key : ∀ (l : List (Bank × SparseMap)) (u : State), (∀ x ∈ l, LoadOk x.1 x.2 s) →
      Changes u (l.foldl (fun t x => loadMap x.1 x.2 t) u) := by
    intro l
    induction l with
    | nil => intro u _; exact .refl
    | cons x t ih =>
      intro u hl
      exact (changes_loadMap ((loadOk_congr s u).mpr (hl x (by simp)))).trans
        (ih _ fun y hy => hl y (by simp [hy]))
  exact key _ s h

theorem changes_msRest {p : Snapshot} {s t : State} (h : execMsRest p s = .next t) : Changes s t := by
  simp only [execMsRest, unlessFault_eq_next] at h
  exact changes_complete (changes_restore h.1) h.2

/-- Every operation an effect may issue is a chain of primitive changes. -/
theorem changes_execOperation {i : Instr} {s t : State} (h : execOperation i s = .next t) : Changes s t := by
  cases i with
  | wsGet b a =>
    simp only [execOperation, execWsGet, andThen_eq_next] at h
    obtain ⟨v, -, h⟩ := h
    exact changes_complete .refl h
  | wsSet b a d n =>
    simp only [execOperation, execWsSet, andThen_eq_next] at h
    obtain ⟨u, hu, h⟩ := h
    exact changes_complete (changes_bankSet hu) h
  | wsClear b n => exact changes_complete (changes_bankClear b n s) h
  | wsSetoff b a => exact changes_complete (.single (.offset _ _ s)) h
  | wsSer b => exact changes_complete .refl h
  | wsDeser b p =>
    simp only [execOperation, execWsDeser, unlessFault_eq_next, loadFault_eq_none] at h
    exact changes_complete (changes_loadMap h.1) h.2
  | wsRecv b r a d =>
    simp only [execOperation, execWsRecv] at h
    split at h
    · exact changes_complete .refl h
    · obtain ⟨u, hu, h⟩ := andThen_eq_next.mp h
      exact changes_complete (changes_bankSet hu) h
  | vGetq r => exact changes_complete .refl (unlessFault_eq_next.mp h).2
  | vSetq r d n =>
    obtain ⟨-, h⟩ := unlessFault_eq_next.mp h
    simp only [andThen_eq_next] at h
    obtain ⟨s0, h0, s1, h1, s2, h2, s3, h3, h⟩ := h
    exact changes_complete ((((changes_bankSet h0).trans (changes_bankSet h1)).trans
      (changes_bankSet h2)).trans (changes_bankSet h3)) h
  | vGetd r => exact changes_complete .refl (unlessFault_eq_next.mp h).2
  | vSetd r d n =>
    obtain ⟨-, h⟩ := unlessFault_eq_next.mp h
    simp only [andThen_eq_next] at h
    obtain ⟨s0, h0, s1, h1, h⟩ := h
    exact changes_complete ((changes_bankSet h0).trans (changes_bankSet h1)) h
  | vGete c w r e => exact changes_complete .refl (unlessFault_eq_next.mp h).2
  | vSete c w r e d =>
    obtain ⟨-, h⟩ := unlessFault_eq_next.mp h
    obtain ⟨u, hu, h⟩ := andThen_eq_next.mp h
    exact changes_complete (changes_bankSet hu) h
  | mRdw a =>
    obtain ⟨v, -, h⟩ := andThen_eq_next.mp h
    exact changes_complete .refl h
  | mWrw a d =>
    obtain ⟨u, hu, h⟩ := andThen_eq_next.mp h
    exact changes_complete (changes_writeWord hu) h
  | mRdv w a =>
    obtain ⟨v, -, h⟩ := andThen_eq_next.mp h
    exact changes_complete .refl h
  | mWrv w a d =>
    obtain ⟨u, hu, h⟩ := andThen_eq_next.mp h
    obtain ⟨-, hu⟩ := unlessFault_eq_next.mp hu
    obtain ⟨x, -, hu⟩ := andThen_eq_next.mp hu
    exact changes_complete (changes_writeWord hu) h
  | mResize a n m =>
    simp only [execOperation, execMResize] at h
    split at h
    · exact changes_complete .refl h
    · split at h
      · rename_i hl
        simp only [legalSize, Bool.and_eq_true, decide_eq_true_eq] at hl
        exact changes_complete (changes_remapMemory _ _ _ _ _ (.inl hl.2)) h
      · cases h
  | mSetoff a n m =>
    simp only [execOperation, execMSetoff] at h
    split at h
    · exact changes_complete .refl h
    · exact changes_complete (changes_remapMemory _ _ _ _ _ (.inr rfl)) h
  | pcGet =>
    obtain ⟨v, -, h⟩ := andThen_eq_next.mp h
    exact changes_complete .refl h
  | pcSet a =>
    obtain ⟨u, hu, h⟩ := andThen_eq_next.mp h
    exact changes_complete (changes_bankSet hu) h
  | pcAdv =>
    obtain ⟨v, -, h⟩ := andThen_eq_next.mp h
    obtain ⟨u, hu, h⟩ := andThen_eq_next.mp h
    exact changes_complete (changes_bankSet hu) h
  | msSnap => exact changes_complete .refl h
  | msRest p => exact changes_msRest h
  | msHilite b a d => exact changes_complete (changes_emit _ .refl) h
  | step => cases h
  | runbp => cases h
  | runend => cases h
  | rstx => cases h
  | rstm => cases h

/-- Every effect is a chain of primitive changes. -/
theorem changes_runEffect {e : Effect} {ts : List Answer} {s t : State} (h : runEffect e ts s = .next t) :
    Changes s t := by
  induction e generalizing ts s with
  | done => cases h; exact .refl
  | act x e ih =>
    obtain ⟨u, hu, h⟩ := andThen_eq_next.mp h
    exact (changes_execOperation hu).trans (ih h)
  | branch c e f ihe ihf =>
    simp only [runEffect] at h
    split at h
    · exact ihe h
    · exact ihf h

theorem changes_stepCore {s : State} {x : Bool × State} (h : stepCore s = .next x) : Changes s x.2 := by
  obtain ⟨p, -, h⟩ := andThen_eq_next.mp h
  split at h
  · cases h; exact changes_emit _ .refl
  · obtain ⟨u, hu, h⟩ := andThen_eq_next.mp h
    cases h; exact changes_runEffect hu

theorem changes_wrapPc {s t : State} (h : wrapPc s = .next t) : Changes s t := by
  obtain ⟨p, -, h⟩ := andThen_eq_next.mp h
  split at h
  · exact changes_bankSet h
  · cases h; exact .refl

theorem changes_runbpLoop {f : Nat} {s t : State} (h : runbpLoop f s = .next t) : Changes s t := by
  induction f generalizing s with
  | zero => cases h
  | succ f ih =>
    obtain ⟨old, -, h⟩ := andThen_eq_next.mp h
    obtain ⟨x, hx, h⟩ := andThen_eq_next.mp h
    obtain ⟨new, -, h⟩ := andThen_eq_next.mp h
    split at h
    · cases h; exact changes_stepCore hx
    · exact (changes_stepCore hx).trans (ih h)

theorem changes_runendLoop {f : Nat} {s t : State} (h : runendLoop f s = .next t) : Changes s t := by
  induction f generalizing s with
  | zero =>
    obtain ⟨old, -, h⟩ := andThen_eq_next.mp h
    split at h
    · cases h
    · cases h; exact .refl
  | succ f ih =>
    obtain ⟨old, -, h⟩ := andThen_eq_next.mp h
    split at h
    · obtain ⟨x, hx, h⟩ := andThen_eq_next.mp h
      obtain ⟨new, -, h⟩ := andThen_eq_next.mp h
      split at h
      · cases h; exact changes_stepCore hx
      · exact (changes_stepCore hx).trans (ih h)
    · cases h; exact .refl

/-- The port and an effect give an operation the same meaning (44_controller_commands.md R141). -/
theorem exec_operation {i : Instr} (h : i.isCommand = false) (s : State) : exec i s = execOperation i s := by
  cases i <;> first | rfl | cases h

theorem changes_beginRun {s t : State} (h : Changes (beginRun s) t) : Changes (beginCommand s) t :=
  (changes_emit _ .refl).trans h

/-- The inversion of `exec`: an operation is a chain of primitive changes, and a command is such a chain
from the state in which the controller is `Stepping`, after which it is `Idle`. -/
theorem exec_changes {i : Instr} {s t : State} (h : exec i s = .next t) :
    (i.isCommand = false ∧ Changes s t) ∨
      ∃ u, i.isCommand = true ∧ Changes (beginCommand s) u ∧ t = setAnswer .none (setCtl .idle u) := by
  cases i with
  | step =>
    obtain ⟨x, hx, h⟩ := andThen_eq_next.mp h
    refine .inr ?_
    split at h
    · obtain ⟨u, hu, h⟩ := andThen_eq_next.mp h
      cases h
      exact ⟨u, rfl, changes_beginRun ((changes_stepCore hx).trans (changes_wrapPc hu)), rfl⟩
    · cases h
      exact ⟨x.2, rfl, changes_beginRun (changes_stepCore hx), rfl⟩
  | runbp =>
    obtain ⟨x, hx, h⟩ := andThen_eq_next.mp h
    obtain ⟨u, hu, h⟩ := andThen_eq_next.mp h
    cases h
    exact .inr ⟨u, rfl, changes_beginRun ((changes_runbpLoop hx).trans (changes_wrapPc hu)), rfl⟩
  | runend =>
    obtain ⟨x, hx, h⟩ := andThen_eq_next.mp h
    obtain ⟨u, hu, h⟩ := andThen_eq_next.mp h
    cases h
    exact .inr ⟨u, rfl, changes_beginRun ((changes_runendLoop hx).trans (changes_wrapPc hu)), rfl⟩
  | rstx =>
    obtain ⟨u, hu, h⟩ := andThen_eq_next.mp h
    cases h
    exact .inr ⟨u, rfl, changes_bankSet hu, rfl⟩
  | rstm =>
    have h : andThen (execMsRest .empty (beginCommand s)) endCommand = .next t := h
    obtain ⟨u, hu, h⟩ := andThen_eq_next.mp h
    cases h
    exact .inr ⟨u, rfl, changes_msRest hu, rfl⟩
  | _ => exact .inl ⟨rfl, changes_execOperation ((exec_operation rfl s).symm.trans h)⟩

/-! What every chain of changes keeps -/

theorem change_context {s t : State} (h : Change s t) : SameContext s t := by
  cases h <;> simp [SameContext]

theorem changes_context {s t : State} (h : Changes s t) : SameContext s t := by
  induction h with
  | refl => exact .refl _
  | tail _ hc ih => exact ih.trans (change_context hc)

theorem change_trace {s t : State} (h : Change s t) : s.ev <+: t.ev := by
  cases h <;> simp

theorem changes_trace {s t : State} (h : Changes s t) : s.ev <+: t.ev := by
  induction h with
  | refl => exact List.prefix_refl _
  | tail _ hc ih => exact ih.trans (change_trace hc)

theorem change_memory {s t : State} (h : Change s t) (hw : s.mem.wf) (hn : s.mem.n ≤ Config.memMaxWords) :
    t.mem.wf ∧ t.mem.n ≤ Config.memMaxWords := by
  have hnil : ∀ (n : Nat) (o : Int), ({ n := n, off := o, cells := [] } : Memory).wf := by
    intro n o; simp [Memory.wf]
  cases h with
  | emits es => exact ⟨hw, hn⟩
  | answers a => exact ⟨hw, hn⟩
  | slot b k v _ hk =>
    cases b
    case mem => exact ⟨memSetWord_wf _ _ _ hw hk, hn⟩
    all_goals exact ⟨hw, hn⟩
  | offset b o =>
    cases b <;> exact ⟨hw, hn⟩
  | zero b =>
    cases b
    case mem => exact ⟨hnil _ _, hn⟩
    all_goals exact ⟨hw, hn⟩
  | remap b n o _ hb =>
    cases b
    case mem =>
      refine ⟨hnil _ _, ?_⟩
      rcases hb rfl with h | h
      · exact h
      · exact le_of_eq_of_le h hn
    all_goals exact ⟨hw, hn⟩

theorem changes_memory {s t : State} (h : Changes s t) (hw : s.mem.wf) (hn : s.mem.n ≤ Config.memMaxWords) :
    t.mem.wf ∧ t.mem.n ≤ Config.memMaxWords := by
  induction h with
  | refl => exact ⟨hw, hn⟩
  | tail _ hc ih => exact change_memory hc ih.1 ih.2

end Sys2Proof.Machine
end

