-- ==== Sys2Proof/Laws/Operations.lean ====
section
/-! SUPPORT. Everything a shared operation can do, said once: clearing, re-offsetting, serializing and loading
a bank, and how events, the answer and the controller leave frames alone. -/

namespace Sys2Proof.Machine

/-! Frames -/

theorem frame_emitAll {w : Bank → Int → Prop} {s t : State} (es : List Event) (h : Frame w s t) :
    Frame w s (emitAll es t) := by
  obtain ⟨h1, h2, h3⟩ := h
  exact ⟨fun b i hn => by simpa using h1 b i hn, fun b => by simpa using h2 b, h3⟩

theorem frame_setAnswer {w : Bank → Int → Prop} {s t : State} (a : Answer) (h : Frame w s t) :
    Frame w s (setAnswer a t) := by
  obtain ⟨h1, h2, h3⟩ := h
  exact ⟨fun b i hn => by simpa using h1 b i hn, fun b => by simpa using h2 b, h3⟩

/-- Frames compose, and grow. -/
theorem frame_trans {w w' : Bank → Int → Prop} {s t u : State} (h : Frame w s t) (g : Frame w' t u) :
    Frame (fun b i => w b i ∨ w' b i) s u := by
  obtain ⟨h1, h2, h3⟩ := h
  obtain ⟨g1, g2, g3⟩ := g
  refine ⟨fun b i hn => ?_, fun b => ?_, h3.trans g3⟩
  · rw [not_or] at hn
    rw [g1 b i hn.2, h1 b i hn.1]
  · exact ⟨(g2 b).1.trans (h2 b).1, (g2 b).2.trans (h2 b).2⟩

theorem frame_mono {w w' : Bank → Int → Prop} {s t : State} (h : Frame w s t) (hw : ∀ b i, w b i → w' b i) :
    Frame w' s t :=
  ⟨fun b i hn => h.1 b i (mt (hw b i) hn), h.2⟩

/-- Everything a `set` in range does (40_wordstorage_ops.md R101). -/
theorem bankSet_spec {b : Bank} {i : Int} {s : State} (v : Word) (n : Bool) (h : inRange b i s = true) :
    ∃ t, bankSet b i v n s = .next t ∧ peek b i t = some v ∧ Frame (fun b' j => b' = b ∧ j = i) s t ∧
      t.ev = s.ev ++ writeEvents b i v n :=
  ⟨_, bankSet_inRange v n h, by simp [peek_putWord_same v h], frame_emitAll _ (frame_putWord v h), by simp⟩

theorem inRange_frame {w : Bank → Int → Prop} {s t : State} (h : Frame w s t) (b : Bank) (i : Int) :
    inRange b i t = inRange b i s := by simp [inRange, (h.2.1 b).1, (h.2.1 b).2]

theorem others_setAnswer {b : Bank} {s t : State} (a : Answer) (h : OtherBanksKept b s t) :
    OtherBanksKept b s (setAnswer a t) := by
  obtain ⟨h1, h2, h3⟩ := h
  exact ⟨fun b' i hb => by simpa using h1 b' i hb, fun b' hb => by simpa using h2 b' hb, h3⟩

theorem others_emitAll {b : Bank} {s t : State} (es : List Event) (h : OtherBanksKept b s t) :
    OtherBanksKept b s (emitAll es t) := by
  obtain ⟨h1, h2, h3⟩ := h
  exact ⟨fun b' i hb => by simpa using h1 b' i hb, fun b' hb => by simpa using h2 b' hb, h3⟩

theorem others_of_slots {b : Bank} {s t : State}
    (h : ∀ b', b' ≠ b → bankSize b' t = bankSize b' s ∧ bankOff b' t = bankOff b' s ∧
      ∀ k, slotWord b' k t = slotWord b' k s) (hc : SameContext s t) : OtherBanksKept b s t :=
  ⟨fun b' i hb => peek_of_slots (h b' hb).1 (h b' hb).2.1 (fun k _ => (h b' hb).2.2 k) i,
    fun b' hb => ⟨(h b' hb).1, (h b' hb).2.1⟩, hc⟩

/-- What a reader finds in a bank whose slots are known. -/
theorem peek_of_slot {b : Bank} {s : State} {i : Int} {f : Nat → Word}
    (h : ∀ k, k < bankSize b s → slotWord b k s = f k) :
    peek b i s = if inRange b i s then some (f (slotOf b i s)) else none := by
  by_cases hr : inRange b i s = true
  · simp [peek, hr, wordAt, h _ (slotOf_spec hr).2]
  · simp [peek, hr]

/-! Clearing and re-offsetting -/

@[simp] theorem bankSize_bankClear (b b' : Bank) (n : Bool) (s : State) :
    bankSize b' (bankClear b n s) = bankSize b' s := by simp [bankClear]

@[simp] theorem bankOff_bankClear (b b' : Bank) (n : Bool) (s : State) :
    bankOff b' (bankClear b n s) = bankOff b' s := by simp [bankClear]

@[simp] theorem inRange_bankClear (b b' : Bank) (n : Bool) (i : Int) (s : State) :
    inRange b' i (bankClear b n s) = inRange b' i s := by simp [inRange]

@[simp] theorem slotWord_bankClear_same (b : Bank) (n : Bool) (k : Nat) (s : State) :
    slotWord b k (bankClear b n s) = 0 := by
  rw [bankClear, slotWord_emitAll, slotWord_zeroBank_same]

theorem others_bankClear (b : Bank) (n : Bool) (s : State) : OtherBanksKept b s (bankClear b n s) :=
  others_of_slots (fun b' h => ⟨by simp, by simp, fun k => by simp [bankClear, slotWord_zeroBank_ne b b' _ s h]⟩)
    (by simp [bankClear, SameContext])

/-- The notifications of a whole bank, one `writeEvents` for each slot, whatever `notify` is. -/
theorem bankEvents_eq (b : Bank) (n : Bool) (s : State) : bankEvents b n s =
    (List.range (bankSize b s)).flatMap fun k =>
      writeEvents b (bankOff b s + (k : Nat)) (slotWord b k s) n := by
  simp only [bankEvents]
  split
  · rfl
  · rename_i h
    simp at h
    symm
    rw [List.flatMap_eq_nil_iff]
    intro k _
    simp [writeEvents, h]

theorem others_setOffset (b : Bank) (o : Int) (s : State) : OtherBanksKept b s (setOffset b o s) :=
  others_of_slots (fun b' h => ⟨by simp, bankOff_setOffset_ne b b' o s h, fun k => by simp⟩)
    (by simp [SameContext])

theorem others_remapBank (b : Bank) (n : Nat) (o : Int) (s : State) : OtherBanksKept b s (remapBank b n o s) :=
  others_of_slots (fun b' h => ⟨bankSize_remapBank_ne b b' n o s h, bankOff_remapBank_ne b b' n o s h,
    fun k => slotWord_remapBank_ne b b' n k o s h⟩) (by simp [SameContext])

/-! Serializing -/

/-- The entries of a serialized bank (40_wordstorage_ops.md R104). -/
theorem mem_serialize (b : Bank) (s : State) (i : Int) (v : Word) :
    (i, v) ∈ (serialize b s).entries ↔ peek b i s = some v ∧ v ≠ 0 := by
  simp only [serialize, List.mem_filterMap, List.mem_range, peek_eq_some]
  constructor
  · rintro ⟨k, hk, h⟩
    split at h
    · cases h
    · rename_i hz
      simp only [Option.some.injEq, Prod.mk.injEq] at h
      obtain ⟨rfl, rfl⟩ := h
      exact ⟨⟨inRange_slot hk, by rw [wordAt, slotOf_slot]⟩, hz⟩
  · rintro ⟨⟨hr, rfl⟩, hz⟩
    obtain ⟨h1, h2⟩ := slotOf_spec hr
    refine ⟨slotOf b i s, h2, ?_⟩
    have hz' : slotWord b (slotOf b i s) s ≠ 0 := hz
    rw [if_neg hz', h1, wordAt]

theorem serialize_rising (b : Bank) (s : State) :
    (serialize b s).entries.Pairwise (fun x y => x.1 < y.1) := by
  simp only [serialize]
  refine List.Pairwise.filterMap _ ?_ (List.pairwise_lt_range (n := bankSize b s))
  intro k j hkj x hx y hy
  split at hx
  · cases hx
  · split at hy
    · cases hy
    · cases hx; cases hy; simp only; omega

/-! Loading -/

theorem loadEntries_cons (b : Bank) (o : Int) (x : Int × Word) (es : List (Int × Word)) (s : State) :
    loadEntries b o (x :: es) s = loadEntries b o es (setSlot b (x.1 - o).toNat x.2 s) := rfl

theorem bankMap_loadEntries (b b' : Bank) (o : Int) (es : List (Int × Word)) (s : State) :
    bankSize b' (loadEntries b o es s) = bankSize b' s ∧ bankOff b' (loadEntries b o es s) = bankOff b' s := by
  induction es generalizing s with
  | nil => exact ⟨rfl, rfl⟩
  | cons x es ih =>
    have := ih (setSlot b (x.1 - o).toNat x.2 s)
    simpa [loadEntries_cons] using this

theorem rest_loadEntries (b : Bank) (o : Int) (es : List (Int × Word)) (s : State) :
    SameContext s (loadEntries b o es s) ∧ (loadEntries b o es s).ev = s.ev ∧
      ∀ b' k, b' ≠ b → slotWord b' k (loadEntries b o es s) = slotWord b' k s := by
  induction es generalizing s with
  | nil => exact ⟨.refl _, rfl, fun _ _ _ => rfl⟩
  | cons x es ih =>
    obtain ⟨h1, h4, h5⟩ := ih (setSlot b (x.1 - o).toNat x.2 s)
    refine ⟨.trans (by simp [SameContext]) h1, h4.trans (by simp), ?_⟩
    intro b' k hb
    exact (h5 b' k hb).trans (slotWord_setSlot_ne _ _ _ _ _ _ fun h => hb h.1)

/-- The slots after a map with rising keys is written into zero words (40_wordstorage_ops.md R105). -/
theorem slotWord_loadEntries (b : Bank) (o : Int) (es : List (Int × Word)) (s : State)
    (hp : es.Pairwise (fun x y => x.1 < y.1))
    (hr : ∀ x ∈ es, 0 ≤ x.1 - o ∧ x.1 - o < bankSize b s) (k : Nat) (hk : k < bankSize b s) :
    slotWord b k (loadEntries b o es s) =
      ((es.find? fun x => x.1 = o + (k : Int)).map fun x => x.2).getD (slotWord b k s) := by
  induction es generalizing s with
  | nil => rfl
  | cons x es ih =>
    obtain ⟨hx, hp⟩ := List.pairwise_cons.mp hp
    have h1 := ih (setSlot b (x.1 - o).toNat x.2 s) hp (fun y hy => by simpa using hr y (by simp [hy]))
      (by simpa using hk)
    rw [loadEntries_cons, h1]
    have hrx := hr x (by simp)
    by_cases he : x.1 = o + (k : Int)
    · have hk' : (x.1 - o).toNat = k := by omega
      have hnone : es.find? (fun y => y.1 = o + (k : Int)) = none := by
        rw [List.find?_eq_none]
        intro y hy
        have := hx y hy
        simp only [decide_eq_true_eq]; omega
      rw [hnone, List.find?_cons_of_pos (by simpa using he), hk']
      simp [slotWord_setSlot_same _ _ _ _ hk]
    · rw [List.find?_cons_of_neg (by simpa using he),
        slotWord_setSlot_ne _ _ _ _ _ _ (by rintro ⟨-, e⟩; omega)]

/-- The state before the notifications of a load. -/
theorem loadMap_eq (b : Bank) (p : SparseMap) (s : State) :
    ∃ t, loadMap b p s = emitAll (bankEvents b true t) t ∧
      SameBanks (loadEntries b (p.offsetW.getD 0) p.entries
        (remapBank b (loadSize b p s).toNat (p.offsetW.getD 0) s)) t ∧
      SameContext s t ∧
      t.ev = s.ev ++ (if b = .mem ∧ ((loadSize b p s).toNat ≠ bankSize b s ∨ p.offsetW.getD 0 ≠ bankOff b s) then
        [.settingsChanged (loadSize b p s).toNat (p.offsetW.getD 0) .mem] else []) := by
  obtain ⟨⟨c1, c2, c3, c5⟩, c4, -⟩ := rest_loadEntries b (p.offsetW.getD 0) p.entries
    (remapBank b (loadSize b p s).toNat (p.offsetW.getD 0) s)
  refine ⟨_, rfl, ?_, ?_, ?_⟩
  · split
    · exact sameBanks_emit _ _
    · exact SameBanks.refl _
  · split <;> simp [SameContext, c1, c2, c3, c5]
  · split
    · rw [emit_ev, c4, remapBank_ev]
    · rw [c4, remapBank_ev, List.append_nil]

/-- The banks a load leaves (40_wordstorage_ops.md R105). -/
theorem sameBanks_loadMap (b : Bank) (p : SparseMap) (s : State) :
    SameBanks (loadEntries b (p.offsetW.getD 0) p.entries
      (remapBank b (loadSize b p s).toNat (p.offsetW.getD 0) s)) (loadMap b p s) := by
  obtain ⟨t, h, hb, -, -⟩ := loadMap_eq b p s
  rw [h]; exact hb.trans (sameBanks_emitAll _ t)

/-- The empty record passes every check (44_controller_commands.md R148). -/
theorem loadOk_empty (b : Bank) (s : State) : LoadOk b .empty s := by
  refine ⟨fun hb => ?_, by simp [SparseMap.empty]⟩
  subst hb
  simp [loadSize, SparseMap.empty, Config.memMaxWords]

theorem bankOff_loadMap (b : Bank) (p : SparseMap) (s : State) :
    bankOff b (loadMap b p s) = p.offsetW.getD 0 := by
  obtain ⟨t, h, hb, -, -⟩ := loadMap_eq b p s
  rw [h, bankOff_emitAll, bankOff_congr hb, (bankMap_loadEntries ..).2, bankOff_remapBank_same]

theorem bankSize_loadMap (b : Bank) (p : SparseMap) (s : State) :
    bankSize b (loadMap b p s) = (loadSize b p s).toNat := by
  obtain ⟨t, h, hb, -, -⟩ := loadMap_eq b p s
  rw [h, bankSize_emitAll, bankSize_congr hb, (bankMap_loadEntries ..).1, bankSize_remapBank_same]
  cases b <;> simp [loadSize]

theorem slotWord_loadMap {b : Bank} {p : SparseMap} {s : State} (hp : p.wf = true) (h : LoadOk b p s) (k : Nat)
    (hk : k < (loadSize b p s).toNat) : slotWord b k (loadMap b p s) = mapWord p (p.offsetW.getD 0 + (k : Int)) := by
  obtain ⟨t, ht, hb, -, -⟩ := loadMap_eq b p s
  simp only [SparseMap.wf, Bool.and_eq_true, decide_eq_true_eq] at hp
  have hn : bankSize b (remapBank b (loadSize b p s).toNat (p.offsetW.getD 0) s) = (loadSize b p s).toNat := by
    rw [bankSize_remapBank_same]; cases b <;> simp [loadSize]
  rw [ht, slotWord_emitAll, slotWord_congr hb, slotWord_loadEntries _ _ _ _ hp.1 _ _ (by rw [hn]; exact hk),
    slotWord_remapBank_same]
  · rfl
  · intro x hx
    rw [hn]
    have := h.2 x hx
    omega

theorem others_loadMap (b : Bank) (p : SparseMap) (s : State) : OtherBanksKept b s (loadMap b p s) := by
  obtain ⟨t, ht, hb, hc, -⟩ := loadMap_eq b p s
  rw [ht]
  refine others_emitAll _ (others_of_slots (fun b' h => ?_) hc)
  rw [bankSize_congr hb, bankOff_congr hb, (bankMap_loadEntries ..).1, (bankMap_loadEntries ..).2]
  refine ⟨bankSize_remapBank_ne _ _ _ _ _ h, bankOff_remapBank_ne _ _ _ _ _ h, fun k => ?_⟩
  rw [slotWord_congr hb, (rest_loadEntries ..).2.2 _ _ h, slotWord_remapBank_ne _ _ _ _ _ _ h]

/-- The events of a load (40_wordstorage_ops.md R105). -/
theorem ev_loadMap {b : Bank} {p : SparseMap} {s : State} :
    (loadMap b p s).ev = s.ev ++
      (if b = .mem ∧ ((loadSize b p s).toNat ≠ bankSize b s ∨ p.offsetW.getD 0 ≠ bankOff b s) then
        [.settingsChanged (loadSize b p s).toNat (p.offsetW.getD 0) .mem] else []) ++
      (List.range (loadSize b p s).toNat).flatMap fun k =>
        writeEvents b (p.offsetW.getD 0 + (k : Nat)) (slotWord b k (loadMap b p s)) true := by
  obtain ⟨t, ht, hb, -, he⟩ := loadMap_eq b p s
  have h1 := bankSize_loadMap b p s
  have h2 := bankOff_loadMap b p s
  have h3 : ∀ k, slotWord b k t = slotWord b k (loadMap b p s) := fun k => by rw [ht, slotWord_emitAll]
  rw [ht, bankSize_emitAll] at h1
  rw [ht, bankOff_emitAll] at h2
  conv_lhs => rw [ht]
  rw [emitAll_ev, he, bankEvents_eq, h1, h2]
  simp only [h3]

/-- A word a load leaves (40_wordstorage_ops.md R105). -/
theorem peek_loadMap {b : Bank} {p : SparseMap} {s : State} (hp : p.wf = true) (h : LoadOk b p s) (i : Int)
    (hr : inRange b i (loadMap b p s) = true) : peek b i (loadMap b p s) = some (mapWord p i) := by
  obtain ⟨h1, h2⟩ := slotOf_spec hr
  rw [bankOff_loadMap] at h1
  rw [bankSize_loadMap] at h2
  rw [peek, if_pos hr, wordAt, slotWord_loadMap hp h _ h2, h1]

/-! A bank's serialization passes the checks of a load and names every word (R104, R105). -/

theorem serialize_wf (b : Bank) (s : State) : (serialize b s).wf = true := by
  simp only [SparseMap.wf, Bool.and_eq_true, decide_eq_true_eq]
  refine ⟨serialize_rising b s, ?_⟩
  simp only [serialize]; split <;> simp

theorem serialize_size (b : Bank) (s u : State) : loadSize b (serialize b s) u = (bankSize b s : Int) := by
  simp only [loadSize, serialize]
  by_cases hb : b = .mem
  · simp only [hb, true_and, if_true]
    split
    · rfl
    · rename_i hh; simp at hh; simp [hh]
  · cases b <;> simp_all [bankSize]

theorem serialize_off (b : Bank) (s : State) : (serialize b s).offsetW.getD 0 = bankOff b s := by
  simp only [serialize]; split <;> simp_all

theorem serialize_ok (b : Bank) (s u : State) (h : bankSize .mem s ≤ Config.memMaxWords) :
    LoadOk b (serialize b s) u := by
  refine ⟨fun hb => ?_, fun x hx => ?_⟩
  · rw [serialize_size]; subst hb; omega
  · obtain ⟨i, v⟩ := x
    have := (peek_eq_some.mp ((mem_serialize b s i v).mp hx).1).1
    rw [serialize_size, serialize_off]
    simpa [inRange] using this

theorem mapWord_serialize (b : Bank) (s : State) (i : Int) (hr : inRange b i s = true) :
    mapWord (serialize b s) i = wordAt b i s := by
  simp only [mapWord]
  cases hf : (serialize b s).entries.find? fun x => x.1 = i with
  | none =>
    rw [List.find?_eq_none] at hf
    by_contra hne
    have hm := (mem_serialize b s i (wordAt b i s)).mpr ⟨by simp [peek, hr], fun e => hne (by simp [e])⟩
    simpa using hf _ hm
  | some x =>
    obtain ⟨j, v⟩ := x
    have h1 := List.mem_of_find?_eq_some hf
    have h2 := List.find?_some hf
    simp only [decide_eq_true_eq] at h2
    subst h2
    have := ((mem_serialize b s _ v).mp h1).1
    simp [peek, hr] at this
    simp [this]

end Sys2Proof.Machine
end

