-- ==== Sys2Proof/Laws/Controller.lean ====
section
/-! SUPPORT. What the step core, the wrap and one turn of a run loop do (44_controller_commands.md R142, R144
to R146), said once for the statements about commands. -/

namespace Sys2Proof.Machine

@[simp] theorem inCommand_prog (s : State) : (inCommand s).prog = s.prog := rfl
@[simp] theorem inCommand_queue (s : State) : (inCommand s).queue = s.queue := rfl
@[simp] theorem inCommand_fuel (s : State) : (inCommand s).fuel = s.fuel := rfl
@[simp] theorem inCommand_ev (s : State) : (inCommand s).ev = s.ev ++ [.clearHighlights .ctl] := rfl
@[simp] theorem afterCommand_ctl (s : State) : (afterCommand s).ctl = .idle := rfl
@[simp] theorem afterCommand_prog (s : State) : (afterCommand s).prog = s.prog := rfl
@[simp] theorem afterCommand_queue (s : State) : (afterCommand s).queue = s.queue := rfl
@[simp] theorem afterCommand_fuel (s : State) : (afterCommand s).fuel = s.fuel := rfl
@[simp] theorem afterCommand_ev (s : State) : (afterCommand s).ev = s.ev := rfl
@[simp] theorem afterCommand_answer (s : State) : (afterCommand s).answer = .none := rfl

/-- The state a run/step command's loop starts from (44_controller_commands.md R143). -/
theorem beginRun_eq (s : State) : beginRun s = inCommand s := rfl

/-- Every command that returns nothing ends so (44_controller_commands.md R143). -/
theorem endCommand_eq (s : State) : endCommand s = .next (afterCommand s) := rfl

theorem pcReadable_congr {s t : State} (h : SameBanks s t) : PcReadable t ↔ PcReadable s := by
  rw [PcReadable, inRange_congr h, PcReadable]

theorem pcOf_congr {s t : State} (h : SameBanks s t) : pcOf t = pcOf s := wordAt_congr h _ _

@[simp] theorem pcReadable_inCommand (s : State) : PcReadable (inCommand s) ↔ PcReadable s :=
  pcReadable_congr (sameBanks_inCommand s)
@[simp] theorem pcOf_inCommand (s : State) : pcOf (inCommand s) = pcOf s := pcOf_congr (sameBanks_inCommand s)

theorem readPc_eq {s : State} (h : PcReadable s) : readPc s = .next (pcOf s) := bankGet_inRange h

theorem readPc_fault {s : State} (h : ¬ PcReadable s) : readPc s = .fault (.addressing .gpr 15) :=
  bankGet_outOfRange (by simpa [PcReadable] using h)

theorem readPc_eq_next {s : State} {p : Word} (h : readPc s = .next p) : PcReadable s ∧ p = pcOf s :=
  bankGet_eq_next.mp h

/-- The step core where the PC is misaligned or has no instruction (44_controller_commands.md R142). -/
theorem stepCore_invalid {s : State} (h : PcReadable s)
    (hp : (pcOf s).toNat % 4 ≠ 0 ∨ s.prog.length ≤ (pcOf s).toNat / 4) :
    stepCore s = .next (false, diagnose .pcInvalid (.pc (pcOf s)) s) := by
  have hf : findInstr (pcOf s) s = .failed .pcInvalid (.pc (pcOf s)) := by
    by_cases ha : (pcOf s).toNat % 4 = 0
    · have : s.prog.length ≤ (pcOf s).toNat / 4 := by tauto
      simp [findInstr, ha, instrAt, this]
    · simp [findInstr, ha]
  simp [stepCore, readPc_eq h, hf]

/-- The step core at an error instruction. -/
theorem stepCore_error {s : State} {msg : String} {span : List Nat} (h : PcReadable s)
    (ha : (pcOf s).toNat % 4 = 0) (hi : s.prog[(pcOf s).toNat / 4]? = some (.error msg span)) :
    stepCore s = .next (false, diagnose .instructionError (.parse (pcOf s) msg span) s) := by
  simp [stepCore, readPc_eq h, findInstr, ha, instrAt, hi]

/-- The step core at a valid instruction. -/
theorem stepCore_valid {s : State} {e : Effect} {bp : Bool} (h : PcReadable s)
    (ha : (pcOf s).toNat % 4 = 0) (hi : s.prog[(pcOf s).toNat / 4]? = some (.valid e bp)) :
    stepCore s = andThen (runEffect e [] s) fun t => .next (true, t) := by
  simp [stepCore, readPc_eq h, findInstr, ha, instrAt, hi]

theorem existsAt_eq (p : Word) (s : State) :
    existsAt p s = true ↔ p.toNat % 4 = 0 ∧ p.toNat / 4 < s.prog.length := by
  simp [existsAt, instrAt]

theorem breakpointAt_eq (p : Word) (s : State) :
    breakpointAt p s = true ↔ ∃ e, s.prog[p.toNat / 4]? = some (.valid e true) := by
  simp only [breakpointAt, instrAt]
  split
  · rename_i e bp h; cases bp <;> simp [h]
  · rename_i m sp h; simp [h]
  · rename_i h; simp [h]

/-- The wrap where the PC is inside the program (44_controller_commands.md R144). -/
theorem wrapPc_inside {s : State} (h : PcReadable s) (hp : (pcOf s).toNat / 4 < s.prog.length) :
    wrapPc s = .next s := by
  simp [wrapPc, readPc_eq h, Nat.not_le.mpr hp]

/-- The wrap where the PC is at or beyond the end. -/
theorem wrapPc_beyond {s : State} (h : PcReadable s) (hp : s.prog.length ≤ (pcOf s).toNat / 4) :
    ∃ t, wrapPc s = .next t ∧ PcReadable t ∧ pcOf t = 0 ∧ Frame (fun b i => b = .gpr ∧ i = 15) s t ∧
      t.ev = s.ev ++ [.valueChanged .gpr 15 0 .gpr, .pcChanged 0 .gpr] := by
  obtain ⟨t, et, pt, ft, vt⟩ := bankSet_spec 0 true h
  refine ⟨t, ?_, (peek_eq_some.mp pt).1, (peek_eq_some.mp pt).2, ft, vt⟩
  simp only [wrapPc, readPc_eq h, andThen_next]
  rw [if_pos hp, et]

/-- After the wrap the PC is inside the program or 0 (44_controller_commands.md R149 (b)). -/
theorem wrapPc_bound {s t : State} (h : wrapPc s = .next t) :
    PcReadable t ∧ ((pcOf t).toNat / 4 < t.prog.length ∨ pcOf t = 0) := by
  obtain ⟨p, hp, -⟩ := andThen_eq_next.mp h
  obtain ⟨hr, -⟩ := readPc_eq_next hp
  by_cases hb : s.prog.length ≤ (pcOf s).toNat / 4
  · obtain ⟨u, hu, h1, h2, -⟩ := wrapPc_beyond hr hb
    rw [hu] at h; cases h
    exact ⟨h1, .inr h2⟩
  · rw [wrapPc_inside hr (by omega)] at h; cases h
    exact ⟨hr, .inl (by omega)⟩

/-- A turn of the run-to-breakpoint loop that ends it (44_controller_commands.md R145). -/
theorem runbpLoop_exit {f : Nat} {s : State} {x : Bool × State} (h : PcReadable s) (hx : stepCore s = .next x)
    (h' : PcReadable x.2) (he : pcOf x.2 = pcOf s ∨ existsAt (pcOf x.2) x.2 = false ∨
      breakpointAt (pcOf x.2) x.2 = true) : runbpLoop (f + 1) s = .next x.2 := by
  have : pcOf x.2 = pcOf s ∨ ¬ existsAt (pcOf x.2) x.2 = true ∨ breakpointAt (pcOf x.2) x.2 = true := by
    simpa using he
  simp only [runbpLoop, readPc_eq h, andThen_next, hx, readPc_eq h', if_pos this]

/-- A turn of the run-to-breakpoint loop that goes on. -/
theorem runbpLoop_turn {f : Nat} {s : State} {x : Bool × State} (h : PcReadable s) (hx : stepCore s = .next x)
    (h' : PcReadable x.2) (hs : pcOf x.2 ≠ pcOf s) (he : existsAt (pcOf x.2) x.2 = true)
    (hb : breakpointAt (pcOf x.2) x.2 = false) : runbpLoop (f + 1) s = runbpLoop f x.2 := by
  have : ¬ (pcOf x.2 = pcOf s ∨ ¬ existsAt (pcOf x.2) x.2 = true ∨ breakpointAt (pcOf x.2) x.2 = true) := by
    simp [hs, he, hb]
  simp only [runbpLoop, readPc_eq h, andThen_next, hx, readPc_eq h', if_neg this]

/-- The run-to-end loop at a PC with no instruction (44_controller_commands.md R146). -/
theorem runendLoop_done {f : Nat} {s : State} (h : PcReadable s) (he : existsAt (pcOf s) s = false) :
    runendLoop f s = .next s := by
  cases f <;> simp [runendLoop, readPc_eq h, he]

/-- A turn of the run-to-end loop. -/
theorem runendLoop_turn {f : Nat} {s : State} {x : Bool × State} (h : PcReadable s)
    (he : existsAt (pcOf s) s = true) (hx : stepCore s = .next x) (h' : PcReadable x.2) :
    runendLoop (f + 1) s = if pcOf x.2 = pcOf s then .next x.2 else runendLoop f x.2 := by
  simp only [runendLoop, readPc_eq h, andThen_next, he, if_true, hx, readPc_eq h']

/-- A fault of the step core ends either loop (44_controller_commands.md R141). -/
theorem runbpLoop_fault {f : Nat} {s : State} {r : Fault} (h : PcReadable s) (hx : stepCore s = .fault r) :
    runbpLoop (f + 1) s = .fault r := by
  simp only [runbpLoop, readPc_eq h, andThen_next, hx, andThen_fault]

theorem runendLoop_fault {f : Nat} {s : State} {r : Fault} (h : PcReadable s) (he : existsAt (pcOf s) s = true)
    (hx : stepCore s = .fault r) : runendLoop (f + 1) s = .fault r := by
  simp only [runendLoop, readPc_eq h, andThen_next, he, if_true, hx, andThen_fault]

/-- The loops read the PC first (44_controller_commands.md header). -/
theorem runbpLoop_unreadable {f : Nat} {s : State} (h : ¬ PcReadable s) :
    runbpLoop (f + 1) s = .fault (.addressing .gpr 15) := by
  simp only [runbpLoop, readPc_fault h, andThen_fault]

theorem runendLoop_unreadable {f : Nat} {s : State} (h : ¬ PcReadable s) :
    runendLoop f s = .fault (.addressing .gpr 15) := by
  cases f <;> simp only [runendLoop, readPc_fault h, andThen_fault]

/-- A step core that leaves the PC unreadable ends either loop with the fault of the PC's read. -/
theorem runbpLoop_lostPc {f : Nat} {s : State} {x : Bool × State} (h : PcReadable s) (hx : stepCore s = .next x)
    (h' : ¬ PcReadable x.2) : runbpLoop (f + 1) s = .fault (.addressing .gpr 15) := by
  simp only [runbpLoop, readPc_eq h, andThen_next, hx, readPc_fault h', andThen_fault]

theorem runendLoop_lostPc {f : Nat} {s : State} {x : Bool × State} (h : PcReadable s)
    (he : existsAt (pcOf s) s = true) (hx : stepCore s = .next x) (h' : ¬ PcReadable x.2) :
    runendLoop (f + 1) s = .fault (.addressing .gpr 15) := by
  simp only [runendLoop, readPc_eq h, andThen_next, he, if_true, hx, readPc_fault h', andThen_fault]

/-! Turns of a run loop -/

/-- At a valid instruction an instruction exists, and the step core is its effect. -/
theorem AtValid.spec {s : State} {e : Effect} (h : AtValid s e) : PcReadable s ∧ existsAt (pcOf s) s = true ∧
    stepCore s = andThen (runEffect e [] s) fun t => .next (true, t) := by
  obtain ⟨hr, ha, bp, hi⟩ := h
  exact ⟨hr, (existsAt_eq _ _).mpr ⟨ha, (List.getElem?_eq_some_iff.mp hi).1⟩, stepCore_valid hr ha hi⟩

/-- `RUNBP`'s loop after `n` turns. -/
theorem runbpLoop_turns {n : Nat} {s u : State} (h : Turns true n s u) (f : Nat) :
    runbpLoop (f + n) s = runbpLoop f u := by
  induction h with
  | refl s => rfl
  | @turn n s t u ht _ ih =>
    obtain ⟨⟨e, he, hr⟩, h1, h2, h3, h4, h5⟩ := ht
    obtain ⟨hs, -, hx⟩ := he.spec
    rw [hr, andThen_next] at hx
    have hb : breakpointAt (pcOf t) t = false := by
      rw [← Bool.not_eq_true, breakpointAt_eq]; rintro ⟨e', h⟩; exact h5 rfl e' h
    rw [← Nat.add_assoc, runbpLoop_turn hs hx h1 h2 ((existsAt_eq _ _).mpr ⟨h3, h4⟩) hb, ih]

/-- `RUNEND`'s loop after `n` turns. -/
theorem runendLoop_turns {n : Nat} {s u : State} (h : Turns false n s u) (f : Nat) :
    runendLoop (f + n) s = runendLoop f u := by
  induction h with
  | refl s => rfl
  | @turn n s t u ht _ ih =>
    obtain ⟨⟨e, he, hr⟩, h1, h2, -⟩ := ht
    obtain ⟨hs, hx0, hx⟩ := he.spec
    rw [hr, andThen_next] at hx
    rw [← Nat.add_assoc, runendLoop_turn hs hx0 hx h1, if_neg h2, ih]

/-- The wrap and the end of a command, from a PC that can be read (44_controller_commands.md R143, R144). -/
theorem wrapPc_endCommand {s : State} (h : PcReadable s) :
    ∃ t, andThen (wrapPc s) endCommand = .next t ∧ Wrapped s t := by
  by_cases hp : s.prog.length ≤ (pcOf s).toNat / 4
  · obtain ⟨t, et, -, pt, ft, vt⟩ := wrapPc_beyond h hp
    refine ⟨afterCommand t, by rw [et]; rfl, fun hl => absurd hl (Nat.not_lt.mpr hp), fun _ => ⟨?_, fun b i hn => ?_,
      ft.2.1, vt, rfl, ft.2.2.2.1, ft.2.2.2.2.1, ft.2.2.2.2.2, rfl⟩⟩
    · rw [← pt]; exact pcOf_congr (sameBanks_afterCommand t)
    · exact (peek_congr (sameBanks_afterCommand t) b i).trans (ft.1 b i hn)
  · exact ⟨afterCommand s, by rw [wrapPc_inside h (by omega)]; rfl, fun _ => rfl, fun hl => absurd hl hp⟩

/-- `RUNBP`'s loop ends with a last turn (44_controller_commands.md R145). -/
theorem runbpLoop_last {s t : State} (h : LastTurn true s t) (f : Nat) : runbpLoop (f + 1) s = .next t := by
  obtain ⟨⟨e, he, hr⟩, h', hx⟩ := h
  obtain ⟨hs, -, hc⟩ := he.spec
  rw [hr, andThen_next] at hc
  refine runbpLoop_exit hs hc h' ?_
  rw [← Bool.not_eq_true, existsAt_eq, breakpointAt_eq]
  rcases hx with h | h | h | h
  · exact .inl h
  · exact .inr (.inl fun g => h g.1)
  · exact .inr (.inl fun g => Nat.not_lt.mpr h g.2)
  · exact .inr (.inr h.2)

/-- `RUNEND`'s loop ends with a last turn (44_controller_commands.md R146). -/
theorem runendLoop_last {s t : State} (h : LastTurn false s t) (f : Nat) : runendLoop (f + 1) s = .next t := by
  obtain ⟨⟨e, he, hr⟩, h', hx⟩ := h
  obtain ⟨hs, h0, hc⟩ := he.spec
  rw [hr, andThen_next] at hc
  rw [runendLoop_turn hs h0 hc h']
  split
  · rfl
  · rename_i hne
    refine runendLoop_done h' ?_
    rw [← Bool.not_eq_true, existsAt_eq]
    rcases hx with h | h | h | h
    · exact absurd h hne
    · exact fun g => h g.1
    · exact fun g => Nat.not_lt.mpr h g.2
    · exact absurd h.1 Bool.false_ne_true

/-- After a turn that goes on, the PC can be read and an instruction exists at it. -/
theorem Turns.exists {b : Bool} {n : Nat} {s u : State} (h : Turns b n s u) (hn : 0 < n) :
    PcReadable u ∧ existsAt (pcOf u) u = true := by
  induction h with
  | refl s => exact absurd hn (Nat.lt_irrefl 0)
  | @turn n s t u ht hs ih =>
    obtain ⟨-, h1, -, h3, h4, -⟩ := ht
    cases hs with
    | refl => exact ⟨h1, (existsAt_eq _ _).mpr ⟨h3, h4⟩⟩
    | turn _ _ => exact ih (Nat.succ_pos _)

/-- Without fuel the loops give up where an instruction is left to run (93_implementation_defined.md U6). -/
theorem runendLoop_exhausted {s : State} (h : PcReadable s) (he : existsAt (pcOf s) s = true) :
    runendLoop 0 s = .refused .fuelExhausted := by
  simp only [runendLoop, readPc_eq h, andThen_next, he, if_true]

theorem context_stepCore {s : State} {x : Bool × State} (h : stepCore s = .next x) : SameContext s x.2 :=
  changes_context (changes_stepCore h)

end Sys2Proof.Machine
end

