-- ==== Sys2Proof/Laws/Encoding.lean ====
section
/-! SUPPORT. The fields of a command word read back what was joined, and joining what was read gives the
word back (30_encoding.md R77). -/

namespace Sys2Proof

@[simp] theorem splitFields_joinFields (f : Fields) : splitFields (joinFields f) = f := by
  obtain ⟨op, b, n, m, c, w, e, r⟩ := f
  simp only [splitFields, joinFields, Fields.mk.injEq]
  refine ⟨?_, ?_, ?_, ?_, ?_, ?_, ?_, ?_⟩
  · ext i hi
    simp only [BitVec.getElem_extractLsb', BitVec.getLsbD_append]
    rw [← BitVec.getLsbD_eq_getElem]
    split_ifs <;> first | omega | (congr 1; omega)
  · ext i hi
    simp only [BitVec.getElem_extractLsb', BitVec.getLsbD_append]
    rw [← BitVec.getLsbD_eq_getElem]
    split_ifs <;> first | omega | (congr 1; omega)
  · simp only [BitVec.getLsbD_append]; simp
  · simp only [BitVec.getLsbD_append]; simp
  · simp only [BitVec.getLsbD_append]; simp
  · ext i hi
    simp only [BitVec.getElem_extractLsb', BitVec.getLsbD_append]
    rw [← BitVec.getLsbD_eq_getElem]
    split_ifs <;> first | omega | (congr 1; omega)
  · ext i hi
    simp only [BitVec.getElem_extractLsb', BitVec.getLsbD_append]
    rw [← BitVec.getLsbD_eq_getElem]
    split_ifs <;> first | omega | (congr 1; omega)
  · ext i hi
    simp only [BitVec.getElem_extractLsb', BitVec.getLsbD_append]
    rw [← BitVec.getLsbD_eq_getElem]
    split_ifs <;> first | omega | (congr 1; omega)

theorem joinFields_splitFields (cmd : Word) : joinFields (splitFields cmd) = cmd := by
  simp only [splitFields, joinFields]
  ext i hi
  simp only [BitVec.getElem_append, BitVec.getElem_extractLsb', BitVec.getElem_ofBool]
  split_ifs <;> simp only [← BitVec.getLsbD_eq_getElem] <;> congr 1 <;> omega

@[simp] theorem bankOfField_field (b : Bank) : bankOfField b.field = b := by cases b <;> rfl

@[simp] theorem sizeClassOfField_field (c : SizeClass) : sizeClassOfField c.field = c := by cases c <;> rfl

@[simp] theorem registerBankOfField_field (b : RegisterBank) : registerBankOfField b.bank.field = some b := by
  cases b <;> rfl

theorem field_registerBankOfField {b : BitVec 2} {c : RegisterBank} (h : registerBankOfField b = some c) :
    c.bank.field = b := by
  revert b c; intro b c; cases c <;> revert b <;> decide

theorem registerBankOfField_eq_none (b : BitVec 2) : registerBankOfField b = none ↔ b = 3 := by
  revert b; decide

theorem field_bankOfField (b : BitVec 2) : (bankOfField b).field = b := by
  revert b; decide

theorem field_sizeClassOfField (c : Bool) : (sizeClassOfField c).field = c := by cases c <;> rfl

theorem row_eq_ok {f : Fields} {u : Uses} {i j : Instr} :
    row f u i = .ok j ↔ f.reservedZero u = true ∧ i = j := by
  simp only [row]; split <;> simp_all

/-- A datum widened to `D[127:0]` and cut back to its own width is itself (30_encoding.md R76). -/
theorem cut_widened {n : Nat} (d : BitVec n) (h : n ≤ 128 := by omega) : (d.setWidth 128).setWidth n = d := by
  simp [BitVec.setWidth_setWidth_of_le, h]

end Sys2Proof
end

