-- ==== Sys2Proof/Laws/Fields.lean ====
section
/-! SUPPORT. Bit fields bit by bit (00_scope.md R8, R9; 41_vector_ops.md R115), the checks of the vector
operations, and the words of a byte address (20_memory.md R56). -/

namespace Sys2Proof.Machine

/-! Fields -/

theorem getLsbD_mask (k j : Nat) : (mask k).getLsbD j = (decide (j < 32) && decide (j < k)) := by
  simp [mask, BitVec.getLsbD_ofNat, Nat.testBit_two_pow_sub_one]

theorem and_mask_32 (v : Word) : v &&& mask 32 = v := by
  rw [show mask 32 = BitVec.allOnes 32 by decide, BitVec.and_allOnes]

theorem getLsbD_and_mask (v : Word) (k j : Nat) : (v &&& mask k).getLsbD j = (decide (j < k) && v.getLsbD j) := by
  rw [BitVec.getLsbD_and, getLsbD_mask]
  by_cases hj : j < 32
  · simp [hj, Bool.and_comm]
  · simp [BitVec.getLsbD_of_ge v j (by omega)]

theorem getLsbD_getField (v : Word) (o k j : Nat) :
    (getField v o k).getLsbD j = (decide (j < k) && v.getLsbD (o + j)) := by
  rw [getField, getLsbD_and_mask, BitVec.getLsbD_ushiftRight]

theorem getLsbD_putField (old v : Word) (o k j : Nat) (hj : j < 32) :
    (putField old o k v).getLsbD j = if o ≤ j ∧ j < o + k then v.getLsbD (j - o) else old.getLsbD j := by
  simp only [putField, fieldMask, BitVec.getLsbD_or, BitVec.getLsbD_and, BitVec.getLsbD_not,
    BitVec.getLsbD_shiftLeft, getLsbD_mask]
  by_cases h1 : o ≤ j
  · have a1 : ¬ j < o := by omega
    by_cases h2 : j < o + k
    · have a2 : j - o < 32 := by omega
      have a3 : j - o < k := by omega
      simp [h1, h2, hj, a1, a2, a3]
    · have a3 : ¬ j - o < k := by omega
      simp [h1, h2, hj, a1, a3]
  · have a1 : j < o := by omega
    simp [h1, hj, a1]

/-- Words are equal when they have the same bits. -/
theorem word_ext {v w : Word} (h : ∀ j, j < 32 → v.getLsbD j = w.getLsbD j) : v = w :=
  BitVec.eq_of_getLsbD_eq h

theorem getField_putField_same (old v : Word) (o k : Nat) (h : o + k ≤ 32) :
    getField (putField old o k v) o k = v &&& mask k := by
  refine word_ext fun j _ => ?_
  rw [getLsbD_getField, getLsbD_and_mask]
  by_cases hk : j < k
  · rw [getLsbD_putField _ _ _ _ _ (by omega), if_pos (by omega)]; simp
  · simp [hk]

theorem getField_putField_disjoint (old v : Word) (o k o' k' : Nat) (h' : o' + k' ≤ 32)
    (hd : o + k ≤ o' ∨ o' + k' ≤ o) : getField (putField old o k v) o' k' = getField old o' k' := by
  refine word_ext fun j _ => ?_
  rw [getLsbD_getField, getLsbD_getField]
  by_cases hk : j < k'
  · rw [getLsbD_putField _ _ _ _ _ (by omega), if_neg (by omega)]
  · simp [hk]

/-! The checks of the vector operations -/

theorem vecSpanFault_eq_none (i : Int) (n : Nat) (s : State) :
    vecSpanFault i n s = none ↔ ∀ j : Nat, j < n → inRange .vec (i + j) s = true := by
  simp only [vecSpanFault, List.findSome?_eq_none_iff, List.mem_range, indexFault]
  constructor <;> intro h j hj <;> have := h j hj
  · by_contra hc; simp [hc] at this
  · simp [this]

/-- The fault of a span names its first index out of range (41_vector_ops.md R111). -/
theorem vecSpanFault_eq_some (i : Int) (n : Nat) (s : State) (h : ∃ j : Nat, j < n ∧ inRange .vec (i + j) s = false) :
    ∃ j : Nat, j < n ∧ inRange .vec (i + j) s = false ∧
      (∀ j' : Nat, j' < j → inRange .vec (i + j') s = true) ∧
      vecSpanFault i n s = some (.addressing .vec (i + j)) := by
  cases hf : vecSpanFault i n s with
  | none => obtain ⟨j, hj, hr⟩ := h; rw [vecSpanFault_eq_none] at hf; simp [hf j hj] at hr
  | some f =>
    simp only [vecSpanFault, List.findSome?_eq_some_iff] at hf
    obtain ⟨l1, j, l2, hl, hf, hn⟩ := hf
    have hj : j < n := List.mem_range.mp (by rw [hl]; simp)
    have hs : (l1 ++ j :: l2).Pairwise (· < ·) := hl ▸ List.pairwise_lt_range
    have hlow : ∀ j' : Nat, j' < j → j' ∈ l1 := by
      intro j' hj'
      have hm : j' ∈ l1 ++ j :: l2 := by rw [← hl]; exact List.mem_range.mpr (by omega)
      rcases List.mem_append.mp hm with h1 | h1
      · exact h1
      · rcases List.mem_cons.mp h1 with rfl | h2
        · omega
        · have := (List.pairwise_cons.mp (List.pairwise_append.mp hs).2.1).1 j' h2; omega
    simp only [indexFault] at hf hn
    split at hf
    · cases hf
    · rename_i hr
      cases hf
      refine ⟨j, hj, by simpa using hr, fun j' hj' => ?_, rfl⟩
      by_contra hc
      simpa [hc] using hn j' (hlow j' hj')

theorem legalElementWidth_iff (k : Nat) : legalElementWidth k = true ↔ k ∈ [1, 2, 4, 8, 16, 32] := by
  simp [legalElementWidth]

theorem elementFault_eq_none {c : SizeClass} {k r e : Nat} {s : State} : elementFault c k r e s = none ↔
    k ∈ [1, 2, 4, 8, 16, 32] ∧ k * e < 32 * sizeClassWords c ∧
      inRange .vec (elementWord c k r e : Nat) s = true := by
  rw [← legalElementWidth_iff]
  simp only [elementFault, indexFault]
  split
  · simp_all
  · split <;> simp_all

/-- An element of a legal width lies inside its word (41_vector_ops.md R116 (c)). -/
theorem elementBit_fits {k : Nat} (e : Nat) (h : k ∈ [1, 2, 4, 8, 16, 32]) : elementBit k e + k ≤ 32 := by
  simp only [List.mem_cons, List.not_mem_nil, or_false] at h
  rcases h with h | h | h | h | h | h <;> subst h <;> simp only [elementBit] <;> omega

/-! Words and bytes of memory -/

theorem byteAt_eq_some {a : Nat} {s : State} (h : inRange .mem (wordIndex a) s = true) :
    byteAt a s = some ((wordAt .mem (wordIndex a) s).extractLsb' (8 * (a % 4)) 8) := by simp [byteAt, h]

theorem byteAt_eq_none {a : Nat} {s : State} (h : inRange .mem (wordIndex a) s = false) : byteAt a s = none := by
  simp [byteAt, h]

/-- A byte depends on its word alone. -/
theorem byteAt_of_peek {a : Nat} {s t : State} (h : peek .mem (wordIndex a) t = peek .mem (wordIndex a) s) :
    byteAt a t = byteAt a s := by
  cases hs : inRange .mem (wordIndex a) s
  · rw [peek_eq_none.mpr hs, peek_eq_none] at h
    rw [byteAt_eq_none hs, byteAt_eq_none h]
  · rw [peek_eq_some.mpr ⟨hs, rfl⟩, peek_eq_some] at h
    rw [byteAt_eq_some hs, byteAt_eq_some h.1, h.2]

/-- The word a read at a misaligned address puts together. -/
def gather (lo hi : Word) (o : Nat) : Word := (lo >>> (8 * o)) ||| (hi <<< (32 - 8 * o))

theorem getLsbD_gather (lo hi : Word) (o j : Nat) (ho : o < 4) (hj : j < 32) :
    (gather lo hi o).getLsbD j =
      if 8 * o + j < 32 then lo.getLsbD (8 * o + j) else hi.getLsbD (8 * o + j - 32) := by
  simp only [gather, BitVec.getLsbD_or, BitVec.getLsbD_ushiftRight, BitVec.getLsbD_shiftLeft]
  by_cases h : 8 * o + j < 32
  · have : j < 32 - 8 * o := by omega
    simp [h, this]
  · have h1 : ¬ j < 32 - 8 * o := by omega
    rw [BitVec.getLsbD_of_ge lo _ (by omega)]
    simp [h, h1, hj, show j - (32 - 8 * o) = 8 * o + j - 32 by omega]

theorem wordsMapped_iff (a : Nat) (s : State) : WordsMapped a s ↔
    inRange .mem (wordIndex a) s = true ∧ (a % 4 = 0 ∨ inRange .mem (wordIndex a + 1) s = true) := by
  simp only [WordsMapped]; tauto

/-- The word `read_word` answers where its words are mapped (42_memory_ops.md R120). -/
def wordRead (a : Nat) (s : State) : Word :=
  if a % 4 = 0 then wordAt .mem (wordIndex a) s
  else gather (wordAt .mem (wordIndex a) s) (wordAt .mem (wordIndex a + 1) s) (a % 4)

theorem readWord_mapped {a : Nat} {s : State} (h : WordsMapped a s) : readWord a s = .next (wordRead a s) := by
  by_cases ha : a % 4 = 0
  · simp [readWord, wordRead, ha, bankGet_inRange h.1]
  · simp [readWord, wordRead, ha, bankGet_inRange h.1, bankGet_inRange (h.2 ha), gather]

/-- The index an unmapped access names: the first word that is out of range (20_memory.md R61). -/
def unmappedIndex (a : Nat) (s : State) : Int :=
  if inRange .mem (wordIndex a) s then wordIndex a + 1 else wordIndex a

theorem readWord_unmapped {a : Nat} {s : State} (h : ¬ WordsMapped a s) :
    readWord a s = .fault (.addressing .mem (unmappedIndex a s)) := by
  rw [wordsMapped_iff] at h
  cases h0 : inRange .mem (wordIndex a) s
  · by_cases ha : a % 4 = 0 <;> simp [readWord, ha, bankGet_outOfRange h0, unmappedIndex, h0]
  · have : ¬ a % 4 = 0 ∧ inRange .mem (wordIndex a + 1) s = false := by simpa [h0] using h
    simp [readWord, this.1, bankGet_inRange h0, bankGet_outOfRange this.2, unmappedIndex, h0]

theorem writeWord_unmapped {a : Nat} {s : State} (v : Word) (h : ¬ WordsMapped a s) :
    writeWord a v s = .fault (.addressing .mem (unmappedIndex a s)) := by
  rw [wordsMapped_iff] at h
  cases h0 : inRange .mem (wordIndex a) s
  · by_cases ha : a % 4 = 0 <;>
      simp [writeWord, ha, bankGet_outOfRange h0, bankSet_outOfRange _ _ h0, unmappedIndex, h0]
  · have : ¬ a % 4 = 0 ∧ inRange .mem (wordIndex a + 1) s = false := by simpa [h0] using h
    simp [writeWord, this.1, bankGet_inRange h0, bankGet_outOfRange this.2, unmappedIndex, h0]

/-- Where the byte `j` places after `a` lies. -/
theorem wordIndex_add (a j : Nat) (hj : j < 4) :
    (a % 4 + j < 4 ∧ wordIndex (a + j) = wordIndex a ∧ (a + j) % 4 = a % 4 + j) ∨
      (a % 4 ≠ 0 ∧ 4 ≤ a % 4 + j ∧ wordIndex (a + j) = wordIndex a + 1 ∧ (a + j) % 4 = a % 4 + j - 4) := by
  simp only [wordIndex]; omega

/-- A word read is the four bytes from its address (20_memory.md R56). -/
theorem byteAt_wordRead {a : Nat} {s : State} (h : WordsMapped a s) (j : Nat) (hj : j < 4) :
    byteAt (a + j) s = some ((wordRead a s).extractLsb' (8 * j) 8) := by
  rcases wordIndex_add a j hj with ⟨h1, h2, h3⟩ | ⟨h0, h1, h2, h3⟩
  · rw [byteAt_eq_some (by rw [h2]; exact h.1), h2, h3]
    congr 1
    refine BitVec.eq_of_getLsbD_eq fun i hi => ?_
    by_cases ha : a % 4 = 0
    · simp [wordRead, ha]
    · simp only [wordRead, ha, if_false, BitVec.getLsbD_extractLsb', hi, decide_true, Bool.true_and]
      rw [getLsbD_gather _ _ _ _ (by omega) (by omega), if_pos (by omega)]
      congr 1; omega
  · rw [byteAt_eq_some (by rw [h2]; exact h.2 h0), h2, h3]
    congr 1
    refine BitVec.eq_of_getLsbD_eq fun i hi => ?_
    simp only [wordRead, h0, if_false, BitVec.getLsbD_extractLsb', hi, decide_true, Bool.true_and]
    rw [getLsbD_gather _ _ _ _ (by omega) (by omega), if_neg (by omega)]
    congr 1; omega

/-- A word is its four bytes, in the order of 20_memory.md R55. -/
theorem word_eq_bytes {v w : Word} (h : ∀ j, j < 4 → v.extractLsb' (8 * j) 8 = w.extractLsb' (8 * j) 8) :
    v = w := by
  rw [← word_of_bytes v, ← word_of_bytes w]
  have h0 := h 0 (by omega); have h1 := h 1 (by omega); have h2 := h 2 (by omega); have h3 := h 3 (by omega)
  simp only [Nat.mul_zero, Nat.mul_one, Nat.reduceMul] at h0 h1 h2 h3
  rw [h0, h1, h2, h3]

/-- The low word after a write at a misaligned address, bit by bit (42_memory_ops.md R121). -/
theorem getLsbD_low_written (lo v : Word) (o j : Nat) (hj : j < 32) :
    ((lo &&& mask (8 * o)) ||| (v <<< (8 * o))).getLsbD j =
      if j < 8 * o then lo.getLsbD j else v.getLsbD (j - 8 * o) := by
  rw [BitVec.getLsbD_or, getLsbD_and_mask, BitVec.getLsbD_shiftLeft]
  by_cases h : j < 8 * o <;> simp [h, hj]

/-- The high word after a write at a misaligned address, bit by bit (42_memory_ops.md R121). -/
theorem getLsbD_high_written (hi v : Word) (o j : Nat) (ho : o < 4) (hj : j < 32) :
    ((hi &&& ~~~ mask (8 * o)) ||| (v >>> (32 - 8 * o))).getLsbD j =
      if j < 8 * o then v.getLsbD (32 - 8 * o + j) else hi.getLsbD j := by
  rw [BitVec.getLsbD_or, BitVec.getLsbD_and, BitVec.getLsbD_not, getLsbD_mask, BitVec.getLsbD_ushiftRight]
  by_cases h : j < 8 * o
  · simp [h, hj]
  · rw [BitVec.getLsbD_of_ge v _ (by omega)]; simp [h, hj]

/-- Everything `write_word` does where its words are mapped (42_memory_ops.md R121). -/
theorem writeWord_spec {a : Nat} {s : State} (v : Word) (h : WordsMapped a s) :
    ∃ t, writeWord a v s = .next t ∧ wordRead a t = v ∧
      (∀ x : Nat, x < a ∨ a + 4 ≤ x → byteAt x t = byteAt x s) ∧
      Frame (fun b i => b = .mem ∧ (i = wordIndex a ∨ (a % 4 ≠ 0 ∧ i = wordIndex a + 1))) s t ∧
      ∃ lo hi, peek .mem (wordIndex a) t = some lo ∧
        (a % 4 ≠ 0 → peek .mem (wordIndex a + 1) t = some hi) ∧
        t.ev = s.ev ++ .valueChanged .mem (wordIndex a) lo .mem ::
          (if a % 4 = 0 then [] else [.valueChanged .mem (wordIndex a + 1) hi .mem]) := by
  obtain ⟨h0, h1⟩ := h
  by_cases ha : a % 4 = 0
  · obtain ⟨t, et, pt, ft, vt⟩ := bankSet_spec v true h0
    refine ⟨t, by simp [writeWord, ha, et], ?_, fun x hx => ?_, frame_mono ft fun b i hb => ⟨hb.1, .inl hb.2⟩,
      v, v, pt, fun hn => absurd ha hn, ?_⟩
    · simp [wordRead, ha, (peek_eq_some.mp pt).2]
    · refine byteAt_of_peek (ft.1 _ _ ?_)
      rintro ⟨-, e⟩
      simp only [wordIndex] at e; omega
    · rw [vt]; simp [writeEvents, bankComponent, ha]
  · have h1 := h1 ha
    have ho : a % 4 < 4 := Nat.mod_lt _ (by omega)
    obtain ⟨t, et, pt, ft, vt⟩ := bankSet_spec
      ((wordAt .mem (wordIndex a) s &&& mask (8 * (a % 4))) ||| (v <<< (8 * (a % 4)))) true h0
    obtain ⟨u, eu, pu, fu, vu⟩ := bankSet_spec
      ((wordAt .mem (wordIndex a + 1) s &&& ~~~ mask (8 * (a % 4))) ||| (v >>> (32 - 8 * (a % 4)))) true
      ((inRange_frame ft .mem (wordIndex a + 1)).trans h1)
    have pl := (fu.1 .mem (wordIndex a) (by omega)).trans pt
    refine ⟨u, by simp [writeWord, ha, bankGet_inRange h0, bankGet_inRange h1, et, eu], ?_, fun x hx => ?_,
      frame_mono (frame_trans ft fu) ?_, _, _, pl, fun _ => pu, ?_⟩
    · rw [peek_eq_some] at pl pu
      simp only [wordRead, ha, if_false, pl.2, pu.2]
      refine word_ext fun j hj => ?_
      rw [getLsbD_gather _ _ _ _ ho hj]
      split
      · rw [getLsbD_low_written _ _ _ _ (by omega), if_neg (by omega)]; congr 1; omega
      · rw [getLsbD_high_written _ _ _ _ ho (by omega), if_pos (by omega)]; congr 1; omega
    · by_cases e0 : wordIndex x = wordIndex a
      · rw [peek_eq_some] at pl
        have hx : x % 4 < a % 4 := by simp only [wordIndex] at e0; omega
        rw [byteAt_eq_some (by rw [e0]; exact pl.1), byteAt_eq_some (by rw [e0]; exact h0), e0, pl.2]
        congr 1
        refine BitVec.eq_of_getLsbD_eq fun i hi => ?_
        simp only [BitVec.getLsbD_extractLsb', hi, decide_true, Bool.true_and]
        rw [getLsbD_low_written _ _ _ _ (by omega), if_pos (by omega)]
      · by_cases e1 : wordIndex x = wordIndex a + 1
        · rw [peek_eq_some] at pu
          have hx : a % 4 ≤ x % 4 := by simp only [wordIndex] at e1; omega
          rw [byteAt_eq_some (by rw [e1]; exact pu.1), byteAt_eq_some (by rw [e1]; exact h1), e1, pu.2]
          congr 1
          refine BitVec.eq_of_getLsbD_eq fun i hi => ?_
          simp only [BitVec.getLsbD_extractLsb', hi, decide_true, Bool.true_and]
          rw [getLsbD_high_written _ _ _ _ ho (by omega), if_neg (by omega)]
        · exact byteAt_of_peek ((fu.1 _ _ (fun h => e1 h.2)).trans (ft.1 _ _ (fun h => e0 h.2)))
    · rintro b i (h | h)
      · exact ⟨h.1, .inl h.2⟩
      · exact ⟨h.1, .inr ⟨ha, h.2⟩⟩
    · rw [vu, vt]; simp [writeEvents, bankComponent, ha]

end Sys2Proof.Machine
end

