-- ==== Sys2Proof/Laws/PerInstr.lean ====
section
/-! SUPPORT. Per-instruction lemmas of the family FieldsRead: the decoder reads back the fields and buses of
each operation (30_encoding.md R78, R80). -/

namespace Sys2Proof.Laws.FieldsRead

/-- The fields and buses of an operation decode to it. -/
def Statement (i : Instr) : Prop :=
  decodeFields i.fields i.busA i.busD i.busP = .ok i

theorem wsGet (b : Bank) (a : Word) : Statement (.wsGet b a) := by
  cases b <;> rfl

theorem wsSet (b : Bank) (a d : Word) (n : Bool) : Statement (.wsSet b a d n) := by
  cases b <;> exact congrArg (fun x => Except.ok (Instr.wsSet _ a x n)) (cut_widened d)

theorem wsClear (b : Bank) (n : Bool) : Statement (.wsClear b n) := by
  cases b <;> rfl

theorem wsSetoff (b : RegisterBank) (a : Word) : Statement (.wsSetoff b a) := by
  cases b <;> rfl

theorem wsSer (b : Bank) : Statement (.wsSer b) := by
  cases b <;> rfl

theorem wsDeser (b : Bank) (p : SparseMap) : Statement (.wsDeser b p) := by
  cases b <;> rfl

theorem wsRecv (b : Bank) (r : BitVec 8) (a d : Word) : Statement (.wsRecv b r a d) := by
  cases b <;> exact congrArg (fun x => Except.ok (Instr.wsRecv _ r a x)) (cut_widened d)

theorem vGetq (r : BitVec 8) : Statement (.vGetq r) := by
  rfl

theorem vSetq (r : BitVec 8) (d : BitVec 128) (n : Bool) : Statement (.vSetq r d n) := by
  rfl

theorem vGetd (r : BitVec 8) : Statement (.vGetd r) := by
  rfl

theorem vSetd (r : BitVec 8) (d : BitVec 64) (n : Bool) : Statement (.vSetd r d n) := by
  exact congrArg (fun x => Except.ok (Instr.vSetd r x n)) (cut_widened d)

theorem vGete (c : SizeClass) (w : BitVec 6) (r : BitVec 8) (e : BitVec 7) : Statement (.vGete c w r e) := by
  cases c <;> rfl

theorem vSete (c : SizeClass) (w : BitVec 6) (r : BitVec 8) (e : BitVec 7) (d : Word) : Statement (.vSete c w r e d) := by
  cases c <;> exact congrArg (fun x => Except.ok (Instr.vSete _ w r e x)) (cut_widened d)

theorem mRdw (a : Word) : Statement (.mRdw a) := by
  rfl

theorem mWrw (a d : Word) : Statement (.mWrw a d) := by
  exact congrArg (fun x => Except.ok (Instr.mWrw a x)) (cut_widened d)

theorem mRdv (w : BitVec 6) (a : Word) : Statement (.mRdv w a) := by
  rfl

theorem mWrv (w : BitVec 6) (a d : Word) : Statement (.mWrv w a d) := by
  exact congrArg (fun x => Except.ok (Instr.mWrv w a x)) (cut_widened d)

theorem mResize (a : Word) (n m : Bool) : Statement (.mResize a n m) := by
  rfl

theorem mSetoff (a : Word) (n m : Bool) : Statement (.mSetoff a n m) := by
  rfl

theorem pcGet : Statement .pcGet := by
  rfl

theorem pcSet (a : Word) : Statement (.pcSet a) := by
  rfl

theorem pcAdv : Statement .pcAdv := by
  rfl

theorem msSnap : Statement .msSnap := by
  rfl

theorem msRest (p : Snapshot) : Statement (.msRest p) := by
  rfl

theorem msHilite (b : Bank) (a d : Word) : Statement (.msHilite b a d) := by
  cases b <;> exact congrArg (fun x => Except.ok (Instr.msHilite _ a x)) (cut_widened d)

theorem step : Statement .step := by
  rfl

theorem runbp : Statement .runbp := by
  rfl

theorem runend : Statement .runend := by
  rfl

theorem rstx : Statement .rstx := by
  rfl

theorem rstm : Statement .rstm := by
  rfl

end Sys2Proof.Laws.FieldsRead
end

