-- ==== Sys2Proof/Tests/Slice0.lean ====
section
/-! SUPPORT. The package's own tests: ill-formed terms refused, command words written out from the spec's
encoding, one step of every operation against 95_test_vectors.md, and a witness for every statement that
has hypotheses. Expected values are the spec's; each test names its vector. -/

namespace Sys2Proof.Tests

open Sys2Proof Sys2Proof.Machine

/-! ## Ill-formed terms are refused -/

theorem test_wf_map_keys_must_rise : (SparseMap.mk [(1, 5), (1, 6)] none none).wf = false := by decide
theorem test_wf_map_keys_order : (SparseMap.mk [(2, 5), (1, 6)] none none).wf = false := by decide
theorem test_wf_negative_size : (SparseMap.mk [] none (some (-1))).wf = false := by decide
theorem test_wf_deser_size_on_register_bank :
    (Instr.wsDeser .gpr ⟨[], none, some 8⟩).wf = false := by decide
theorem test_wf_deser_bad_map : (Instr.wsDeser .mem ⟨[(1, 0), (0, 0)], none, none⟩).wf = false := by decide
theorem test_wf_snapshot_size_on_arm :
    (Snapshot.mk (some ⟨[], none, some 8⟩) none none none).wf = false := by decide
theorem test_wf_snapshot_size_on_neon :
    (Snapshot.mk none none (some ⟨[], none, some 8⟩) none).wf = false := by decide
theorem test_wf_snapshot_size_on_spec :
    (Snapshot.mk none none none (some ⟨[], none, some 8⟩)).wf = false := by decide
theorem test_wf_restore_bad_memory :
    (Instr.msRest ⟨none, some ⟨[], none, some (-1)⟩, none, none⟩).wf = false := by decide
theorem test_wf_expr_out_of_scope : (Expr.add (.lit 1) (.tmp 0)).scoped 0 = false := by decide
theorem test_wf_cond_out_of_scope : (Cond.answerIs 2 .none).scoped 2 = false := by decide
theorem test_wf_action_operand : (Action.wf 1 { op := .pcGet, a := some (.tmp 1) }) = false := by decide
theorem test_wf_action_data : (Action.wf 0 { op := .pcGet, d := some (.tmp 0) }) = false := by decide
theorem test_wf_action_payload : (Action.wf 1 { op := .msRest .empty, p := some 1 }) = false := by decide
theorem test_wf_action_ill_formed_operation : 
    (Action.wf 0 { op := .wsDeser .gpr ⟨[], none, some 8⟩ }) = false := by decide
theorem test_wf_effect_issues_no_command : (Effect.act { op := .rstm } .done).wf 0 = false := by decide
theorem test_wf_effect_branch :
    (Effect.branch (.eq (.tmp 0) (.lit 0)) .done .done).wf 0 = false := by decide
theorem test_wf_instruction : (CpuInstr.valid (.act { op := .step } .done) false).wf = false := by decide
theorem test_wf_program : programWf [.error "m" [], .valid (.act { op := .runbp } .done) true] = false := by
  decide
/-- Well-formed terms are admitted too. -/
theorem test_wf_admits :
    ((Instr.wsSetoff .vec 0).wf && (Instr.wsDeser .mem ⟨[(-1, 3), (4, 0)], some (-1), some 9⟩).wf &&
      programWf [.valid (.act { op := .pcGet } (.act { op := .wsSet .gpr 0 0 true, d := some (.tmp 0) } .done))
        true]) = true := by decide

/-! ## Command words

Each word is `op<<26 | b<<24 | n<<23 | m<<22 | c<<21 | w<<15 | e<<8 | r` (30_encoding.md R77), written out in
95_test_vectors.md for the vector named. -/

/-- `d` decodes to `i`. -/
def decodes (cmd a : Word) (d : BitVec 128) (i : Instr) : Bool :=
  match decode ⟨cmd, a, d, .empty⟩ with
  | .ok j => decide (j = i)
  | .error _ => false

/-- The word is refused for this reason. -/
def refuses (cmd : Word) (e : DecodeError) : Bool :=
  match decode (bareRequest cmd) with
  | .ok _ => false
  | .error e' => decide (e' = e)

/-- W1. -/
theorem test_decode_wsGet : decodes 0x04000000 15 0 (.wsGet .gpr 15) = true := by decide
/-- W8: `b = 1`, `n = 1`. -/
theorem test_decode_wsSet : decodes 0x09800000 2 1 (.wsSet .status 2 1 true) = true := by decide
/-- W11. -/
theorem test_decode_wsClear : decodes 0x0C800000 0 0 (.wsClear .gpr true) = true := by decide
/-- E6. -/
theorem test_decode_wsSetoff : decodes 0x12000000 10 0 (.wsSetoff .vec 10) = true := by decide
/-- W13. -/
theorem test_decode_wsSer : decodes 0x14000000 0 0 (.wsSer .gpr) = true := by decide
/-- W16's word; the payload is the bus `P`. -/
theorem test_decode_wsDeser :
    (decode ⟨0x1B000000, 0, 0, { map := ⟨[(40, 1)], some 40, some 4⟩, snapshot := .empty }⟩).toOption =
      some (.wsDeser .mem ⟨[(40, 1)], some 40, some 4⟩) := by decide
/-- W19. -/
theorem test_decode_wsRecv : decodes 0x1C000010 3 9 (.wsRecv .gpr 16 3 9) = true := by decide
/-- V11. -/
theorem test_decode_vGetq : decodes 0x20000001 0 0 (.vGetq 1) = true := by decide
/-- V10. -/
theorem test_decode_vSetq : decodes 0x24800001 0 0x0F0E0D0C0B0A09080706050403020100
    (.vSetq 1 0x0F0E0D0C0B0A09080706050403020100 true) = true := by decide
/-- V11. -/
theorem test_decode_vGetd : decodes 0x28000003 0 0 (.vGetd 3) = true := by decide
/-- V14. -/
theorem test_decode_vSetd : decodes 0x2C80001F 0 0x0000000100000002
    (.vSetd 31 0x0000000100000002 true) = true := by decide
/-- E18, E10: the largest fields, and a width the operation itself faults. -/
theorem test_decode_vGete : (decodes 0x3020FF0F 0 0 (.vGete .quad 1 15 127) &&
    decodes 0x30308000 0 0 (.vGete .quad 33 0 0)) = true := by decide
/-- V1, V8. -/
theorem test_decode_vSete : (decodes 0x34240501 0 0x7F (.vSete .quad 8 1 5 0x7F) &&
    decodes 0x34080305 0 0x1BEEF (.vSete .double 16 5 3 0x1BEEF)) = true := by decide
/-- M2. -/
theorem test_decode_mRdw : decodes 0x40000000 1 0 (.mRdw 1) = true := by decide
/-- M7. -/
theorem test_decode_mWrw : decodes 0x44000000 1 0x11223344 (.mWrw 1 0x11223344) = true := by decide
/-- M10. -/
theorem test_decode_mRdv : decodes 0x48080000 3 0 (.mRdv 16 3) = true := by decide
/-- E17. -/
theorem test_decode_mWrv : decodes 0x4C108000 0 5 (.mWrv 33 0 5) = true := by decide
/-- E13, M22. -/
theorem test_decode_mResize : (decodes 0x50C00000 2 0 (.mResize 2 true true) &&
    decodes 0x50000000 64 0 (.mResize 64 false false)) = true := by decide
/-- M25. -/
theorem test_decode_mSetoff : decodes 0x54800000 256 0 (.mSetoff 256 true false) = true := by decide
/-- P1. -/
theorem test_decode_pcGet : decodes 0x60000000 0 0 .pcGet = true := by decide
/-- P2. -/
theorem test_decode_pcSet : decodes 0x64000000 0x20 0 (.pcSet 0x20) = true := by decide
/-- P4. -/
theorem test_decode_pcAdv : decodes 0x68000000 0 0 .pcAdv = true := by decide
/-- P7. -/
theorem test_decode_msSnap : decodes 0x6C000000 0 0 .msSnap = true := by decide
/-- P9's word; the payload is the bus `P`. -/
theorem test_decode_msRest :
    (decode ⟨0x70000000, 0, 0,
      { map := .empty, snapshot := { Snapshot.empty with arm := some ⟨[(0, 7)], none, none⟩ } }⟩).toOption =
      some (.msRest { Snapshot.empty with arm := some ⟨[(0, 7)], none, none⟩ }) := by decide
/-- E15. -/
theorem test_decode_msHilite : decodes 0x77000000 4 7 (.msHilite .mem 4 7) = true := by decide
/-- E4. -/
theorem test_decode_step : decodes 0x80000000 0 0 .step = true := by decide
/-- C4. -/
theorem test_decode_runbp : decodes 0x84000000 0 0 .runbp = true := by decide
/-- C1. -/
theorem test_decode_runend : decodes 0x88000000 0 0 .runend = true := by decide
/-- C16. -/
theorem test_decode_rstx : decodes 0x8C000000 0 0 .rstx = true := by decide
/-- C17. -/
theorem test_decode_rstm : decodes 0x90000000 0 0 .rstm = true := by decide

/-- E1, E8, E9. -/
theorem test_decode_unassigned : (refuses 0x00000000 .unassignedOp && refuses 0x38000000 .unassignedOp &&
    refuses 0xFC000000 .unassignedOp) = true := by decide
/-- E3, E5, E14, E16. -/
theorem test_decode_reserved : (refuses 0x08C00000 .reservedField && refuses 0x80000001 .reservedField &&
    refuses 0x50200000 .reservedField && refuses 0x68000001 .reservedField) = true := by decide
/-- E7. -/
theorem test_decode_setoff_mem : refuses 0x13000000 .setoffMem = true := by decide
/-- A word of another length names nothing. -/
theorem test_decodeTableWord : (decodeTableWord 32 0x60000000 = some .pcGet ∧
    decodeTableWord 16 0x6000 = none ∧ decodeTableWord 32 (2 ^ 32) = none) := by decide
/-- R88: the pseudo-operations' expansions have the words of their operations. -/
theorem test_pseudo_operations :
    ((encode (.mRdb 3)).cmd = 0x48040000 ∧ (encode (.mWrh 3 0x1234)).cmd = 0x4C080000 ∧
      encode (.vGets 63) = ⟨0x3010011F, 0, 0, .empty⟩ ∧ (encode (.memRead 2 3)).cmd = 0x480C0000) := by
  decide
/-- R80: 30 rows. -/
theorem test_table_size : opcodeTable.length = 30 := by decide

/-! ## One operation on a small state -/

/-- The operation completes and the state meets `p`. -/
def completes (x : Res State) (p : State → Bool) : Bool :=
  match x with
  | .next t => p t
  | .fault _ => false
  | .refused _ => false

/-- The operation ends in this fault. -/
def faults (x : Res State) (f : Fault) : Bool :=
  match x with
  | .next _ => false
  | .fault g => decide (g = f)
  | .refused _ => false

/-- Words written silently into the reset block. -/
def placed (ws : List (Bank × Nat × Word)) : State :=
  ws.foldl (fun s x => setSlot x.1 x.2.1 x.2.2 s) State.reset

/-- The answer and the new events are these. -/
def gives (x : Res State) (a : Answer) (es : List Event) : Bool :=
  completes x fun t => decide (t.answer = a ∧ t.ev = es)

/-- A word of the state. -/
def holds (t : State) (b : Bank) (i : Int) (v : Word) : Bool := peek b i t == some v

/-- W1. -/
theorem test_wsGet : gives (exec (.wsGet .gpr 15) (placed [(.gpr, 15, 8)])) (.word 8) [] = true := by
  decide
/-- W2, W3: the index is signed. -/
theorem test_wsGet_out_of_range : (faults (exec (.wsGet .gpr 16) .reset) (.addressing .gpr 16) &&
    faults (exec (.wsGet .gpr 0xFFFFFFFF) .reset) (.addressing .gpr (-1))) = true := by decide
/-- Scenario A. -/
theorem test_wsSet : completes (exec (.wsSet .gpr 15 8 true) .reset) (fun t => holds t .gpr 15 8 &&
    decide (t.ev = [.valueChanged .gpr 15 8 .gpr, .pcChanged 8 .gpr])) = true := by decide
/-- W5, W8. -/
theorem test_wsSet_quiet : (gives (exec (.wsSet .gpr 15 8 false) .reset) .none [.pcChanged 8 .gpr] &&
    faults (exec (.wsSet .status 2 1 true) .reset) (.addressing .status 2)) = true := by decide
/-- W10. -/
theorem test_wsClear : completes (exec (.wsClear .gpr false) (placed [(.gpr, 0, 5), (.gpr, 15, 8)]))
    (fun t => holds t .gpr 0 0 && holds t .gpr 15 0 && decide (t.ev = [.pcChanged 0 .gpr])) = true := by
  decide
/-- R102's example. -/
theorem test_wsClear_notifies : gives (exec (.wsClear .status true) (placed [(.status, 1, 5)])) .none
    [.valueChanged .status 0 0 .status, .valueChanged .status 1 0 .status] = true := by decide
/-- W12. -/
theorem test_wsSetoff : completes (exec (.wsSetoff .status 10) (placed [(.status, 0, 7)]))
    (fun t => holds t .status 10 7 && holds t .status 11 0 && decide (peek .status 0 t = none ∧ t.ev = [])) =
      true := by decide
/-- W13. -/
theorem test_wsSer : gives (exec (.wsSer .gpr) (placed [(.gpr, 0, 5), (.gpr, 15, 8)]))
    (.map ⟨[(0, 5), (15, 8)], none, none⟩) [] = true := by decide
/-- W16. -/
theorem test_wsDeser : completes (exec (.wsDeser .mem ⟨[(40, 1)], some 40, some 4⟩) .reset)
    (fun t => holds t .mem 40 1 && holds t .mem 43 0 && decide (t.mem.n = 4 ∧ t.mem.off = 40 ∧
      t.ev = [.settingsChanged 4 40 .mem, .valueChanged .mem 40 1 .mem, .valueChanged .mem 41 0 .mem,
        .valueChanged .mem 42 0 .mem, .valueChanged .mem 43 0 .mem])) = true := by decide
/-- W15. -/
theorem test_wsDeser_outside :
    faults (exec (.wsDeser .gpr ⟨[(16, 1)], none, none⟩) .reset) (.addressing .gpr 16) = true := by
  decide
/-- W18, W20. -/
theorem test_wsRecv_own : (gives (exec (.wsRecv .gpr 0 3 9) .reset) .none [] &&
    gives (exec (.wsRecv .gpr 0 99 9) .reset) .none []) = true := by decide
/-- W19, W21. -/
theorem test_wsRecv_other : (gives (exec (.wsRecv .gpr 16 3 9) .reset) .none [.valueChanged .gpr 3 9 .gpr] &&
    completes (exec (.wsRecv .gpr 3 15 4) .reset) (fun t => holds t .gpr 15 4)) = true := by decide

/-- The words V10 writes. -/
def q1 : State :=
  placed [(.vec, 4, 0x03020100), (.vec, 5, 0x07060504), (.vec, 6, 0x0B0A0908), (.vec, 7, 0x0F0E0D0C)]

/-- V11, V22. -/
theorem test_vGetq : (gives (exec (.vGetq 1) q1) (.quad 0x0F0E0D0C0B0A09080706050403020100) [] &&
    faults (exec (.vGetq 16) q1) (.addressing .vec 64)) = true := by decide
/-- V10. -/
theorem test_vSetq : completes (exec (.vSetq 1 0x0F0E0D0C0B0A09080706050403020100 true) .reset) (fun t =>
    holds t .vec 4 0x03020100 && holds t .vec 7 0x0F0E0D0C && decide (t.ev =
      [.valueChanged .vec 4 0x03020100 .vec, .valueChanged .vec 5 0x07060504 .vec,
       .valueChanged .vec 6 0x0B0A0908 .vec, .valueChanged .vec 7 0x0F0E0D0C .vec])) = true := by decide
/-- V11, V22. -/
theorem test_vGetd : (gives (exec (.vGetd 3) q1) (.double 0x0F0E0D0C0B0A0908) [] &&
    faults (exec (.vGetd 32) q1) (.addressing .vec 64)) = true := by decide
/-- V14. -/
theorem test_vSetd : completes (exec (.vSetd 31 0x0000000100000002 true) .reset) (fun t =>
    holds t .vec 62 2 && holds t .vec 63 1 &&
      decide (t.ev = [.valueChanged .vec 62 2 .vec, .valueChanged .vec 63 1 .vec])) = true := by decide
/-- V13, V4: a nibble of a quad, and the same storage through a double. -/
theorem test_vGete : (gives (exec (.vGete .quad 4 1 28) q1) (.word 0xE) [] &&
    gives (exec (.vGete .quad 16 1 7) q1) (.word 0x0F0E) [] &&
    gives (exec (.vGete .double 8 3 1) q1) (.word 0x09) []) = true := by decide
/-- V16, V17, V19, V21. -/
theorem test_vGete_faults : (faults (exec (.vGete .quad 3 16 99) q1) (.width 3) &&
    faults (exec (.vGete .quad 8 0 16) q1) (.addressingElement 0 16) &&
    faults (exec (.vGete .quad 32 16 0) q1) (.addressing .vec 64)) = true := by decide
/-- V5, V8. -/
theorem test_vSete : (completes (exec (.vSete .double 4 0 3 0) (placed [(.vec, 0, 0xFFFFFFFF)]))
      (fun t => holds t .vec 0 0xFFFF0FFF) &&
    completes (exec (.vSete .double 16 5 3 0x1BEEF) .reset)
      (fun t => holds t .vec 11 0xBEEF0000 && holds t .vec 10 0 &&
        decide (t.ev = [.valueChanged .vec 11 0xBEEF0000 .vec]))) = true := by decide
/-- V6, V9. -/
theorem test_vSete_ends : (completes (exec (.vSete .quad 1 15 127 1) .reset)
      (fun t => holds t .vec 63 0x80000000) &&
    completes (exec (.vSete .quad 32 0 0 0xFFFFFFFF) (placed [(.vec, 0, 0x12345678)]))
      (fun t => holds t .vec 0 0xFFFFFFFF)) = true := by decide

/-- M1's memory. -/
def m1 : State := placed [(.mem, 0, 0x44332211), (.mem, 1, 0x88776655)]

/-- M1 to M5. -/
theorem test_mRdw : (gives (exec (.mRdw 0) m1) (.word 0x44332211) [] &&
    gives (exec (.mRdw 1) m1) (.word 0x55443322) [] && gives (exec (.mRdw 2) m1) (.word 0x66554433) [] &&
    gives (exec (.mRdw 3) m1) (.word 0x77665544) []) = true := by decide
/-- M16, M17, M18. -/
theorem test_mRdw_ends : (gives (exec (.mRdw 124) m1) (.word 0) [] &&
    faults (exec (.mRdw 125) m1) (.addressing .mem 32) && faults (exec (.mRdw 128) m1) (.addressing .mem 32) &&
    faults (exec (.mRdw 0xFFFFFFFC) m1) (.addressing .mem 0x3FFFFFFF)) = true := by decide
/-- M8. -/
theorem test_mWrw : completes (exec (.mWrw 2 0x11223344) (placed [(.mem, 0, 0xAAAAAAAA), (.mem, 1, 0xBBBBBBBB)]))
    (fun t => holds t .mem 0 0x3344AAAA && holds t .mem 1 0xBBBB1122 && decide (t.ev =
      [.valueChanged .mem 0 0x3344AAAA .mem, .valueChanged .mem 1 0xBBBB1122 .mem])) = true := by decide
/-- M6. -/
theorem test_mWrw_aligned : gives (exec (.mWrw 0 0xCAFEF00D) .reset) .none
    [.valueChanged .mem 0 0xCAFEF00D .mem] = true := by decide
/-- M10, M11. -/
theorem test_mRdv : (gives (exec (.mRdv 16 3) m1) (.word 0x5544) [] &&
    gives (exec (.mRdv 12 1) m1) (.word 0x322) [] && gives (exec (.mRdv 7 5) m1) (.word 0x66) []) = true := by
  decide
/-- M17, M19. -/
theorem test_mRdv_faults : (faults (exec (.mRdv 8 125) m1) (.addressing .mem 32) &&
    faults (exec (.mRdv 0 125) m1) (.width 0) && faults (exec (.mRdv 33 0) m1) (.width 33)) = true := by
  decide
/-- Scenario B, M12. -/
theorem test_mWrv : completes (exec (.mWrv 8 1 0xAB) m1) (fun t => holds t .mem 0 0x4433AB11 &&
    holds t .mem 1 0x88776655 && decide (t.ev =
      [.valueChanged .mem 0 0x4433AB11 .mem, .valueChanged .mem 1 0x88776655 .mem])) = true := by decide
/-- M15. -/
theorem test_mWrv_cuts : (completes (exec (.mWrv 8 0 0x1FF) (placed [(.mem, 0, 0xFFFFFF00)]))
      (fun t => holds t .mem 0 0xFFFFFFFF) &&
    completes (exec (.mWrv 12 0 5) (placed [(.mem, 0, 0xFFFFFFFF)])) (fun t => holds t .mem 0 0xFFFFF005)) =
      true := by decide
/-- M20, M23. -/
theorem test_mResize_same : (completes (exec (.mResize 32 true true) m1)
      (fun t => holds t .mem 0 0x44332211 && decide (t.ev = [])) &&
    faults (exec (.mResize 0xFFFFFFFF true true) m1) (.addressing .mem (-1))) = true := by decide
/-- M21. -/
theorem test_mResize : completes (exec (.mResize 2 true true) m1) (fun t => holds t .mem 0 0 && holds t .mem 1 0 &&
    decide (peek .mem 2 t = none ∧ t.ev =
      [.settingsChanged 2 0 .mem, .valueChanged .mem 0 0 .mem, .valueChanged .mem 1 0 .mem])) = true := by
  decide
/-- M25. -/
theorem test_mSetoff : completes (exec (.mSetoff 256 true false) m1) (fun t => holds t .mem 256 0 &&
    decide (peek .mem 0 t = none ∧ byteAt 1024 t = some 0 ∧ byteAt 1152 t = none ∧
      t.ev = [.settingsChanged 32 256 .mem])) = true := by decide
/-- M26. -/
theorem test_mSetoff_same : completes (exec (.mSetoff 0 true true) m1)
    (fun t => holds t .mem 0 0x44332211 && decide (t.ev = [])) = true := by decide

/-- P1. -/
theorem test_pcGet : gives (exec .pcGet (placed [(.gpr, 15, 8)])) (.word 8) [] = true := by decide
/-- P2, P3. -/
theorem test_pcSet : gives (exec (.pcSet 0x20) (placed [(.gpr, 15, 0x20)])) .none
    [.valueChanged .gpr 15 0x20 .gpr, .pcChanged 0x20 .gpr] = true := by decide
/-- P4 to P6. -/
theorem test_pcAdv : (gives (exec .pcAdv (placed [(.gpr, 15, 8)])) .none [.pcChanged 12 .gpr] &&
    gives (exec .pcAdv (placed [(.gpr, 15, 0xFFFFFFFC)])) .none [.pcChanged 0 .gpr] &&
    gives (exec .pcAdv (placed [(.gpr, 15, 5)])) .none [.pcChanged 9 .gpr]) = true := by decide
/-- P7. -/
theorem test_msSnap : gives (exec .msSnap (placed [(.gpr, 15, 8), (.mem, 0, 0xAB00)]))
    (.snapshot ⟨some ⟨[(15, 8)], none, none⟩, some ⟨[(0, 0xAB00)], none, none⟩, some .empty, none⟩) [] = true := by
  decide
/-- P8. -/
theorem test_msSnap_status : gives (exec .msSnap (placed [(.status, 1, 5)]))
    (.snapshot ⟨some .empty, some .empty, some .empty, some ⟨[(1, 5)], none, none⟩⟩) [] = true := by
  decide
/-- P10. -/
theorem test_msRest : completes
    (exec (.msRest { Snapshot.empty with memory := some ⟨[], none, some 8⟩ }) (placed [(.vec, 3, 9)]))
    (fun t => holds t .vec 3 0 && decide (t.mem.n = 8 ∧ t.ev.length = 92 ∧
      t.ev[17]? = some (.settingsChanged 8 0 .mem) ∧ t.ev[16]? = some (.pcChanged 0 .gpr))) = true := by
  decide
/-- P11. -/
theorem test_msRest_checks_first : faults (exec (.msRest ⟨some ⟨[(16, 1)], none, none⟩,
    some ⟨[(0, 9)], none, none⟩, none, none⟩) .reset) (.addressing .gpr 16) = true := by decide
/-- P13. -/
theorem test_msHilite : gives (exec (.msHilite .mem 4 7) .reset) .none
    [.highlightIntent .mem 4 7 .ms] = true := by decide

/-! Controller commands, file 95 section 2.6. -/

/-- The effect `A` of section 2.6: `PC.ADV`. -/
def adv : Effect := .act { op := .pcAdv } .done
/-- The effect `Jt`: `PC.SET t`. -/
def jump (t : Word) : Effect := .act { op := .pcSet t } .done
/-- `V(e)`. -/
def valid (e : Effect) : CpuInstr := .valid e false
/-- `V*(e)`. -/
def marked (e : Effect) : CpuInstr := .valid e true

/-- The reset block with a program and a PC. -/
def at' (p : Program) (pc : Word) : State := { placed [(.gpr, 15, pc)] with prog := p }

/-- The notifications of the wrap. -/
def wrapEvents : List Event := [.valueChanged .gpr 15 0 .gpr, .pcChanged 0 .gpr]

/-- Scenario D. -/
theorem test_step : gives (exec .step (at' [valid adv, valid adv, valid adv] 8)) .none
    (.clearHighlights .ctl :: .pcChanged 12 .gpr :: wrapEvents) = true := by decide
/-- C5, C8: no wrap after a failed step. -/
theorem test_step_invalid : (gives (exec .step (at' [valid adv, valid adv, valid adv] 6)) .none
      [.clearHighlights .ctl, .diagnostic .pcInvalid (.pc 6) .ctl] &&
    gives (exec .step (at' [valid adv, valid adv, valid adv] 12)) .none
      [.clearHighlights .ctl, .diagnostic .pcInvalid (.pc 12) .ctl]) = true := by decide
/-- Scenario E, C12. -/
theorem test_runbp : (gives (exec .runbp (at' [valid .done] 0)) .none [.clearHighlights .ctl] &&
    gives (exec .runbp (at' [marked adv, valid adv, marked adv, valid adv] 0)) .none
      [.clearHighlights .ctl, .pcChanged 4 .gpr, .pcChanged 8 .gpr]) = true := by decide
/-- C10. -/
theorem test_runbp_beyond : gives (exec .runbp (at' [valid adv, valid adv, valid adv] 12)) .none
    (.clearHighlights .ctl :: .diagnostic .pcInvalid (.pc 12) .ctl :: wrapEvents) = true := by decide
/-- C1, C14. -/
theorem test_runend : (gives (exec .runend (at' [valid adv, valid adv] 0)) .none
      (.clearHighlights .ctl :: .pcChanged 4 .gpr :: .pcChanged 8 .gpr :: wrapEvents) &&
    gives (exec .runend (at' [valid (jump 0)] 0)) .none (.clearHighlights .ctl :: wrapEvents)) = true := by
  decide
/-- Program 4: the error instruction is reported once and never run. -/
theorem test_runend_error : completes
    (exec .runend (at' [valid adv, .error "bad operand" [1, 4, 9], valid adv] 0))
    (fun t => holds t .gpr 15 4 && decide (t.ev = [.clearHighlights .ctl, .pcChanged 4 .gpr,
      .diagnostic .instructionError (.parse 4 "bad operand" [1, 4, 9]) .ctl])) = true := by decide
/-- C15 and program 3: under `FUEL = 4` the executor gives up after 4 step cores. -/
theorem test_run_out_of_fuel :
    exec .runend { at' [valid adv, valid (jump 0)] 0 with fuel := 4 } = .refused .fuelExhausted ∧
      exec .runbp { at' [valid adv, valid (jump 0)] 0 with fuel := 4 } = .refused .fuelExhausted := ⟨rfl, rfl⟩

/-- Program 2 of 95_test_vectors.md: a counted loop with a backward branch, a breakpoint and a halt. -/
def program2 : Program :=
  [valid (.act { op := .wsSet .gpr 0 3 true } adv),
   valid (.act { op := .wsGet .gpr 1 } (.act { op := .wsGet .gpr 0 }
     (.act { op := .wsSet .gpr 1 0 true, d := some (.add (.tmp 0) (.tmp 1)) } adv))),
   valid (.act { op := .wsGet .gpr 0 }
     (.act { op := .wsSet .gpr 0 0 true, d := some (.sub (.tmp 0) (.lit 1)) } adv)),
   marked (.act { op := .wsGet .gpr 0 } (.branch (.eq (.tmp 0) (.lit 0)) adv (jump 4))),
   valid .done]

/-- Program 2 with these values of `x[0]`, `x[1]` and the PC. -/
def program2At (x0 x1 pc : Word) : State :=
  { placed [(.gpr, 0, x0), (.gpr, 1, x1), (.gpr, 15, pc)] with prog := program2 }

/-- Its 2nd `RUNBP`: the breakpoint it starts on is run, the branch is taken, and it stops on it again. -/
theorem test_runbp_program2 : completes (exec .runbp (program2At 2 3 12)) (fun t =>
    holds t .gpr 0 1 && holds t .gpr 1 5 && holds t .gpr 15 12 && decide (t.ev =
      [.clearHighlights .ctl, .valueChanged .gpr 15 4 .gpr, .pcChanged 4 .gpr, .valueChanged .gpr 1 5 .gpr,
       .pcChanged 8 .gpr, .valueChanged .gpr 0 1 .gpr, .pcChanged 12 .gpr])) = true := by decide
/-- Its 4th `RUNBP` and its `RUNEND`: a stall at a valid instruction. -/
theorem test_stall_program2 : (gives (exec .runbp (program2At 0 6 12)) .none
      [.clearHighlights .ctl, .pcChanged 16 .gpr] &&
    gives (exec .runend (program2At 0 6 16)) .none [.clearHighlights .ctl]) = true := by decide
/-- C16. -/
theorem test_rstx : completes (exec .rstx (placed [(.gpr, 15, 12), (.gpr, 0, 5)]))
    (fun t => holds t .gpr 15 0 && holds t .gpr 0 5 && decide (t.ev = wrapEvents)) = true := by decide
/-- C17. -/
theorem test_rstm : completes (exec .rstm { placed [(.gpr, 4, 1), (.vec, 9, 2), (.status, 0, 3)] with
      mem := { n := 8, off := 3, cells := [] } })
    (fun t => decide (t.gpr = State.reset.gpr ∧ t.vec = State.reset.vec ∧ t.status = State.reset.status ∧
      t.mem = State.reset.mem ∧ t.ev.length = 116 ∧ t.ev[17]? = some (.settingsChanged 32 0 .mem))) = true := by
  decide
/-- C18: a fault in an effect is the command's. -/
theorem test_effect_fault : faults (exec .step (at' [valid (.act { op := .wsGet .gpr 16 } adv)] 0))
    (.addressing .gpr 16) = true := by decide
/-- Program 1, instruction 2: a later operand is an earlier answer. -/
theorem test_effect_operands : completes (runEffect (.act { op := .mRdv 16 2 }
      (.act { op := .wsSet .gpr 1 0 true, d := some (.tmp 0) } adv)) []
      (placed [(.mem, 0, 0x22334400), (.mem, 1, 0x11)]))
    (fun t => holds t .gpr 1 0x2233 && holds t .gpr 15 4) = true := by decide
/-- Program 2, instruction 3: the taken and the untaken branch. -/
theorem test_effect_branch :
    let e : Effect := .act { op := .wsGet .gpr 0 } (.branch (.eq (.tmp 0) (.lit 0)) adv (jump 4))
    (completes (runEffect e [] (at' [] 12)) (fun t => holds t .gpr 15 16) &&
      completes (runEffect e [] (placed [(.gpr, 0, 2), (.gpr, 15, 12)])) (fun t => holds t .gpr 15 4)) =
      true := by decide
/-- The step takes the front of the queue; an illegal word is refused with `F = 6` (E1). -/
theorem test_step_of_the_block : (completes (step (State.reset.withFetchWord 32 0x0C800000))
      (fun t => decide (t.ev.length = 17 ∧ t.queue = [])) &&
    decide (portF (step (State.reset.withFetchWord 32 0)) = some 6)) = true := by decide
/-- 20_memory.md R55, R56: a stored zero is not listed, and the lowest address is the lowest byte. -/
theorem test_memory_form : ((memSetWord State.reset.mem 1 0x00AB0001).cells = [(4, 1), (6, 0xAB)] ∧
    memSetWord (memSetWord State.reset.mem 1 0x00AB0001) 1 0 = State.reset.mem ∧
    cellRead [(4, 1), (6, 0xAB)] 5 = 0) := by decide
/-- 00_scope.md R9, R10. -/
theorem test_masks_and_views : (mask 32 = 0xFFFFFFFF ∧ mask 0 = 0 ∧ mask 5 = 0x1F ∧ sextView 8 0x80 = -128 ∧
    sextView 32 0xFFFFFFFF = -1 ∧ sextView 16 0x7FFF = 32767 ∧
    sextView64 0xFFFFFFFFFFFFFFFE = -2) := by decide

/-! ## Witnesses

For each statement with hypotheses, a state and operands that meet all of them, one for each clause, at a
boundary of its range where it has one. -/

theorem witness_EncodeOfDecodeIsTheCommandWord : decode ⟨0x1C0000FF, 3, 9, .empty⟩ = .ok (.wsRecv .gpr 255 3 9) := by
  rfl

theorem witness_DecodesExactlyTheTablesWords :
    ∃ t ∈ opcodeTable, t.selects 0x30FF7FFF = false ∧ t.selects 0x303F7FFF = true := by decide

/-- The queue holds one use of the port. -/
def queued (q : Request) : State := { State.reset with queue := [.command q] }

theorem witness_StepRunsTheDecodedOperation :
    (queued (encode (.wsGet .gpr 15))).queue = .command (encode (.wsGet .gpr 15)) :: [] ∧
      decode (encode (.wsGet .gpr 15)) = .ok (.wsGet .gpr 15) := ⟨rfl, rfl⟩

theorem witness_StepRefusesAnIllegalCommand :
    (queued (bareRequest 0x38000000)).queue = .command (bareRequest 0x38000000) :: [] ∧
      decode (bareRequest 0x38000000) = .error .unassignedOp := ⟨rfl, rfl⟩

theorem witness_StepBetweenOperations :
    ({ State.reset with queue := [.program [valid adv]] } : State).queue = .program [valid adv] :: [] ∧
      State.reset.queue = [] := ⟨rfl, rfl⟩

theorem reset_meets_the_invariant : State.reset.Inv :=
  ⟨⟨List.Pairwise.nil, by simp [State.reset]⟩, by simp [State.reset, Config.memMaxWords], rfl⟩

/-- A reachable state: the reset block with a use of the port queued; its step writes memory. -/
theorem witness_EveryStepKeepsTheInvariant :
    (queued (encode (.mWrw 1 0x11223344))).Inv ∧
      ∃ t, step (queued (encode (.mWrw 1 0x11223344))) = .next t ∧ t.ev ≠ [] :=
  ⟨reset_meets_the_invariant, _, rfl, by decide⟩

theorem witness_EveryStepExtendsTheTrace :
    ∃ t, step { queued (encode .rstx) with ev := [.clearHighlights .ctl] } = .next t := ⟨_, rfl⟩

theorem witness_NoOperationChangesTheProgram :
    ∃ t, exec .rstm { at' [valid adv] 8 with queue := [.program []] } = .next t := ⟨_, rfl⟩

theorem witness_ReadsChangeNothing : ∃ t, exec (.mRdv 16 3) m1 = .next t := ⟨_, rfl⟩

theorem witness_SignedViewOfAField : 1 ≤ (32 : Nat) ∧ (32 : Nat) ≤ 32 ∧ 1 ≤ (1 : Nat) := by decide

theorem witness_WsGetReturnsTheWord : peek .mem (31 : Word).toInt .reset = some 0 ∧
    peek .mem (32 : Word).toInt .reset = none ∧ peek .gpr (0xFFFFFFFF : Word).toInt .reset = none := by
  decide

theorem witness_WsSetWritesOneWord : inRange .status (1 : Word).toInt .reset = true ∧
    inRange .status (2 : Word).toInt .reset = false := by decide

theorem witness_ClearIsTheLoopOfSets : m1.mem.wf := by decide

/-- `b = 3` with every other field 0 (E7), and with every one of them set. -/
theorem witness_WsSetoffKeepsTheContent : (0x13000000 : Word) &&& 0xFF000000 = 0x13000000 ∧
    (0x13FFFFFF : Word) &&& 0xFF000000 = 0x13000000 ∧
    (queued (bareRequest 0x13FFFFFF)).queue = .command (bareRequest 0x13FFFFFF) :: [] := by decide

/-- W16, both ends of the new bounds, and a legal size. -/
theorem witness_WsDeserReplacesTheBank :
    (SparseMap.mk [(40, 1), (43, 2)] (some 40) (some 4)).wf = true ∧
      LoadOk .mem ⟨[(40, 1), (43, 2)], some 40, some 4⟩ .reset ∧
      LoadOk .gpr ⟨[(0, 1), (15, 2)], none, none⟩ .reset :=
  ⟨by decide, ⟨fun _ => ⟨by decide, by simp only [loadSize, if_true, Option.getD_some, Config.memMaxWords]; omega⟩,
    by decide⟩, ⟨(fun h => nomatch h), by decide⟩⟩

/-- A size above every `MEM_MAX_WORDS` is not legal, whichever that constant is. -/
theorem size_too_large : ¬ ((2 ^ 30 + 1 : Int) ≤ Config.memMaxWords) := by
  have h2 := Config.memMaxExtra.isLt
  simp only [Config.memMaxWords]
  omega

/-- The sizes -1 and 2^30 + 1, the first with a bad key beside it; with a legal size, a key at the bound and a
key below it. -/
theorem witness_WsDeserFaultsOutsideTheNewBounds :
    ¬ (0 ≤ (SparseMap.mk [(40, 1)] none (some (-1))).sizeW.getD 32) ∧
    ¬ ((SparseMap.mk [] none (some (2 ^ 30 + 1))).sizeW.getD 32 ≤ Config.memMaxWords) ∧
    (0 ≤ (SparseMap.mk [(4, 1)] none (some 4)).sizeW.getD 32 ∧
      (SparseMap.mk [(4, 1)] none (some 4)).sizeW.getD 32 ≤ Config.memMaxWords) ∧
    (∃ x ∈ (SparseMap.mk [(4, 1)] none (some 4)).entries,
      ¬ (x.1 - 0 < loadSize .mem ⟨[(4, 1)], none, some 4⟩ .reset)) ∧
    ∃ x ∈ (SparseMap.mk [(9, 1)] (some 10) none).entries, ¬ (0 ≤ x.1 - 10) :=
  ⟨by decide, size_too_large,
    ⟨by decide, by simp only [Option.getD_some, Config.memMaxWords]; omega⟩, by decide, by decide⟩

theorem witness_DeserializeOfSerializeRestoresTheBank : bankSize .mem m1 ≤ Config.memMaxWords := by
  show 32 ≤ Config.memMaxWords
  simp [Config.memMaxWords]

theorem witness_WsRecvSuppressesItsOwnEcho : (2 : BitVec 8) = (bankComponent .vec).token ∧
    (3 : BitVec 8) ≠ (bankComponent .vec).token ∧ inRange .vec (63 : Word).toInt .reset = true := by decide

theorem witness_QuadAndDoubleReads :
    peek .vec (4 * (15 : BitVec 8).toNat + 3) (placed [(.vec, 63, 7)]) = some 7 ∧
      peek .vec (4 * (15 : BitVec 8).toNat) (placed [(.vec, 63, 7)]) = some 0 ∧
      peek .vec (4 * (15 : BitVec 8).toNat + 1) (placed [(.vec, 63, 7)]) = some 0 ∧
      peek .vec (4 * (15 : BitVec 8).toNat + 2) (placed [(.vec, 63, 7)]) = some 0 ∧
      peek .vec (2 * (31 : BitVec 8).toNat) (placed [(.vec, 63, 7)]) = some 0 ∧
      peek .vec (2 * (31 : BitVec 8).toNat + 1) (placed [(.vec, 63, 7)]) = some 7 := by decide

theorem witness_QuadAndDoubleWrites :
    (∀ j : Nat, j < 4 → inRange .vec (4 * (15 : BitVec 8).toNat + j) State.reset = true) ∧
      ∀ j : Nat, j < 2 → inRange .vec (2 * (31 : BitVec 8).toNat + j) State.reset = true := by decide

/-- The first registers out of range; and, at an offset, a quad whose last word alone is. -/
theorem witness_QuadAndDoubleFaults :
    (∃ j : Nat, j < 4 ∧ inRange .vec (4 * (16 : BitVec 8).toNat + j) State.reset = false) ∧
      (∃ j : Nat, j < 2 ∧ inRange .vec (2 * (32 : BitVec 8).toNat + j) State.reset = false) ∧
      State.reset.vec.off = 0 ∧
      ∃ j : Nat, j < 4 ∧ inRange .vec (4 * (15 : BitVec 8).toNat + j) (setOffset .vec (-1) .reset) = false :=
  ⟨⟨0, by decide⟩, ⟨0, by decide⟩, rfl, ⟨3, by decide⟩⟩

/-- `V.GETE QUAD, 1, 15, 127` (V6): the last element. -/
theorem witness_ElementRead : (1 : BitVec 6).toNat ∈ [1, 2, 4, 8, 16, 32] ∧
    (1 : BitVec 6).toNat * (127 : BitVec 7).toNat < 32 * sizeClassWords .quad ∧
    peek .vec ((15 : BitVec 8).toNat * sizeClassWords .quad +
      ((1 : BitVec 6).toNat * (127 : BitVec 7).toNat / 32 : Nat)) .reset = some 0 := by decide

theorem witness_ElementWrite : (32 : BitVec 6).toNat ∈ [1, 2, 4, 8, 16, 32] ∧
    (32 : BitVec 6).toNat * (1 : BitVec 7).toNat < 32 * sizeClassWords .double ∧
    peek .vec ((31 : BitVec 8).toNat * sizeClassWords .double +
      ((32 : BitVec 6).toNat * (1 : BitVec 7).toNat / 32 : Nat)) .reset = some 0 := by decide

/-- Widths 0, 3 and 33; the first element past a double; the first word past the bank. -/
theorem witness_ElementFaultsInOrder : (0 : BitVec 6).toNat ∉ [1, 2, 4, 8, 16, 32] ∧
    (3 : BitVec 6).toNat ∉ [1, 2, 4, 8, 16, 32] ∧ (33 : BitVec 6).toNat ∉ [1, 2, 4, 8, 16, 32] ∧
    (8 : BitVec 6).toNat ∈ [1, 2, 4, 8, 16, 32] ∧
    32 * sizeClassWords .double ≤ (8 : BitVec 6).toNat * (8 : BitVec 7).toNat ∧
    (32 : BitVec 6).toNat * (0 : BitVec 7).toNat < 32 * sizeClassWords .quad ∧
    peek .vec ((16 : BitVec 8).toNat * sizeClassWords .quad +
      ((32 : BitVec 6).toNat * (0 : BitVec 7).toNat / 32 : Nat)) .reset = none := by decide

/-- V1 and V3's reads: adjoining ranges, one below and one above the byte written. -/
theorem witness_ElementWriteReadLaws :
    (∃ t, exec (.vSete .quad 8 1 5 0x7F) .reset = .next t) ∧
      (∃ u, exec (.vGete .double 8 2 4) .reset = .next u ∧ u.answer = .word 0) ∧
      (∃ u, exec (.vGete .double 16 2 3) .reset = .next u ∧ u.answer = .word 0) ∧
      32 * sizeClassWords .double * (2 : BitVec 8).toNat + (8 : BitVec 6).toNat * (4 : BitVec 7).toNat +
        (8 : BitVec 6).toNat ≤
        32 * sizeClassWords .quad * (1 : BitVec 8).toNat + (8 : BitVec 6).toNat * (5 : BitVec 7).toNat ∧
      32 * sizeClassWords .quad * (1 : BitVec 8).toNat + (8 : BitVec 6).toNat * (5 : BitVec 7).toNat +
        (8 : BitVec 6).toNat ≤
        32 * sizeClassWords .double * (2 : BitVec 8).toNat + (16 : BitVec 6).toNat * (3 : BitVec 7).toNat :=
  ⟨⟨_, rfl⟩, ⟨_, rfl, by decide⟩, ⟨_, rfl, by decide⟩, by decide, by decide⟩

theorem witness_ViewsOfOneStorage : (15 : Nat) < 16 ∧ (31 : Nat) < 32 ∧ (16 : Nat) ∈ [1, 2, 4, 8, 16] ∧
    (32 : Nat) ∈ [1, 2, 4, 8, 16, 32] ∧ (32 : Nat) * 3 < 128 := by decide

/-- The last aligned address (M16), and the last misaligned ones. -/
theorem witness_WordsMapped : WordsMapped (124 : Word).toNat m1 ∧ WordsMapped (121 : Word).toNat m1 ∧
    WordsMapped (123 : Word).toNat m1 := by
  simp only [WordsMapped]; decide

/-- For `WordReadIsFourBytes` and `WordWriteSetsFourBytes`. -/
theorem witness_WordReadIsFourBytes : WordsMapped (1 : Word).toNat m1 := by
  simp only [WordsMapped]; decide

/-- For `ValueReadMasksTheWord` and `ValueWriteReplacesTheLowBits`: the least and the greatest width. -/
theorem witness_ValueReadMasksTheWord : 1 ≤ (1 : BitVec 6).toNat ∧ (1 : BitVec 6).toNat ≤ 32 ∧
    1 ≤ (32 : BitVec 6).toNat ∧ (32 : BitVec 6).toNat ≤ 32 ∧ WordsMapped (123 : Word).toNat m1 := by
  simp only [WordsMapped]; decide

/-- Widths 0 and 33; M18, M17, and a misaligned narrow access in the last word. -/
theorem witness_MemoryFaultsInOrder : ¬ (1 ≤ (0 : BitVec 6).toNat ∧ (0 : BitVec 6).toNat ≤ 32) ∧
    ¬ (1 ≤ (33 : BitVec 6).toNat ∧ (33 : BitVec 6).toNat ≤ 32) ∧ ¬ WordsMapped (128 : Word).toNat m1 ∧
    ¬ WordsMapped (125 : Word).toNat m1 ∧ 1 ≤ (8 : BitVec 6).toNat ∧ (8 : BitVec 6).toNat ≤ 32 := by
  simp only [WordsMapped]; decide

theorem witness_MemoryWriteReadLaws : (∃ t, exec (.mWrw 3 0x11223344) m1 = .next t) ∧
    (∃ t, exec (.mWrv 24 6 0) m1 = .next t) ∧ (24 : BitVec 6).toNat = 8 * 3 ∧ (124 : Word).toNat % 4 = 0 :=
  ⟨⟨_, rfl⟩, ⟨_, rfl⟩, by decide, by decide⟩

/-- M20; M24's size 0 and the default 32 from another size; M23, and a size above every `MEM_MAX_WORDS`. -/
theorem witness_ResizeClearsTheMemory : (32 : Word).toInt = m1.mem.n ∧
    ((0 : Word).toInt ≠ m1.mem.n ∧ 0 ≤ (0 : Word).toInt ∧ (0 : Word).toInt ≤ Config.memMaxWords) ∧
    ¬ (0 ≤ (0xFFFFFFFF : Word).toInt ∧ (0xFFFFFFFF : Word).toInt ≤ Config.memMaxWords) ∧
    ¬ (0 ≤ (0x40000001 : Word).toInt ∧ (0x40000001 : Word).toInt ≤ Config.memMaxWords) := by
  refine ⟨by decide, ⟨by decide, by decide, Int.natCast_nonneg _⟩, by decide, fun h => ?_⟩
  have h2 := Config.memMaxExtra.isLt
  have h1 := h.2
  rw [show (0x40000001 : Word).toInt = 0x40000001 by decide] at h1
  simp only [Config.memMaxWords] at h1
  omega

theorem witness_MemoryReoffsetClearsTheMemory : (0 : Word).toInt = m1.mem.off ∧
    (0xFFFFFFFF : Word).toInt ≠ m1.mem.off := by decide

/-- External index 15 is in range at offset 0 and 15, and is not at offset 16 or -1. -/
theorem witness_ProgramCounterHelpers : PcReadable .reset ∧ PcReadable (setOffset .gpr 15 .reset) ∧
    ¬ PcReadable (setOffset .gpr 16 .reset) ∧ ¬ PcReadable (setOffset .gpr (-1) .reset) := by
  simp only [PcReadable]; decide

theorem witness_SnapshotIsTheBanksSerialized :
    (∃ i v, peek .status i (placed [(.status, 1, 5)]) = some v ∧ v ≠ 0) ∧
      ∀ i v, peek .status i State.reset = some v → v = 0 := by
  refine ⟨⟨1, 5, by decide⟩, fun i v h => ?_⟩
  rw [← (peek_eq_some.mp h).2]
  exact replicate_getD 2 _

/-- A map with a key no new bounds can hold fails its check. -/
theorem not_loadOk {b : Bank} {i : Int} {v : Word} {s : State}
    (h : ¬ (0 ≤ i - 0 ∧ i - 0 < loadSize b ⟨[(i, v)], none, none⟩ s)) :
    ¬ LoadOk b ⟨[(i, v)], none, none⟩ s :=
  fun hl => h (hl.2 (i, v) (by simp))

/-- P9's snapshot passes the checks; P11's fails the first, and one map fails each of the other three, its key the
first out of range, while the empty records before it pass. -/
theorem witness_RestoreIsFourLoads :
    (LoadOk .gpr ⟨[(0, 7)], none, none⟩ .reset ∧ LoadOk .gpr .empty .reset ∧ LoadOk .mem .empty .reset ∧
      LoadOk .vec .empty .reset ∧ LoadOk .status .empty .reset) ∧
    ¬ LoadOk .gpr ⟨[(16, 1)], none, none⟩ .reset ∧ ¬ LoadOk .mem ⟨[(32, 1)], none, none⟩ .reset ∧
    ¬ LoadOk .vec ⟨[(64, 1)], none, none⟩ .reset ∧ ¬ LoadOk .status ⟨[(2, 1)], none, none⟩ .reset :=
  ⟨⟨⟨(fun h => nomatch h), by decide⟩, loadOk_empty _ _, loadOk_empty _ _, loadOk_empty _ _, loadOk_empty _ _⟩,
    not_loadOk (by decide), not_loadOk (by decide), not_loadOk (by decide), not_loadOk (by decide)⟩

/-- The status bank used, and unused at an offset. -/
theorem witness_RestoreOfSnapshotRestoresEveryBank :
    bankSize .mem State.reset ≤ Config.memMaxWords ∧
      (∃ i v, peek .status i (setOffset .status 10 (placed [(.status, 0, 7)])) = some v ∧ v ≠ 0) ∧
      ∀ i v, peek .status i (setOffset .status 10 .reset) = some v → v = 0 := by
  refine ⟨by show 32 ≤ Config.memMaxWords; simp [Config.memMaxWords], ⟨10, 7, by decide⟩, fun i v h => ?_⟩
  rw [← (peek_eq_some.mp h).2]
  exact replicate_getD 2 _

/-! Controller witnesses. -/

/-- External index 15 out of range; C5 (misaligned), C8 (at the end), and an error instruction (program 4). -/
theorem witness_FailedStepOnlyReports :
    ¬ PcReadable (setOffset .gpr 16 .reset) ∧
      (PcReadable (at' [valid adv] 6) ∧ (pcOf (at' [valid adv] 6)).toNat % 4 ≠ 0) ∧
      (PcReadable (at' [valid adv] 4) ∧ (at' [valid adv] 4).prog.length ≤ (pcOf (at' [valid adv] 4)).toNat / 4) ∧
      (pcOf (at' [.error "bad operand" [1, 4, 9]] 0)).toNat % 4 = 0 ∧
      (at' [.error "bad operand" [1, 4, 9]] 0).prog[(pcOf (at' [.error "bad operand" [1, 4, 9]] 0)).toNat / 4]? =
        some (.error "bad operand" [1, 4, 9]) := by
  simp only [PcReadable]; exact ⟨by decide, by decide, by decide, by decide, rfl⟩

/-- An effect that puts external index 15 out of range of `GPR`. -/
def losePc : Effect := .act { op := .wsSetoff .gpr 16 } .done

/-- An effect that faults (C18). -/
def faulty : Effect := .act { op := .wsGet .gpr 16 } adv

/-- The state of a run on `p` at `pc` after the events `es`. -/
def running (p : Program) (pc : Word) (es : List Event) : State :=
  { at' p pc with ctl := .stepping, ev := .clearHighlights .ctl :: es }

theorem pcOf_running (p : Program) (pc : Word) (es : List Event) : pcOf (running p pc es) = pc := rfl

/-- One turn of a run: `PC.ADV` at instruction 0, and the loop goes on to instruction 1, which is no breakpoint. -/
theorem first_turn (b : Bool) (i : CpuInstr) (h : ∀ e, i ≠ .valid e true) :
    Turns b 1 (inCommand (at' [valid adv, i] 0)) (running [valid adv, i] 4 [.pcChanged 4 .gpr]) := by
  have h0 : pcOf (inCommand (at' [valid adv, i] 0)) = 0 := rfl
  refine .turn (t := running [valid adv, i] 4 [.pcChanged 4 .gpr])
    ⟨⟨adv, ⟨rfl, by rw [h0]; rfl, false, by rw [h0]; rfl⟩, rfl⟩, rfl, ?_, ?_, ?_, fun _ e he => ?_⟩ (.refl _)
  · exact (by decide : (4 : Word) ≠ 0)
  · rw [pcOf_running]; decide
  · rw [pcOf_running]; exact (by decide : (4 : Word).toNat / 4 < 2)
  · rw [pcOf_running] at he; exact h e (Option.some.inj he)

/-- What a run's first effect needs: a readable, aligned PC at a valid instruction. -/
def Ready (s : State) (e : Effect) (bp : Bool) : Prop :=
  PcReadable s ∧ (pcOf s).toNat % 4 = 0 ∧ s.prog[(pcOf s).toNat / 4]? = some (.valid e bp)

/-- C1's program at its first instruction (inside) and at its last (the wrap). -/
theorem witness_StepRunsTheEffectThenWraps :
    (Ready (at' [valid adv, valid adv] 0) adv false ∧ ∃ u,
      runEffect adv [] (inCommand (at' [valid adv, valid adv] 0)) = .next u ∧ PcReadable u ∧
        (pcOf u).toNat / 4 < 2) ∧
      Ready (at' [valid adv, valid adv] 4) adv false ∧ ∃ u,
        runEffect adv [] (inCommand (at' [valid adv, valid adv] 4)) = .next u ∧ PcReadable u ∧
          2 ≤ (pcOf u).toNat / 4 := by
  simp only [Ready, PcReadable]
  exact ⟨⟨⟨by decide, by decide, rfl⟩, _, rfl, by decide, by decide⟩,
    ⟨by decide, by decide, rfl⟩, _, rfl, by decide, by decide⟩

/-- Its first clause: the effect moves the PC out of range. -/
theorem witness_StepRunsTheEffectThenWraps_lostPc :
    AtValid (at' [valid losePc] 0) losePc ∧ ∃ u,
      runEffect losePc [] (inCommand (at' [valid losePc] 0)) = .next u ∧ ¬ PcReadable u := by
  simp only [PcReadable]
  exact ⟨⟨rfl, rfl, false, rfl⟩, _, rfl, by decide⟩

theorem witness_EffectsActOnTheBanksOnly : (∃ t, runEffect adv [.word 3] .reset = .next t) ∧
    Instr.pcAdv.isCommand = false ∧ (actionInstr [] { op := .pcSet 0, a := some (.lit 4) }).isCommand = false ∧
    (actionInstr [] { op := .rstm }).isCommand = true := ⟨⟨_, rfl⟩, rfl, rfl, rfl⟩

/-- The first instruction (C18, no turn before it), and a later one (after one turn): the effect faults, or moves
the PC out of range. -/
theorem witness_FaultInAnEffectEndsTheCommand :
    (AtValid (at' [valid faulty] 0) faulty ∧
      runEffect faulty [] (inCommand (at' [valid faulty] 0)) = .fault (.addressing .gpr 16)) ∧
    (1 < (at' [valid adv, valid faulty] 0).fuel ∧ (∀ b, Turns b 1 (inCommand (at' [valid adv, valid faulty] 0))
        (running [valid adv, valid faulty] 4 [.pcChanged 4 .gpr])) ∧
      AtValid (running [valid adv, valid faulty] 4 [.pcChanged 4 .gpr]) faulty ∧
      runEffect faulty [] (running [valid adv, valid faulty] 4 [.pcChanged 4 .gpr]) =
        .fault (.addressing .gpr 16)) ∧
    (∀ b, Turns b 1 (inCommand (at' [valid adv, valid losePc] 0))
      (running [valid adv, valid losePc] 4 [.pcChanged 4 .gpr])) ∧
    AtValid (running [valid adv, valid losePc] 4 [.pcChanged 4 .gpr]) losePc ∧
    ∃ v, runEffect losePc [] (running [valid adv, valid losePc] 4 [.pcChanged 4 .gpr]) = .next v ∧
      ¬ PcReadable v := by
  refine ⟨⟨⟨rfl, rfl, false, rfl⟩, rfl⟩,
    ⟨by decide, fun b => first_turn b _ (by simp [valid]), ⟨rfl, rfl, false, rfl⟩, rfl⟩,
    fun b => first_turn b _ (by simp [valid]), ⟨rfl, rfl, false, rfl⟩, _, rfl, ?_⟩
  simp only [PcReadable]; decide

/-- Each of the four ends after no turn: Scenario E's stall, a jump to 2, a run off the end, a breakpoint. -/
theorem witness_RunToBreakpointEndsAfterOneStep :
    0 < (at' [valid .done] 0).fuel ∧ (∃ u, LastTurn true (inCommand (at' [valid .done] 0)) u) ∧
    (∃ u, LastTurn true (inCommand (at' [valid (jump 2)] 0)) u) ∧
    (∃ u, LastTurn true (inCommand (at' [valid adv] 0)) u) ∧
    ∃ u, LastTurn true (inCommand (at' [valid adv, marked adv] 0)) u := by
  refine ⟨by decide, ⟨_, ⟨.done, ⟨rfl, rfl, false, rfl⟩, rfl⟩, rfl, .inl rfl⟩,
    ⟨_, ⟨jump 2, ⟨rfl, rfl, false, rfl⟩, rfl⟩, rfl, .inr (.inl (by decide))⟩,
    ⟨_, ⟨adv, ⟨rfl, rfl, false, rfl⟩, rfl⟩, rfl, .inr (.inr (.inl (by decide)))⟩,
    ⟨_, ⟨adv, ⟨rfl, rfl, false, rfl⟩, rfl⟩, rfl, .inr (.inr (.inr ⟨rfl, adv, rfl⟩))⟩⟩

/-- After one turn: a stall at a valid instruction (both runs), its wrap not due; a run off the end, its wrap due. -/
theorem witness_RunToBreakpointEndsAfterOneStep_later : 1 < (at' [valid adv, valid .done] 0).fuel ∧
    (∀ b, Turns b 1 (inCommand (at' [valid adv, valid .done] 0))
        (running [valid adv, valid .done] 4 [.pcChanged 4 .gpr]) ∧
      ∃ v, LastTurn b (running [valid adv, valid .done] 4 [.pcChanged 4 .gpr]) v ∧
        (pcOf v).toNat / 4 < v.prog.length) ∧
    ∀ b, Turns b 1 (inCommand (at' [valid adv, valid adv] 0))
        (running [valid adv, valid adv] 4 [.pcChanged 4 .gpr]) ∧
      ∃ v, LastTurn b (running [valid adv, valid adv] 4 [.pcChanged 4 .gpr]) v ∧
        v.prog.length ≤ (pcOf v).toNat / 4 :=
  ⟨by decide,
    fun b => ⟨first_turn b _ (by simp [valid]), _, ⟨⟨.done, ⟨rfl, rfl, false, rfl⟩, rfl⟩, rfl, .inl rfl⟩, by decide⟩,
    fun b => ⟨first_turn b _ (by simp [valid]), _,
      ⟨⟨adv, ⟨rfl, rfl, false, rfl⟩, rfl⟩, rfl, .inr (.inr (.inl (by decide)))⟩, by decide⟩⟩

/-- The clause on `FUEL`: no fuel, and as many turns as `FUEL` allows. -/
theorem witness_RunToBreakpointEndsAfterOneStep_fuel :
    (∀ s : State, Turns true { s with fuel := 0 }.fuel (inCommand { s with fuel := 0 })
      (inCommand { s with fuel := 0 })) ∧
    ∀ b, 0 < { at' [valid adv, valid .done] 0 with fuel := 1 }.fuel ∧
      Turns b { at' [valid adv, valid .done] 0 with fuel := 1 }.fuel
        (inCommand { at' [valid adv, valid .done] 0 with fuel := 1 })
        { running [valid adv, valid .done] 4 [.pcChanged 4 .gpr] with fuel := 1 } :=
  ⟨fun _ => .refl _, fun _ => ⟨by decide,
    .turn ⟨⟨adv, ⟨rfl, rfl, false, rfl⟩, rfl⟩, rfl, by decide, by decide, by decide,
      fun _ _ h => by cases h⟩ (.refl _)⟩⟩

/-- The clause on error instructions: at once (no turn), and after one turn (program 4). -/
theorem witness_RunToBreakpointEndsAfterOneStep_error :
    (∀ b, Turns b 0 (inCommand (at' [.error "m" [7]] 0)) (inCommand (at' [.error "m" [7]] 0))) ∧
    (1 < (at' [valid adv, .error "m" [7]] 0).fuel ∧ ∀ b, Turns b 1 (inCommand (at' [valid adv, .error "m" [7]] 0))
      (running [valid adv, .error "m" [7]] 4 [.pcChanged 4 .gpr])) ∧
    PcReadable (running [valid adv, .error "m" [7]] 4 [.pcChanged 4 .gpr]) ∧
    (pcOf (running [valid adv, .error "m" [7]] 4 [.pcChanged 4 .gpr])).toNat % 4 = 0 ∧
    (running [valid adv, .error "m" [7]] 4 []).prog[
      (pcOf (running [valid adv, .error "m" [7]] 4 [.pcChanged 4 .gpr])).toNat / 4]? = some (.error "m" [7]) :=
  ⟨fun _ => .refl _, ⟨by decide, fun b => first_turn b _ (by simp)⟩, rfl, rfl, rfl⟩

/-- External index 15 out of range; C6 (misaligned, inside) and C9 (aligned, beyond). -/
theorem witness_RunsAtAnInvalidPc :
    ¬ PcReadable (setOffset .gpr 16 .reset) ∧ 0 < (setOffset .gpr 16 .reset).fuel ∧
    0 < (at' [valid adv, valid adv, valid adv] 6).fuel ∧
    (PcReadable (at' [valid adv, valid adv, valid adv] 6) ∧
      (pcOf (at' [valid adv, valid adv, valid adv] 6)).toNat % 4 ≠ 0) ∧
    PcReadable (at' [valid adv, valid adv, valid adv] 12) ∧
      (at' [valid adv, valid adv, valid adv] 12).prog.length ≤
        (pcOf (at' [valid adv, valid adv, valid adv] 12)).toNat / 4 := by
  simp only [PcReadable]; decide

theorem exists_of_completes {x : Res State} {p : State → Bool} (h : completes x p = true) : ∃ t, x = .next t := by
  cases x with
  | next t => exact ⟨t, rfl⟩
  | fault r => cases h
  | refused r => cases h

theorem witness_RunsLeaveThePcInTheProgram :
    (∃ t, exec .runbp (at' [marked adv, marked adv] 0) = .next t) ∧
      ∃ t, exec .runend (at' [valid adv] 0) = .next t :=
  ⟨exists_of_completes (p := fun _ => true) (by decide),
    exists_of_completes (p := fun _ => true) (by decide)⟩

/-- `PC.ADV` moves the PC by 4 (43_machine_state_ops.md R132). -/
theorem adv_advances : Advances adv := by
  intro s t h ht
  obtain ⟨u, hu, pu, -, -⟩ := bankSet_spec (pcOf s + 4) false h
  simp only [adv, runEffect, actionInstr, execOperation, execPcAdv, readPc_eq h, andThen_next, hu, complete] at ht
  cases ht
  exact ⟨(peek_eq_some.mp pu).1, (peek_eq_some.mp pu).2⟩

/-- C1's program, to its end, and with an error instruction after it. -/
theorem witness_StraightLineProgramRunsToItsEnd :
    let s := at' [valid adv, valid adv, .error "m" [7]] 0
    PcReadable s ∧ (pcOf s).toNat = 4 * 0 ∧ s.prog.length ≤ 2 ^ 29 ∧ s.prog.length ≤ s.fuel ∧
      s.prog.drop 0 = [(adv, false), (adv, false)].map (fun x => .valid x.1 x.2) ++ [.error "m" [7]] ∧
      (at' [valid adv, valid adv] 0).prog.drop 0 =
        [(adv, false), (adv, false)].map (fun x => .valid x.1 x.2) ++ [] ∧
      (∀ x ∈ [(adv, false), (adv, false)], Advances x.1) ∧
      ∃ u, runEffects ([(adv, false), (adv, false)].map Prod.fst) (inCommand s) = .next u := by
  simp only [PcReadable]
  refine ⟨by decide, by decide, by decide, by decide, rfl, rfl, fun x hx => ?_, _, rfl⟩
  simp only [List.mem_cons, List.not_mem_nil, or_false, or_self] at hx
  rw [hx]; exact adv_advances

/-- C12's program. -/
theorem witness_RunStopsAtTheFirstBreakpoint :
    let s := at' [marked adv, valid adv, marked adv, valid adv] 0
    PcReadable s ∧ (pcOf s).toNat = 4 * 0 ∧ s.prog.length ≤ 2 ^ 29 ∧ s.prog.length ≤ s.fuel ∧
      s.prog.drop 0 = .valid adv true :: ([adv].map (fun e => .valid e false) ++ .valid adv true :: [valid adv]) ∧
      (∀ e ∈ adv :: [adv], Advances e) ∧ ∃ u, runEffects (adv :: [adv]) (inCommand s) = .next u := by
  simp only [PcReadable]
  refine ⟨by decide, by decide, by decide, by decide, rfl, fun e he => ?_, _, rfl⟩
  simp only [List.mem_cons, List.not_mem_nil, or_false, or_self] at he
  rw [he]; exact adv_advances

/-- C12's program at its last instruction. -/
theorem witness_AdvancingProgramCommandsComplete :
    let s := at' [marked adv, valid adv, marked adv, valid adv] 12
    PcReadable s ∧ (pcOf s).toNat % 4 = 0 ∧ (pcOf s).toNat / 4 < s.prog.length ∧ s.prog.length ≤ 2 ^ 29 ∧
      s.prog.length ≤ s.fuel ∧ ∀ i ∈ s.prog, ∃ bp, i = .valid (.act { op := .pcAdv } .done) bp := by
  simp only [PcReadable]
  refine ⟨by decide, by decide, by decide, by decide, by decide, fun i hi => ?_⟩
  simp only [at', marked, valid, List.mem_cons, List.not_mem_nil, or_false] at hi
  rcases hi with h | h | h | h <;> exact ⟨_, h⟩

theorem witness_ResetExecutionZeroesThePc : PcReadable .reset ∧ ¬ PcReadable (setOffset .gpr 16 .reset) :=
  ⟨witness_ProgramCounterHelpers.1, witness_ProgramCounterHelpers.2.2.1⟩

end Sys2Proof.Tests
end

section
/-! Proofs of the statements on 00_scope.md: the inputs of the block are kept (R16), the signed view of a field
(R10), and the ends of a run under `FUEL` (R7, R18). -/

namespace Sys2Proof.Machine

/-! The inputs -/

/-- Every operation keeps the inputs: its primitive changes do, and so do the bounds of a command. -/
theorem exec_keeps_inputs {i : Instr} {s t : State} (h : exec i s = .next t) :
    t.prog = s.prog ∧ t.queue = s.queue ∧ t.fuel = s.fuel := by
  rcases exec_changes h with ⟨-, hc⟩ | ⟨u, -, hc, rfl⟩
  · exact (changes_context hc).2
  · exact (changes_context hc).2

/-- Settles O12: an operation is a chain of primitive changes, none of which touches an input. -/
theorem noOperationChangesTheProgram : Obligations.NoOperationChangesTheProgram :=
  fun _ _ _ h => exec_keeps_inputs h

/-! The signed view -/

/-- Masking is cutting to `k` bits and extending with zeros (00_scope.md R8, R9). -/
theorem and_mask_eq_setWidth (v : Word) (k : Nat) : v &&& mask k = (v.setWidth k).setWidth 32 :=
  word_ext fun j hj => by rw [getLsbD_and_mask]; simp [hj]

theorem toNat_and_mask (v : Word) {k : Nat} (hk : k ≤ 32) : (v &&& mask k).toNat = (v.setWidth k).toNat := by
  rw [and_mask_eq_setWidth, BitVec.toNat_setWidth_of_le hk]

/-- The sign of the low `k` bits is bit `k - 1` of the word. -/
theorem msb_setWidth_eq_getLsbD (v : Word) {k : Nat} (hk : 1 ≤ k) :
    (v.setWidth k).msb = v.getLsbD (k - 1) := by
  rw [BitVec.msb_eq_getLsbD_last, BitVec.getLsbD_setWidth, decide_eq_true (by omega), Bool.true_and]

/-- Settles O16: two's complement of the low `k` bits, whose sign is bit `k - 1` and whose value the mask keeps. -/
theorem signedViewOfAField : Obligations.SignedViewOfAField := by
  intro k v h1 h32
  rw [sextView, BitVec.toInt_eq_msb_cond, msb_setWidth_eq_getLsbD v h1, toNat_and_mask v h32]
  push_cast
  rfl

/-! A run command after some turns of its loop -/

/-- `RUNBP` after `n` turns, with fuel for `f` step cores more (44_controller_commands.md R145). -/
theorem execRunbp_turns {n f : Nat} {s u : State} (h : Turns true n (inCommand s) u) (hf : s.fuel = f + n) :
    exec .runbp s = andThen (runbpLoop f u) fun t => andThen (wrapPc t) endCommand := by
  rw [← runbpLoop_turns h, ← hf]; rfl

/-- `RUNEND` after `n` turns, with fuel for `f` step cores more (44_controller_commands.md R146). -/
theorem execRunend_turns {n f : Nat} {s u : State} (h : Turns false n (inCommand s) u) (hf : s.fuel = f + n) :
    exec .runend s = andThen (runendLoop f u) fun t => andThen (wrapPc t) endCommand := by
  rw [← runendLoop_turns h, ← hf]; rfl

/-- Below `FUEL` turns there is fuel for one step core more. -/
theorem exists_fuel_left {n : Nat} {s : State} (hn : n < s.fuel) : ∃ f, s.fuel = (f + 1) + n :=
  ⟨s.fuel - n - 1, by omega⟩

/-- A last turn is an executed step core. -/
theorem LastTurn.stepCore_eq {b : Bool} {s t : State} (h : LastTurn b s t) : stepCore s = .next (true, t) := by
  obtain ⟨⟨e, he, hr⟩, -⟩ := h
  obtain ⟨-, -, hc⟩ := he.spec
  rw [hc, hr, andThen_next]

/-- A last turn leaves the PC readable, so the command can wrap it and end. -/
theorem LastTurn.pcReadable {b : Bool} {s t : State} (h : LastTurn b s t) : PcReadable t := by
  obtain ⟨-, ht, -⟩ := h
  exact ht

theorem execRunbp_last {n : Nat} {s u v : State} (hn : n < s.fuel) (h : Turns true n (inCommand s) u)
    (hl : LastTurn true u v) : exec .runbp s = andThen (wrapPc v) endCommand := by
  obtain ⟨f, hf⟩ := exists_fuel_left hn
  rw [execRunbp_turns h hf, runbpLoop_last hl, andThen_next]

theorem execRunend_last {n : Nat} {s u v : State} (hn : n < s.fuel) (h : Turns false n (inCommand s) u)
    (hl : LastTurn false u v) : exec .runend s = andThen (wrapPc v) endCommand := by
  obtain ⟨f, hf⟩ := exists_fuel_left hn
  rw [execRunend_turns h hf, runendLoop_last hl, andThen_next]

/-- `STEP` whose one step executes is that step and the wrap (44_controller_commands.md R144). -/
theorem execStep_executed {s u : State} (h : stepCore (inCommand s) = .next (true, u)) :
    exec .step s = andThen (wrapPc u) endCommand := by
  change execStep s = _
  rw [execStep, beginRun_eq, h, andThen_next, if_pos rfl]

/-! A run command at an error instruction -/

section
variable {s u : State} {msg : String} {span : List Nat} (hr : PcReadable u) (ha : (pcOf u).toNat % 4 = 0)
  (hi : u.prog[(pcOf u).toNat / 4]? = some (.error msg span))
include hr ha hi

/-- `RUNBP`'s loop reports the error and ends by the stall (44_controller_commands.md R145). -/
theorem runbpLoop_error (f : Nat) : runbpLoop (f + 1) u =
    .next (diagnose .instructionError (.parse (pcOf u) msg span) u) :=
  have hd := sameBanks_diagnose .instructionError (.parse (pcOf u) msg span) u
  runbpLoop_exit hr (stepCore_error hr ha hi) ((pcReadable_congr hd).mpr hr) (.inl (pcOf_congr hd))

/-- `RUNEND`'s loop reports the error and ends by the stall (44_controller_commands.md R146). -/
theorem runendLoop_error (f : Nat) : runendLoop (f + 1) u =
    .next (diagnose .instructionError (.parse (pcOf u) msg span) u) := by
  have hd := sameBanks_diagnose .instructionError (.parse (pcOf u) msg span) u
  have he : existsAt (pcOf u) u = true := (existsAt_eq _ _).mpr ⟨ha, (List.getElem?_eq_some_iff.mp hi).1⟩
  rw [runendLoop_turn hr he (stepCore_error hr ha hi) ((pcReadable_congr hd).mpr hr), if_pos (pcOf_congr hd)]

omit ha in
/-- The error instruction lies inside the program, so nothing wraps after its report. -/
theorem wrapPc_diagnosed_error :
    andThen (wrapPc (diagnose .instructionError (.parse (pcOf u) msg span) u)) endCommand =
      .next (afterCommand (diagnose .instructionError (.parse (pcOf u) msg span) u)) := by
  have hd := sameBanks_diagnose .instructionError (.parse (pcOf u) msg span) u
  have hl : (pcOf u).toNat / 4 < u.prog.length := (List.getElem?_eq_some_iff.mp hi).1
  rw [wrapPc_inside ((pcReadable_congr hd).mpr hr) (by rwa [pcOf_congr hd]), andThen_next, endCommand_eq]

theorem execRunbp_error {n : Nat} (hn : n < s.fuel) (h : Turns true n (inCommand s) u) : exec .runbp s =
    .next (afterCommand (diagnose .instructionError (.parse (pcOf u) msg span) u)) := by
  obtain ⟨f, hf⟩ := exists_fuel_left hn
  rw [execRunbp_turns h hf, runbpLoop_error hr ha hi, andThen_next, wrapPc_diagnosed_error hr hi]

theorem execRunend_error {n : Nat} (hn : n < s.fuel) (h : Turns false n (inCommand s) u) : exec .runend s =
    .next (afterCommand (diagnose .instructionError (.parse (pcOf u) msg span) u)) := by
  obtain ⟨f, hf⟩ := exists_fuel_left hn
  rw [execRunend_turns h hf, runendLoop_error hr ha hi, andThen_next, wrapPc_diagnosed_error hr hi]

end

/-! A run command that makes `FUEL` turns (93_implementation_defined.md U6) -/

theorem execRunbp_exhausted {s u : State} (h : Turns true s.fuel (inCommand s) u) :
    exec .runbp s = .refused .fuelExhausted := by
  rw [execRunbp_turns h (Nat.zero_add _).symm, runbpLoop, andThen_refused]

theorem execRunend_exhausted {s u : State} (h0 : 0 < s.fuel) (h : Turns false s.fuel (inCommand s) u) :
    exec .runend s = .refused .fuelExhausted := by
  obtain ⟨hr, he⟩ := h.exists h0
  rw [execRunend_turns h (Nat.zero_add _).symm, runendLoop_exhausted hr he, andThen_refused]

/-- Settles O53: after `n` turns the loop stands at `u` with the rest of the fuel; there it makes a last turn,
stalls on an error instruction, or has no fuel left. -/
theorem runToBreakpointEndsAfterOneStep : Obligations.RunToBreakpointEndsAfterOneStep := by
  refine ⟨fun s u hf hl => ?firstStep, fun n s u v hn h hl => ?runbp, fun n s u v hn h hl => ?runend,
    fun n s u msg span hn hr ha hi => ?errorInstruction,
    fun s u => ⟨execRunbp_exhausted, execRunend_exhausted⟩⟩
  case firstStep =>
    obtain ⟨t, ht, -⟩ := wrapPc_endCommand hl.pcReadable
    have hb : exec .runbp s = andThen (wrapPc u) endCommand := execRunbp_last hf (.refl _) hl
    exact ⟨hb.trans (execStep_executed hl.stepCore_eq).symm, t, hb.trans ht⟩
  case runbp => exact execRunbp_last hn h hl ▸ wrapPc_endCommand hl.pcReadable
  case runend => exact execRunend_last hn h hl ▸ wrapPc_endCommand hl.pcReadable
  case errorInstruction =>
    exact ⟨_, (sameBanks_diagnose ..).trans (sameBanks_afterCommand _), rfl, rfl, rfl, rfl, rfl,
      execRunbp_error hr ha hi hn, execRunend_error hr ha hi hn⟩

end Sys2Proof.Machine
end

section
/-! Proofs of the statements on 10_state.md: the invariant of R33 and R36, the growth of the trace (R40, R43), the
reading operations (R45), and the independence of every outcome from the trace and the last answer (R34, R40). -/

namespace Sys2Proof.Machine

/-! The invariant and the trace -/

/-- Settles O9: memory after power-on has no byte listed and 32 words, the least `MEM_MAX_WORDS` there is. -/
theorem powerOnMeetsTheInvariant : Obligations.PowerOnMeetsTheInvariant :=
  ⟨⟨List.Pairwise.nil, List.forall_mem_nil _⟩, Nat.le_add_left 32 _, rfl⟩

/-- Everything a step that completes can be: the idle step, a program edit, or a decoded operation. -/
theorem step_eq_next {s t : State} (h : step s = .next t) :
    (s.queue = [] ∧ t = s) ∨
    (∃ p rest, s.queue = .program p :: rest ∧ t = { s with prog := p, queue := rest }) ∨
    ∃ q rest i, s.queue = .command q :: rest ∧ decode q = .ok i ∧ exec i { s with queue := rest } = .next t := by
  unfold step at h
  split at h
  case h_1 hq => cases h; exact .inl ⟨hq, rfl⟩
  case h_2 p rest hq => cases h; exact .inr (.inl ⟨p, rest, hq, rfl⟩)
  case h_3 q rest hq =>
    split at h
    case h_1 i hd => exact .inr (.inr ⟨q, rest, i, hq, hd, h⟩)
    case h_2 => cases h

/-- Every operation keeps the invariant: its primitive changes keep the memory's, and a command ends `Idle`. -/
theorem exec_keeps_inv {i : Instr} {s t : State} (hs : s.Inv) (h : exec i s = .next t) : t.Inv := by
  obtain ⟨hw, hn, hi⟩ := hs
  rcases exec_changes h with ⟨-, hc⟩ | ⟨u, -, hc, rfl⟩
  · obtain ⟨hw', hn'⟩ := changes_memory hc hw hn
    exact ⟨hw', hn', (changes_context hc).1.trans hi⟩
  · obtain ⟨hw', hn'⟩ := changes_memory hc hw hn
    exact ⟨hw', hn', rfl⟩

/-- Settles O10: only a decoded operation touches the memory or the controller. -/
theorem everyStepKeepsTheInvariant : Obligations.EveryStepKeepsTheInvariant := by
  intro s t hs h
  rcases step_eq_next h with ⟨-, rfl⟩ | ⟨p, rest, -, rfl⟩ | ⟨q, rest, i, -, -, hi⟩
  · exact hs
  · exact hs
  · exact exec_keeps_inv (s := { s with queue := rest }) hs hi

/-- Every operation only appends to the trace, because each of its primitive changes does. -/
theorem exec_extends_trace {i : Instr} {s t : State} (h : exec i s = .next t) : s.ev <+: t.ev := by
  rcases exec_changes h with ⟨-, hc⟩ | ⟨u, -, hc, rfl⟩
  · exact changes_trace hc
  · have ht : (beginCommand s).ev <+: u.ev := changes_trace hc
    exact ht

/-- Settles O11: only a decoded operation emits, and what it emits it appends. -/
theorem everyStepExtendsTheTrace : Obligations.EveryStepExtendsTheTrace := by
  intro s t h
  rcases step_eq_next h with ⟨-, rfl⟩ | ⟨p, rest, -, rfl⟩ | ⟨q, rest, i, -, -, hi⟩
  · exact List.prefix_refl _
  · exact List.prefix_refl _
  · exact exec_extends_trace (s := { s with queue := rest }) hi

/-! The reading operations -/

/-- What completes at once in `s` changes the answer alone. -/
theorem onlyAnswer_of_complete {a : Answer} {s t : State} (h : complete a s = .next t) :
    t = { s with answer := t.answer } := by
  rw [complete_eq_next] at h; subst h; rfl

/-- A checked answer from `s` changes the answer alone. -/
theorem onlyAnswer_of_unlessFault {c : Option Fault} {a : Answer} {s t : State}
    (h : unlessFault c (complete a s) = .next t) : t = { s with answer := t.answer } :=
  onlyAnswer_of_complete (unlessFault_eq_next.mp h).2

/-- A value read first and then answered from `s` changes the answer alone. -/
theorem onlyAnswer_of_andThen {α : Type} {x : Res α} {f : α → Answer} {s t : State}
    (h : (andThen x fun v => complete (f v) s) = .next t) : t = { s with answer := t.answer } := by
  obtain ⟨v, -, hv⟩ := andThen_eq_next.mp h
  exact onlyAnswer_of_complete hv

/-- Settles O14: each of the nine only answers, at once or after a check or a read of the same state. -/
theorem readsChangeNothing : Obligations.ReadsChangeNothing := by
  intro i s t hi h
  cases i with
  | wsGet b a => exact onlyAnswer_of_andThen h
  | wsSer b => exact onlyAnswer_of_complete h
  | vGetq r => exact onlyAnswer_of_unlessFault h
  | vGetd r => exact onlyAnswer_of_unlessFault h
  | vGete c w r e => exact onlyAnswer_of_unlessFault h
  | mRdw a => exact onlyAnswer_of_andThen h
  | mRdv w a => exact onlyAnswer_of_andThen h
  | pcGet => exact onlyAnswer_of_andThen h
  | msSnap => exact onlyAnswer_of_complete h
  | _ => exact hi.elim

/-! Outcomes that agree -/

/-- Both complete with values related by `R`, or both stop for the same reason. -/
def Agree {α β : Type} (R : α → β → Prop) : Res α → Res β → Prop
  | .next a, .next b => R a b
  | .fault r, .fault r' => r = r'
  | .refused r, .refused r' => r = r'
  | _, _ => False

theorem agree_iff {α β : Type} {R : α → β → Prop} {x : Res α} {y : Res β} :
    Agree R x y ↔ (∃ a b, x = .next a ∧ y = .next b ∧ R a b) ∨ (∃ r, x = .fault r ∧ y = .fault r) ∨
      ∃ r, x = .refused r ∧ y = .refused r := by
  cases x <;> cases y <;> simp [Agree, eq_comm]

/-- The sequencing rule: related values, then rests that agree on related values. -/
theorem Agree.bind {α β γ δ : Type} {R : α → β → Prop} {Q : γ → δ → Prop} {x : Res α} {y : Res β}
    {f : α → Res γ} {g : β → Res δ} (h : Agree R x y) (hf : ∀ a b, R a b → Agree Q (f a) (g b)) :
    Agree Q (andThen x f) (andThen y g) := by
  rcases agree_iff.mp h with ⟨a, b, rfl, rfl, hab⟩ | ⟨r, rfl, rfl⟩ | ⟨r, rfl, rfl⟩
  · exact hf a b hab
  · exact rfl
  · exact rfl

/-- After one and the same first part, it is enough that the rests agree. -/
theorem agree_andThen {α γ δ : Type} {Q : γ → δ → Prop} (x : Res α) {f : α → Res γ} {g : α → Res δ}
    (hf : ∀ a, Agree Q (f a) (g a)) : Agree Q (andThen x f) (andThen x g) := by
  cases x with
  | next a => exact hf a
  | fault r => exact rfl
  | refused r => exact rfl

theorem agree_unlessFault {α β : Type} {R : α → β → Prop} (c : Option Fault) {x : Res α} {y : Res β}
    (h : Agree R x y) : Agree R (unlessFault c x) (unlessFault c y) := by
  cases c with
  | none => exact h
  | some r => exact rfl

theorem agree_ite {α β : Type} {R : α → β → Prop} (c : Prop) [Decidable c] {x x' : Res α} {y y' : Res β}
    (h : Agree R x y) (h' : Agree R x' y') : Agree R (if c then x else x') (if c then y else y') := by
  split
  · exact h
  · exact h'

/-! States that differ in the trace and the answer -/

/-- The state with the events `es` before its trace. -/
def prependTrace (es : List Event) (s : State) : State := { s with ev := es ++ s.ev }

/-- The states differ in these events alone. -/
def Prepended (es : List Event) (s u : State) : Prop := u = prependTrace es s

/-- `u` is `s` with the events `es` before its trace and with any last answer. Whatever a meaning reads of `u` (a
bank, the program, `FUEL`) is then by definition what it reads of `s`. -/
def Retraced (es : List Event) (s u : State) : Prop := ∃ a, u = setAnswer a (prependTrace es s)

theorem Prepended.retraced {es : List Event} {s u : State} (h : Prepended es s u) : Retraced es s u :=
  ⟨s.answer, h⟩

/-- Once an operation completes, the old answer is gone and only the trace differs. -/
theorem agree_complete {es : List Event} {s u : State} (h : Retraced es s u) (x : Answer) :
    Agree (Prepended es) (complete x s) (complete x u) := by
  obtain ⟨a, rfl⟩ := h; exact rfl

/-- Changes that agree, and then the end of the operation. -/
theorem Agree.thenComplete {es : List Event} {x y : Res State} (h : Agree (Retraced es) x y) (a : Answer) :
    Agree (Prepended es) (andThen x (complete a)) (andThen y (complete a)) :=
  h.bind fun _ _ ht => agree_complete ht a

theorem retraced_ite {es : List Event} {s s' u u' : State} (c : Prop) [Decidable c] (h : Retraced es s u)
    (h' : Retraced es s' u') : Retraced es (if c then s else s') (if c then u else u') := by
  split
  · exact h
  · exact h'

section
variable {es : List Event} {s u : State} (h : Retraced es s u)
include h

/-! What changes a state changes a retraced one alike. The proofs that open with `obtain ⟨a, rfl⟩ := id h` write `u`
out and keep `h`: the checks, reads and tests made of `u` are then those made of `s` by unfolding, and only the
changes are left to relate. -/

theorem Retraced.emitAll (xs : List Event) : Retraced es (emitAll xs s) (emitAll xs u) := by
  obtain ⟨a, rfl⟩ := h
  refine ⟨a, ?_⟩
  simp [Machine.emitAll, setAnswer, prependTrace]

theorem Retraced.emit (e : Event) : Retraced es (emit e s) (emit e u) := h.emitAll [e]

theorem Retraced.setCtl (c : CtlState) : Retraced es (setCtl c s) (setCtl c u) := by
  obtain ⟨a, rfl⟩ := h; exact ⟨a, rfl⟩

theorem Retraced.setSlot (b : Bank) (k : Nat) (v : Word) : Retraced es (setSlot b k v s) (setSlot b k v u) := by
  obtain ⟨a, rfl⟩ := h; cases b <;> exact ⟨a, rfl⟩

theorem Retraced.setOffset (b : Bank) (o : Int) : Retraced es (setOffset b o s) (setOffset b o u) := by
  obtain ⟨a, rfl⟩ := h; cases b <;> exact ⟨a, rfl⟩

theorem Retraced.zeroBank (b : Bank) : Retraced es (zeroBank b s) (zeroBank b u) := by
  obtain ⟨a, rfl⟩ := h; cases b <;> exact ⟨a, rfl⟩

theorem Retraced.remapBank (b : Bank) (n : Nat) (o : Int) :
    Retraced es (remapBank b n o s) (remapBank b n o u) := by
  obtain ⟨a, rfl⟩ := h; cases b <;> exact ⟨a, rfl⟩

theorem Retraced.putWord (b : Bank) (i : Int) (v : Word) : Retraced es (putWord b i v s) (putWord b i v u) := by
  obtain ⟨a, rfl⟩ := id h
  exact h.setSlot b _ v

theorem agree_bankSet (b : Bank) (i : Int) (v : Word) (n : Bool) :
    Agree (Retraced es) (bankSet b i v n s) (bankSet b i v n u) := by
  obtain ⟨a, rfl⟩ := id h
  exact agree_unlessFault _ ((h.putWord b i v).emitAll _)

theorem Retraced.notifyAll (b : Bank) (n : Bool) :
    Retraced es (Machine.emitAll (bankEvents b n s) s) (Machine.emitAll (bankEvents b n u) u) := by
  obtain ⟨a, rfl⟩ := id h
  exact h.emitAll _

theorem Retraced.bankClear (b : Bank) (n : Bool) : Retraced es (bankClear b n s) (bankClear b n u) :=
  (h.zeroBank b).notifyAll b n

theorem Retraced.remapMemory (k : Nat) (o : Int) (n m : Bool) :
    Retraced es (remapMemory k o n m s) (remapMemory k o n m u) := by
  have hr := h.remapBank .mem k o
  cases n with
  | false => exact hr.bankClear .mem m
  | true => exact (hr.emit _).bankClear .mem m

theorem agree_writeWord (x : Nat) (v : Word) : Agree (Retraced es) (writeWord x v s) (writeWord x v u) := by
  obtain ⟨a, rfl⟩ := id h
  exact agree_ite _ (agree_bankSet h ..) <| agree_andThen _ fun lo => agree_andThen _ fun hi =>
    (agree_bankSet h ..).bind fun _ _ h' => agree_bankSet h' ..

theorem Retraced.loadEntries (b : Bank) (o : Int) (xs : List (Int × Word)) :
    Retraced es (loadEntries b o xs s) (loadEntries b o xs u) := by
  induction xs generalizing s u with
  | nil => exact h
  | cons x xs ih => exact ih (h.setSlot b _ x.2)

theorem Retraced.loadMap (b : Bank) (p : SparseMap) : Retraced es (loadMap b p s) (loadMap b p u) := by
  have hl := (h.remapBank b (loadSize b p s).toNat (p.offsetW.getD 0)).loadEntries b (p.offsetW.getD 0) p.entries
  obtain ⟨a, rfl⟩ := h
  exact (retraced_ite _ (hl.emit _) hl).notifyAll b true

theorem Retraced.restore (p : Snapshot) : Retraced es (restore p s) (restore p u) :=
  (((h.loadMap ..).loadMap ..).loadMap ..).loadMap ..

theorem agree_msRest (p : Snapshot) : Agree (Prepended es) (execMsRest p s) (execMsRest p u) := by
  obtain ⟨a, rfl⟩ := id h
  exact agree_unlessFault _ (agree_complete (h.restore p) .none)

/-- The 25 operations read the banks alone, and each sets the answer when it completes; a command is refused. -/
theorem agree_execOperation (i : Instr) : Agree (Prepended es) (execOperation i s) (execOperation i u) := by
  obtain ⟨a, rfl⟩ := id h
  cases i with
  | wsGet b a => exact agree_andThen _ fun v => agree_complete h _
  | wsSet b a d n => exact (agree_bankSet h ..).thenComplete _
  | wsClear b n => exact agree_complete (h.bankClear b n) _
  | wsSetoff b a => exact agree_complete (h.setOffset ..) _
  | wsSer b => exact agree_complete h _
  | wsDeser b p => exact agree_unlessFault _ (agree_complete (h.loadMap b p) _)
  | wsRecv b r a d => exact agree_ite _ (agree_complete h _) ((agree_bankSet h ..).thenComplete _)
  | vGetq r => exact agree_unlessFault _ (agree_complete h _)
  | vSetq r d n =>
    exact agree_unlessFault _ <| (agree_bankSet h ..).bind fun _ _ h0 => (agree_bankSet h0 ..).bind fun _ _ h1 =>
      (agree_bankSet h1 ..).bind fun _ _ h2 => (agree_bankSet h2 ..).thenComplete _
  | vGetd r => exact agree_unlessFault _ (agree_complete h _)
  | vSetd r d n =>
    exact agree_unlessFault _ <| (agree_bankSet h ..).bind fun _ _ h0 => (agree_bankSet h0 ..).thenComplete _
  | vGete c w r e => exact agree_unlessFault _ (agree_complete h _)
  | vSete c w r e d => exact agree_unlessFault _ ((agree_bankSet h ..).thenComplete _)
  | mRdw a => exact agree_andThen _ fun v => agree_complete h _
  | mWrw a d => exact (agree_writeWord h ..).thenComplete _
  | mRdv w a => exact agree_andThen _ fun v => agree_complete h _
  | mWrv w a d =>
    exact (agree_unlessFault _ (agree_andThen _ fun old => agree_writeWord h ..)).thenComplete _
  | mResize a n m => exact agree_ite _ (agree_complete h _) (agree_ite _ (agree_complete (h.remapMemory ..) _) rfl)
  | mSetoff a n m => exact agree_ite _ (agree_complete h _) (agree_complete (h.remapMemory ..) _)
  | pcGet => exact agree_andThen _ fun v => agree_complete h _
  | pcSet a => exact (agree_bankSet h ..).thenComplete _
  | pcAdv => exact agree_andThen _ fun p => (agree_bankSet h ..).thenComplete _
  | msSnap => exact agree_complete h _
  | msRest p => exact agree_msRest h p
  | msHilite b a d => exact agree_complete (h.emit _) _
  | step => exact rfl
  | runbp => exact rfl
  | runend => exact rfl
  | rstx => exact rfl
  | rstm => exact rfl

/-- An effect sees only the answers of its own operations. -/
theorem agree_runEffect (e : Effect) (ts : List Answer) :
    Agree (Retraced es) (runEffect e ts s) (runEffect e ts u) := by
  induction e generalizing ts s u with
  | done => exact h
  | act x e ih =>
    refine (agree_execOperation h _).bind fun t v hv => ?_
    obtain rfl : v = prependTrace es t := hv
    exact ih (Prepended.retraced rfl) _
  | branch c e f ihe ihf => exact agree_ite _ (ihe h ts) (ihf h ts)

/-! The controller -/

theorem Retraced.readPc : readPc u = readPc s := by obtain ⟨a, rfl⟩ := h; rfl

theorem Retraced.findInstr (p : Word) : findInstr p u = findInstr p s := by obtain ⟨a, rfl⟩ := h; rfl

theorem Retraced.fuel : u.fuel = s.fuel := by obtain ⟨a, rfl⟩ := h; rfl

theorem agree_stepCore :
    Agree (fun x y => x.1 = y.1 ∧ Retraced es x.2 y.2) (stepCore s) (stepCore u) := by
  unfold stepCore
  rw [h.readPc]
  refine agree_andThen _ fun p => ?_
  rw [h.findInstr p]
  cases findInstr p s with
  | failed kind info => exact ⟨rfl, h.emit _⟩
  | run e => exact (agree_runEffect h e []).bind fun t v hv => ⟨rfl, hv⟩

theorem agree_wrapPc : Agree (Retraced es) (wrapPc s) (wrapPc u) := by
  obtain ⟨a, rfl⟩ := id h
  exact agree_andThen _ fun p => agree_ite _ (agree_bankSet h ..) h

theorem agree_runbpLoop (f : Nat) : Agree (Retraced es) (runbpLoop f s) (runbpLoop f u) := by
  induction f generalizing s u with
  | zero => exact rfl
  | succ f ih =>
    have hcore := agree_stepCore h
    obtain ⟨a, rfl⟩ := h
    refine agree_andThen _ fun old => hcore.bind fun ⟨_, t⟩ ⟨_, v⟩ ⟨_, ht⟩ => ?_
    obtain ⟨a', rfl⟩ := id ht
    exact agree_andThen _ fun new => agree_ite _ ht (ih ht)

theorem agree_runendLoop (f : Nat) : Agree (Retraced es) (runendLoop f s) (runendLoop f u) := by
  induction f generalizing s u with
  | zero =>
    obtain ⟨a, rfl⟩ := id h
    exact agree_andThen _ fun p => agree_ite _ rfl h
  | succ f ih =>
    have hcore := agree_stepCore h
    obtain ⟨a, rfl⟩ := id h
    refine agree_andThen _ fun old => agree_ite _ (hcore.bind fun ⟨_, t⟩ ⟨_, v⟩ ⟨_, ht⟩ => ?_) h
    obtain ⟨a', rfl⟩ := id ht
    exact agree_andThen _ fun new => agree_ite _ ht (ih ht)

theorem agree_endCommand : Agree (Prepended es) (endCommand s) (endCommand u) :=
  agree_complete (h.setCtl .idle) _

theorem agree_wrapPc_endCommand :
    Agree (Prepended es) (andThen (wrapPc s) endCommand) (andThen (wrapPc u) endCommand) :=
  (agree_wrapPc h).bind fun _ _ ht => agree_endCommand ht

theorem Retraced.beginCommand : Retraced es (beginCommand s) (beginCommand u) := h.setCtl .stepping

theorem Retraced.beginRun : Retraced es (beginRun s) (beginRun u) := h.beginCommand.emit _

/-- The outcomes of each of the 30 operations differ in the trace alone. -/
theorem agree_exec (i : Instr) : Agree (Prepended es) (exec i s) (exec i u) := by
  cases i with
  | step =>
    refine (agree_stepCore h.beginRun).bind fun ⟨_, t⟩ ⟨_, v⟩ ⟨hb, ht⟩ => ?_
    obtain rfl := hb
    exact agree_ite _ (agree_wrapPc_endCommand ht) (agree_endCommand ht)
  | runbp =>
    have hl := agree_runbpLoop h.beginRun s.fuel
    exact Agree.bind (h.fuel ▸ hl) fun _ _ ht => agree_wrapPc_endCommand ht
  | runend =>
    have hl := agree_runendLoop h.beginRun s.fuel
    exact Agree.bind (h.fuel ▸ hl) fun _ _ ht => agree_wrapPc_endCommand ht
  | rstx => exact (agree_bankSet h.beginCommand ..).bind fun _ _ ht => agree_endCommand ht
  | rstm => exact (agree_msRest h.beginCommand .empty).bind fun _ _ ht => agree_endCommand ht.retraced
  | _ =>
    rw [exec_operation rfl, exec_operation rfl]
    exact agree_execOperation h _

end

/-- Settles O13: a state with another past and another answer is retraced, and so is every outcome. -/
theorem theTraceIsNeverRead : Obligations.TheTraceIsNeverRead := by
  intro i s es a
  have h : Retraced es s { s with ev := es ++ s.ev, answer := a } := ⟨a, rfl⟩
  rcases agree_iff.mp (agree_exec h i) with ⟨t, u, hx, hy, htu⟩ | ⟨r, hx, hy⟩ | ⟨r, hx, hy⟩
  · rw [hx, hy]; exact htu
  · rw [hx, hy]
  · rw [hx, hy]

end Sys2Proof.Machine
end

section
/-! Proofs of the statements on 20_memory.md: the faults of the four memory accesses and their order (R61). -/

namespace Sys2Proof.Machine

/-! The width check (42_memory_ops.md R122, R123) -/

theorem valueWidthFault_legal {k : Nat} (h : 1 ≤ k ∧ k ≤ 32) : valueWidthFault k = none :=
  if_pos (decide_eq_true h)

theorem valueWidthFault_illegal {k : Nat} (h : ¬ (1 ≤ k ∧ k ≤ 32)) : valueWidthFault k = some (.width k) :=
  if_neg (by rwa [legalValueWidth, decide_eq_true_iff])

/-! A value access faults by its width, else as the read of its word does -/

theorem readValue_illegal {a k : Nat} {s : State} (h : ¬ (1 ≤ k ∧ k ≤ 32)) :
    readValue a k s = .fault (.width k) := by
  rw [readValue, valueWidthFault_illegal h, unlessFault_some]

theorem writeValue_illegal {a k : Nat} {s : State} (v : Word) (h : ¬ (1 ≤ k ∧ k ≤ 32)) :
    writeValue a v k s = .fault (.width k) := by
  rw [writeValue, valueWidthFault_illegal h, unlessFault_some]

theorem readValue_unmapped {a k : Nat} {s : State} (hk : 1 ≤ k ∧ k ≤ 32) (h : ¬ WordsMapped a s) :
    readValue a k s = .fault (.addressing .mem (unmappedIndex a s)) := by
  rw [readValue, valueWidthFault_legal hk, unlessFault_none, readWord_unmapped h, andThen_fault]

theorem writeValue_unmapped {a k : Nat} {s : State} (v : Word) (hk : 1 ≤ k ∧ k ≤ 32) (h : ¬ WordsMapped a s) :
    writeValue a v k s = .fault (.addressing .mem (unmappedIndex a s)) := by
  rw [writeValue, valueWidthFault_legal hk, unlessFault_none, readWord_unmapped h, andThen_fault]

/-! Each operation faults as its access does -/

section
variable {w : BitVec 6} {a : Word} {s : State} {r : Fault}

theorem execMRdw_fault (h : readWord a.toNat s = .fault r) : exec (.mRdw a) s = .fault r := by
  change execMRdw a s = _
  rw [execMRdw, unsignedA, h, andThen_fault]

theorem execMWrw_fault {d : Word} (h : writeWord a.toNat d s = .fault r) : exec (.mWrw a d) s = .fault r := by
  change execMWrw a d s = _
  rw [execMWrw, unsignedA, h, andThen_fault]

theorem execMRdv_fault (h : readValue a.toNat w.toNat s = .fault r) : exec (.mRdv w a) s = .fault r := by
  change execMRdv w a s = _
  rw [execMRdv, unsignedA, h, andThen_fault]

theorem execMWrv_fault {d : Word} (h : writeValue a.toNat d w.toNat s = .fault r) :
    exec (.mWrv w a d) s = .fault r := by
  change execMWrv w a d s = _
  rw [execMWrv, unsignedA, h, andThen_fault]

end

/-- Settles O39: the width is checked before any word is read, and every access reads its first word, then at a
misaligned address the next, before it masks or writes anything. -/
theorem memoryFaultsInOrder : Obligations.MemoryFaultsInOrder := by
  intro w a d s
  refine ⟨fun hw => ⟨?_, ?_⟩, fun hm => ⟨unmappedIndex a.toNat s, rfl, ?_, ?_, fun h1 h32 => ⟨?_, ?_⟩⟩⟩
  · exact execMRdv_fault (readValue_illegal hw)
  · exact execMWrv_fault (writeValue_illegal d hw)
  · exact execMRdw_fault (readWord_unmapped hm)
  · exact execMWrw_fault (writeWord_unmapped d hm)
  · exact execMRdv_fault (readValue_unmapped ⟨h1, h32⟩ hm)
  · exact execMWrv_fault (writeValue_unmapped d ⟨h1, h32⟩ hm)

end Sys2Proof.Machine
end

section
/-! Proofs of the statements on 30_encoding.md: encoding and decoding are inverse on the legal words (R77 to R81,
R84), the decoder accepts the opcode table's words (R80 to R82), a step runs what it decodes (R76), and the PC
helpers are bank accesses (R88). -/

namespace Sys2Proof

/-! The operation an encoded use names -/

/-- The decoder reads back the fields and the buses of every operation (30_encoding.md R78, R80). -/
theorem decodeFields_fields (i : Instr) : decodeFields i.fields i.busA i.busD i.busP = .ok i := by
  cases i with
  | wsGet b a => exact Laws.FieldsRead.wsGet b a
  | wsSet b a d n => exact Laws.FieldsRead.wsSet b a d n
  | wsClear b n => exact Laws.FieldsRead.wsClear b n
  | wsSetoff b a => exact Laws.FieldsRead.wsSetoff b a
  | wsSer b => exact Laws.FieldsRead.wsSer b
  | wsDeser b p => exact Laws.FieldsRead.wsDeser b p
  | wsRecv b r a d => exact Laws.FieldsRead.wsRecv b r a d
  | vGetq r => exact Laws.FieldsRead.vGetq r
  | vSetq r d n => exact Laws.FieldsRead.vSetq r d n
  | vGetd r => exact Laws.FieldsRead.vGetd r
  | vSetd r d n => exact Laws.FieldsRead.vSetd r d n
  | vGete c w r e => exact Laws.FieldsRead.vGete c w r e
  | vSete c w r e d => exact Laws.FieldsRead.vSete c w r e d
  | mRdw a => exact Laws.FieldsRead.mRdw a
  | mWrw a d => exact Laws.FieldsRead.mWrw a d
  | mRdv w a => exact Laws.FieldsRead.mRdv w a
  | mWrv w a d => exact Laws.FieldsRead.mWrv w a d
  | mResize a n m => exact Laws.FieldsRead.mResize a n m
  | mSetoff a n m => exact Laws.FieldsRead.mSetoff a n m
  | pcGet => exact Laws.FieldsRead.pcGet
  | pcSet a => exact Laws.FieldsRead.pcSet a
  | pcAdv => exact Laws.FieldsRead.pcAdv
  | msSnap => exact Laws.FieldsRead.msSnap
  | msRest p => exact Laws.FieldsRead.msRest p
  | msHilite b a d => exact Laws.FieldsRead.msHilite b a d
  | step => exact Laws.FieldsRead.step
  | runbp => exact Laws.FieldsRead.runbp
  | runend => exact Laws.FieldsRead.runend
  | rstx => exact Laws.FieldsRead.rstx
  | rstm => exact Laws.FieldsRead.rstm

/-- Settles O2: a word is split into the fields it was joined from, and these decode to the operation. -/
theorem decodeOfEncodeIsTheOperation : Obligations.DecodeOfEncodeIsTheOperation := by
  intro i
  rw [decode, encode, splitFields_joinFields, decodeFields_fields]

/-! The rows of the opcode map: `op` and the fields R78 lists -/

/-- The fields R78 lists beside `op` for the operation of an `op` value; none where R80 assigns none. -/
def usesOfOp (op : BitVec 6) : Option Uses :=
  match op.toNat with
  | 0x01 | 0x04 | 0x05 | 0x06 | 0x1D => some { b := true }
  | 0x02 | 0x03 => some { b := true, n := true }
  | 0x07 => some { b := true, r := true }
  | 0x08 | 0x0A => some { r := true }
  | 0x09 | 0x0B => some { n := true, r := true }
  | 0x0C | 0x0D => some { c := true, w := true, e := true, r := true }
  | 0x12 | 0x13 => some { w := true }
  | 0x14 | 0x15 => some { n := true, m := true }
  | 0x10 | 0x11 | 0x18 | 0x19 | 0x1A | 0x1B | 0x1C | 0x20 | 0x21 | 0x22 | 0x23 | 0x24 => some {}
  | _ => none

/-- Bit masks over the fields one by one. -/
def Fields.and (f g : Fields) : Fields where
  op := f.op &&& g.op
  b := f.b &&& g.b
  n := f.n && g.n
  m := f.m && g.m
  c := f.c && g.c
  w := f.w &&& g.w
  e := f.e &&& g.e
  r := f.r &&& g.r

/-- All bits of a field that is reserved, none of one that is used. -/
def reservedBits (used : Bool) (n : Nat) : BitVec n := if used then 0 else BitVec.allOnes n

/-- What a row of the opcode table compares: `op` and the fields R78 does not list (R81). -/
def Uses.compared (u : Uses) : Fields where
  op := BitVec.allOnes 6
  b := reservedBits u.b 2
  n := !u.n
  m := !u.m
  c := !u.c
  w := reservedBits u.w 6
  e := reservedBits u.e 7
  r := reservedBits u.r 8

theorem and_reservedBits_eq_zero {n : Nat} (x : BitVec n) (used : Bool) :
    x &&& reservedBits used n = 0 ↔ (used || decide (x = 0)) = true := by
  cases used <;> simp [reservedBits]

theorem and_not_eq_false (x used : Bool) : (x && !used) = false ↔ (used || !x) = true := by
  cases used <;> simp

theorem splitFields_and (v w : Word) : splitFields (v &&& w) = (splitFields v).and (splitFields w) := by
  simp [splitFields, Fields.and, BitVec.extractLsb'_and]

/-- Masking a word and comparing it are done field by field, since joining loses nothing. -/
theorem and_joinFields_eq (cmd : Word) (f g : Fields) :
    cmd &&& joinFields f = joinFields g ↔ (splitFields cmd).and f = g := by
  have hand : splitFields (cmd &&& joinFields f) = (splitFields cmd).and f := by
    rw [splitFields_and, splitFields_joinFields]
  constructor
  · intro h; rw [← hand, h, splitFields_joinFields]
  · rintro rfl; rw [← hand, joinFields_splitFields]

/-- A row's comparison holds of the fields with its `op` and its reserved fields 0 (R81). -/
theorem and_compared_eq_opField (f : Fields) (u : Uses) (op : BitVec 6) :
    f.and u.compared = opField op ↔ f.op = op ∧ f.reservedZero u = true := by
  simp only [Fields.and, Uses.compared, opField, Fields.mk.injEq, BitVec.and_allOnes, and_reservedBits_eq_zero,
    and_not_eq_false, Fields.reservedZero, Bool.and_eq_true, and_assoc]

/-- The `op` value of a row of the opcode table, in bits 31:26 (30_encoding.md R77). -/
def TableRow.op (t : TableRow) : BitVec 6 := t.pattern.extractLsb' 26 6

/-- A row's match is its `op` value, its mask is `op` and the reserved fields of the operation (R81). -/
theorem opcodeTable_row : ∀ t ∈ opcodeTable, ∃ u, usesOfOp t.op = some u ∧
    t.pattern = joinFields (opField t.op) ∧ t.mask = joinFields u.compared := by
  decide

/-- Every assigned `op` value has its row (R80). -/
theorem exists_row_of_usesOfOp : ∀ op : BitVec 6, (usesOfOp op).isSome → ∃ t ∈ opcodeTable, t.op = op := by
  decide

theorem nodup_op_opcodeTable : (opcodeTable.map TableRow.op).Nodup := by
  decide

/-- A word selects a row when it has the row's `op` and its reserved fields are 0. -/
theorem selects_iff {t : TableRow} (ht : t ∈ opcodeTable) (cmd : Word) :
    t.selects cmd = true ↔ (splitFields cmd).op = t.op ∧
      ∃ u, usesOfOp t.op = some u ∧ (splitFields cmd).reservedZero u = true := by
  obtain ⟨u, hu, hp, hm⟩ := opcodeTable_row t ht
  simp [TableRow.selects, hp, hm, hu, and_joinFields_eq, and_compared_eq_opField]

/-- A word selects some row when its `op` value is assigned and the fields reserved there are 0. -/
theorem exists_selects_iff (cmd : Word) :
    (∃ t ∈ opcodeTable, t.selects cmd = true) ↔
      ∃ u, usesOfOp (splitFields cmd).op = some u ∧ (splitFields cmd).reservedZero u = true := by
  constructor
  · rintro ⟨t, ht, hs⟩
    obtain ⟨hop, hu⟩ := (selects_iff ht cmd).mp hs
    rwa [hop]
  · rintro ⟨u, hu, hz⟩
    obtain ⟨t, ht, hop⟩ := exists_row_of_usesOfOp _ (Option.isSome_of_mem hu)
    exact ⟨t, ht, (selects_iff ht cmd).mpr ⟨hop.symm, u, hop ▸ hu, hz⟩⟩

/-- Two rows that a word selects have its `op` value, and no two rows share one. -/
theorem eq_of_selects {t u : TableRow} (ht : t ∈ opcodeTable) (hu : u ∈ opcodeTable) {cmd : Word}
    (hst : t.selects cmd = true) (hsu : u.selects cmd = true) : t = u :=
  List.inj_on_of_nodup_map nodup_op_opcodeTable ht hu
    (((selects_iff ht cmd).mp hst).1.symm.trans ((selects_iff hu cmd).mp hsu).1)

/-! `WS.SETOFF` with `b = 3` -/

/-- `op` is that of `WS.SETOFF` and `b` is 3 (40_wordstorage_ops.md R103). -/
def Fields.isSetoffMem (f : Fields) : Prop := f.op = 0x04 ∧ f.b = 3

theorem and_eq_setoffMem_iff (cmd : Word) : cmd &&& 0xFF000000 = 0x13000000 ↔ (splitFields cmd).isSetoffMem := by
  have hm : (0xFF000000 : Word) = joinFields { opField (BitVec.allOnes 6) with b := BitVec.allOnes 2 } := by decide
  have hp : (0x13000000 : Word) = joinFields { opField 0x04 with b := 3 } := by decide
  rw [hm, hp, and_joinFields_eq]
  simp only [Fields.and, opField, Fields.isSetoffMem, Fields.mk.injEq, BitVec.and_allOnes,
    BitVec.ofNat_eq_ofNat, BitVec.and_zero, Bool.and_false, and_true]

/-! All that the decoder can answer -/

/-- A field that is used as it stands, a reserved one 0. -/
def keptBits {n : Nat} (used : Bool) (x : BitVec n) : BitVec n := if used then x else 0

/-- The fields with those `u` reserves set to 0 (R81). -/
def Fields.kept (f : Fields) (u : Uses) : Fields where
  op := f.op
  b := keptBits u.b f.b
  n := u.n && f.n
  m := u.m && f.m
  c := u.c && f.c
  w := keptBits u.w f.w
  e := keptBits u.e f.e
  r := keptBits u.r f.r

theorem keptBits_eq_self_iff {n : Nat} (used : Bool) (x : BitVec n) :
    keptBits used x = x ↔ (used || decide (x = 0)) = true := by
  cases used <;> simp [keptBits, eq_comm (a := 0#n)]

theorem and_eq_right_iff_reserved (used x : Bool) : (used && x) = x ↔ (used || !x) = true := by
  cases used <;> cases x <;> decide

theorem kept_eq_self_iff (f : Fields) (u : Uses) : f.kept u = f ↔ f.reservedZero u = true := by
  obtain ⟨op, b, n, m, c, w, e, r⟩ := f
  simp only [Fields.kept, Fields.reservedZero, Fields.mk.injEq, keptBits_eq_self_iff, and_eq_right_iff_reserved,
    Bool.and_eq_true, true_and, and_assoc]

/-- The decoder's answers by the command word's fields: a row's operation, whose own fields are the word's, or one
of two rejections (R80 to R82; 40_wordstorage_ops.md R103). -/
inductive DecodeOutcome (f : Fields) : Except DecodeError Instr → Prop where
  | ofRow {u : Uses} {i : Instr} : usesOfOp f.op = some u → ¬ f.isSetoffMem → i.fields = f.kept u →
      DecodeOutcome f (row f u i)
  | unassigned : usesOfOp f.op = none → DecodeOutcome f (.error .unassignedOp)
  | setoffMem : f.isSetoffMem → DecodeOutcome f (.error .setoffMem)

/-- At an `op` value other than that of `WS.SETOFF` the outcome is the row's. -/
theorem DecodeOutcome.atOp {f : Fields} {k : Nat} {u : Uses} {i : Instr} (h : f.op.toNat = k) (hk : k ≠ 4)
    (hu : usesOfOp (BitVec.ofNat 6 k) = some u) (hi : i.fields = { f.kept u with op := BitVec.ofNat 6 k }) :
    DecodeOutcome f (row f u i) := by
  subst h
  rw [BitVec.ofNat_toNat, BitVec.setWidth_eq] at hu hi
  exact .ofRow hu (fun hs => hk (congrArg BitVec.toNat hs.1)) hi

/-- The decoder's arms: `WS.SETOFF`, which looks at `b` first, no row at all, and the 29 others alike. -/
theorem decodeFields_outcome (f : Fields) (a : Word) (d : BitVec 128) (p : Payload) :
    DecodeOutcome f (decodeFields f a d p) := by
  unfold decodeFields
  split
  case h_4 h =>
    have hop : f.op = 0x04 := BitVec.eq_of_toNat_eq h
    split
    case h_1 b hb =>
      have hne : f.b ≠ 3 := fun h3 => by simp [(registerBankOfField_eq_none f.b).mpr h3] at hb
      refine .ofRow (hop ▸ rfl) (fun hs => hne hs.2) ?_
      simp [Instr.fields, opField, Fields.kept, keptBits, hop, field_registerBankOfField hb]
    case h_2 hb => exact .setoffMem ⟨hop, (registerBankOfField_eq_none f.b).mp hb⟩
  case h_31 => exact .unassigned (by simp [usesOfOp, *])
  all_goals
    rename_i h
    refine .atOp h (by decide) rfl ?_
    simp [Instr.fields, opField, Fields.kept, keptBits, field_bankOfField, field_sizeClassOfField]

/-- A decoded operation has the fields it was decoded from: those it lists are read off them, the others are 0. -/
theorem DecodeOutcome.fields_eq {f : Fields} {x : Except DecodeError Instr} {i : Instr} (ho : DecodeOutcome f x)
    (hx : x = .ok i) : i.fields = f := by
  cases ho with
  | ofRow _ _ hi =>
    obtain ⟨hz, rfl⟩ := row_eq_ok.mp hx
    exact hi.trans ((kept_eq_self_iff f _).mpr hz)
  | unassigned => cases hx
  | setoffMem => cases hx

/-- What decodes: an assigned `op` with its reserved fields 0, less `WS.SETOFF` with `b = 3`. -/
theorem DecodeOutcome.exists_ok_iff {f : Fields} {x : Except DecodeError Instr} (ho : DecodeOutcome f x) :
    (∃ i, x = .ok i) ↔ (∃ u, usesOfOp f.op = some u ∧ f.reservedZero u = true) ∧ ¬ f.isSetoffMem := by
  cases ho with
  | ofRow hu hs _ => simp [row_eq_ok, hu, hs]
  | unassigned hu => simp [hu]
  | setoffMem hs => simp [hs]

/-- Settles O3: the decoded operation has the word's own fields, and these join to the word. -/
theorem encodeOfDecodeIsTheCommandWord : Obligations.EncodeOfDecodeIsTheCommandWord := by
  intro q i h
  rw [encode, (decodeFields_outcome _ _ _ _).fields_eq h, joinFields_splitFields]

/-- Settles O4: the decoder's rows and the table's are the same `op` values with the same reserved fields, and a row
is known by its `op`. -/
theorem decodesExactlyTheTablesWords : Obligations.DecodesExactlyTheTablesWords := by
  refine ⟨fun q => ?_, fun cmd t ht u hu => eq_of_selects ht hu⟩
  rw [decode, (decodeFields_outcome _ _ _ _).exists_ok_iff, exists_selects_iff, ne_eq, and_eq_setoffMem_iff]

/-- Settles O1: the decoder computes each of the nine answers. -/
theorem decodesTheSpecsExampleWords : Obligations.DecodesTheSpecsExampleWords :=
  ⟨rfl, rfl, rfl, rfl, rfl, rfl, rfl, rfl, rfl⟩

end Sys2Proof

namespace Sys2Proof.Machine

/-! What a step answers to a use of the port -/

/-- Settles O5: the step's arm for a use that decodes. -/
theorem stepRunsTheDecodedOperation : Obligations.StepRunsTheDecodedOperation := by
  intro s q rest i hq hd
  simp only [step, hq, hd]

/-- Settles O6: the step's arm for a use that does not decode, whose refusal has the code 6. -/
theorem stepRefusesAnIllegalCommand : Obligations.StepRefusesAnIllegalCommand := by
  intro s q rest e hq hd
  have hr : step s = .refused .illegalCommand := by simp only [step, hq, hd]
  exact ⟨hr, by rw [hr]; rfl⟩

/-! The helpers of the PC -/

/-- A `set` at an index just read faults as the read does, so the read adds the word alone. -/
theorem bankGet_andThen_bankSet {α : Type} (b : Bank) (i : Int) (f : Word → Word) (n : Bool) (s : State)
    (k : State → Res α) :
    (andThen (bankGet b i s) fun v => andThen (bankSet b i (f v) n s) k) =
      andThen (bankSet b i (f (wordAt b i s)) n s) k := by
  cases h : inRange b i s
  · rw [bankGet_outOfRange h, bankSet_outOfRange _ n h, andThen_fault, andThen_fault]
  · rw [bankGet_inRange h, andThen_next]

/-- Settles O44: the first two are the accesses at index 15 as they stand, and `PC.ADV` reads before it writes. -/
theorem programCounterHelpersAreBankAccesses : Obligations.ProgramCounterHelpersAreBankAccesses :=
  fun _ s => ⟨rfl, rfl, bankGet_andThen_bankSet .gpr 15 (· + 4) false s (complete .none)⟩

end Sys2Proof.Machine
end

section
/-! Proofs of the statements on 40_wordstorage_ops.md: what each WordStorage operation answers, `clear` as the loop
of `set`s (R102), and the loads (R105). -/

namespace Sys2Proof.Machine

/-! Reading and writing one word (40_wordstorage_ops.md R100, R101, R106) -/

section
variable (b : Bank) (a d : Word) (n : Bool) (s : State)

theorem exec_wsGet : exec (.wsGet b a) s = andThen (bankGet b a.toInt s) fun v => complete (.word v) s := rfl

theorem exec_wsSet : exec (.wsSet b a d n) s = andThen (bankSet b a.toInt d n s) (complete .none) := rfl

theorem exec_wsRecv_own : exec (.wsRecv b (bankComponent b).token a d) s = complete .none s := if_pos rfl

theorem exec_wsRecv_other {r : BitVec 8} (h : r ≠ (bankComponent b).token) :
    exec (.wsRecv b r a d) s = exec (.wsSet b a d true) s := if_neg h

end

/-- Settles O17: in range `get` yields the word that a reader finds, and elsewhere it faults. -/
theorem wsGetReturnsTheWord : Obligations.WsGetReturnsTheWord := by
  refine fun b a s => ⟨fun v hv => ?_, fun hv => ?_⟩
  · obtain ⟨hr, rfl⟩ := peek_eq_some.mp hv
    rw [exec_wsGet, bankGet_inRange hr]; rfl
  · rw [exec_wsGet, bankGet_outOfRange (peek_eq_none.mp hv), andThen_fault]

/-- Settles O18: all that a `set` in range does, then an answer that leaves the banks and the trace alone. -/
theorem wsSetWritesOneWord : Obligations.WsSetWritesOneWord := by
  refine fun b a d n s => ⟨fun hr => ?_, fun hr => ?_⟩
  · obtain ⟨t, ht, hpeek, hframe, hev⟩ := bankSet_spec d n hr
    refine ⟨setAnswer .none t, ?_, ?_, frame_setAnswer _ hframe, ?_, rfl⟩
    · rw [exec_wsSet, ht]; rfl
    · rw [peek_setAnswer, hpeek]
    · rw [setAnswer_ev, hev, List.append_assoc]; rfl
  · rw [exec_wsSet, bankSet_outOfRange d n hr, andThen_fault]

/-- Settles O26: the two branches of R106, the second of which is the notifying `set` of O18. -/
theorem wsRecvSuppressesItsOwnEcho : Obligations.WsRecvSuppressesItsOwnEcho := by
  refine fun b r a d s => ⟨?_, exec_wsRecv_other b a d s, fun hr hin => ?_⟩
  · rintro rfl
    exact exec_wsRecv_own b a d s
  · obtain ⟨t, ht, hpeek, -⟩ := (wsSetWritesOneWord b a d true s).1 hin
    exact ⟨t, (exec_wsRecv_other b a d s hr).trans ht, hpeek⟩

/-! States are their slots -/

/-- A register bank is its offset and its words. -/
theorem regBank_ext {n : Nat} {x y : RegBank n} (ho : y.off = x.off)
    (hw : ∀ k < n, y.w[k]?.getD 0 = x.w[k]?.getD 0) : y = x := by
  obtain ⟨ox, wx⟩ := x
  obtain ⟨oy, wy⟩ := y
  have : wy = wx := Vector.ext fun k hk => by simpa [hk] using hw k hk
  simp_all

theorem extract_append_zero {n : Nat} (x : BitVec n) (y : Byte) : (x ++ y).extractLsb' (8 * 0) 8 = y :=
  (BitVec.extractLsb'_append_eq_of_add_le (by omega)).trans BitVec.extractLsb'_eq_self

theorem extract_append_succ {n : Nat} (x : BitVec n) (y : Byte) (j : Nat) :
    (x ++ y).extractLsb' (8 * (j + 1)) 8 = x.extractLsb' (8 * j) 8 := by
  rw [BitVec.extractLsb'_append_eq_of_le (by omega), show 8 * (j + 1) - 8 = 8 * j by omega]

/-- Byte lane `j` of a word of memory is the cell at its key (20_memory.md R55). -/
theorem extract_memWord (m : Memory) (k : Nat) {j : Nat} (hj : j < 4) :
    (memWord m k).extractLsb' (8 * j) 8 = cellRead m.cells (4 * k + j) := by
  unfold memWord
  match j, hj with
  | 0, _ => rw [extract_append_zero, Nat.add_zero]
  | 1, _ => rw [extract_append_succ, extract_append_zero]
  | 2, _ => rw [extract_append_succ, extract_append_succ, extract_append_zero]
  | 3, _ => rw [extract_append_succ, extract_append_succ, extract_append_succ, Nat.mul_zero,
      BitVec.extractLsb'_eq_self]

/-- Canonical memories are their size, their offset and their words. -/
theorem memory_ext {m m' : Memory} (hm : m.wf) (hm' : m'.wf) (hn : m'.n = m.n) (ho : m'.off = m.off)
    (hw : ∀ k < m.n, memWord m' k = memWord m k) : m' = m := by
  have hcells : m'.cells = m.cells := by
    refine cells_ext hm'.1 hm.1 (fun c hc => (hm'.2 c hc).1) (fun c hc => (hm.2 c hc).1) fun i => ?_
    by_cases hi : i < 4 * m.n
    · have hlane : i % 4 < 4 := Nat.mod_lt _ (by decide)
      rw [← Nat.div_add_mod i 4, ← extract_memWord m _ hlane, ← extract_memWord m' _ hlane, hw _ (by omega)]
    · rw [cellRead_absent _ _ fun c hc => by have := (hm'.2 c hc).2; omega,
        cellRead_absent _ _ fun c hc => by have := (hm.2 c hc).2; omega]
  obtain ⟨n, o, cs⟩ := m
  obtain ⟨n', o', cs'⟩ := m'
  simp_all

/-- A state is its map, its slots, its context, its trace and its answer, where memory is canonical. -/
theorem state_ext_of_slots {s t : State} (hs : s.mem.wf) (ht : t.mem.wf) (hm : SameMap s t)
    (hw : ∀ b k, k < bankSize b s → slotWord b k t = slotWord b k s) (hc : SameContext s t)
    (he : t.ev = s.ev) (ha : t.answer = s.answer) : t = s := by
  have hgpr : t.gpr = s.gpr := regBank_ext (hm .gpr).2 (hw .gpr)
  have hstatus : t.status = s.status := regBank_ext (hm .status).2 (hw .status)
  have hvec : t.vec = s.vec := regBank_ext (hm .vec).2 (hw .vec)
  have hmem : t.mem = s.mem := memory_ext hs ht (hm .mem).1 (hm .mem).2 (hw .mem)
  obtain ⟨hctl, hprog, hqueue, hfuel⟩ := hc
  cases s
  cases t
  simp_all

/-! Clearing a bank (40_wordstorage_ops.md R102) -/

/-- The slots below `m` of a bank set to 0, one by one, without a notification. -/
def zeroSlots (b : Bank) : Nat → State → State
  | 0, s => s
  | m + 1, s => setSlot b m 0 (zeroSlots b m s)

theorem sameMap_zeroSlots (b : Bank) (m : Nat) (s : State) : SameMap s (zeroSlots b m s) := by
  induction m with
  | zero => exact fun _ => ⟨rfl, rfl⟩
  | succ m ih => exact fun b' => ⟨(bankSize_setSlot ..).trans (ih b').1, (bankOff_setSlot ..).trans (ih b').2⟩

theorem rest_zeroSlots (b : Bank) (m : Nat) (s : State) :
    SameContext s (zeroSlots b m s) ∧ (zeroSlots b m s).ev = s.ev ∧ (zeroSlots b m s).answer = s.answer := by
  induction m with
  | zero => exact ⟨.refl s, rfl, rfl⟩
  | succ m ih => simpa [zeroSlots, SameContext] using ih

theorem slotWord_zeroSlots_same (b : Bank) {m k : Nat} (s : State) (hm : m ≤ bankSize b s) (hk : k < m) :
    slotWord b k (zeroSlots b m s) = 0 := by
  induction m with
  | zero => omega
  | succ m ih =>
    by_cases h : k = m
    · subst h
      exact slotWord_setSlot_same _ _ _ _ (by rw [(sameMap_zeroSlots b k s b).1]; omega)
    · exact (slotWord_setSlot_ne _ _ _ _ _ _ fun e => h e.2).trans (ih (by omega) (by omega))

theorem slotWord_zeroSlots_ne {b b' : Bank} (m k : Nat) (s : State) (h : b' ≠ b) :
    slotWord b' k (zeroSlots b m s) = slotWord b' k s := by
  induction m with
  | zero => rfl
  | succ m ih => exact (slotWord_setSlot_ne _ _ _ _ _ _ fun e => h e.1).trans ih

theorem wf_setSlot {b : Bank} {k : Nat} {s : State} (v : Word) (hs : s.mem.wf) (hk : k < bankSize b s) :
    (setSlot b k v s).mem.wf := by
  cases b
  case mem => exact memSetWord_wf _ _ _ hs hk
  all_goals exact hs

theorem wf_zeroSlots (b : Bank) {m : Nat} {s : State} (hs : s.mem.wf) (hm : m ≤ bankSize b s) :
    (zeroSlots b m s).mem.wf := by
  induction m with
  | zero => exact hs
  | succ m ih => exact wf_setSlot 0 (ih (by omega)) (by rw [(sameMap_zeroSlots b m s b).1]; omega)

theorem wf_zeroBank (b : Bank) {s : State} (hs : s.mem.wf) : (zeroBank b s).mem.wf := by
  cases b
  case mem => exact ⟨List.Pairwise.nil, List.forall_mem_nil _⟩
  all_goals exact hs

/-- All slots zeroed one by one are the bank zeroed whole; memory without its canonical form could differ. -/
theorem zeroSlots_bankSize (b : Bank) {s : State} (hs : s.mem.wf) :
    zeroSlots b (bankSize b s) s = zeroBank b s := by
  obtain ⟨hctx, hev, hans⟩ := rest_zeroSlots b (bankSize b s) s
  refine state_ext_of_slots (wf_zeroBank b hs) (wf_zeroSlots b hs le_rfl) (fun b' => ?_) (fun b' k hk => ?_) ?_ ?_ ?_
  · rw [bankSize_zeroBank, bankOff_zeroBank]
    exact sameMap_zeroSlots b _ s b'
  · rw [bankSize_zeroBank] at hk
    by_cases h : b' = b
    · subst h
      rw [slotWord_zeroSlots_same b' s le_rfl hk, slotWord_zeroBank_same]
    · rw [slotWord_zeroSlots_ne _ _ _ h, slotWord_zeroBank_ne _ _ _ _ h]
  · simpa [SameContext] using hctx
  · rw [hev, zeroBank_ev]
  · rw [hans, zeroBank_answer]

/-- A `set` at the index of a slot that exists, the bank having kept its map since `s`. -/
theorem bankSet_slot {b : Bank} {k : Nat} {s u : State} (v : Word) (n : Bool) (hu : SameMap s u)
    (hk : k < bankSize b s) : bankSet b (bankOff b s + (k : Nat)) v n u =
      .next (emitAll (writeEvents b (bankOff b s + (k : Nat)) v n) (setSlot b k v u)) := by
  obtain ⟨hsize, hoff⟩ := hu b
  rw [← hoff, bankSet_inRange v n (inRange_slot (hsize ▸ hk)), putWord, slotOf_slot]

theorem sameMap_emitAll (es : List Event) {s t : State} (h : SameMap s t) : SameMap s (emitAll es t) :=
  fun b => ⟨(bankSize_emitAll ..).trans (h b).1, (bankOff_emitAll ..).trans (h b).2⟩

theorem setSlot_emitAll (b : Bank) (k : Nat) (v : Word) (es : List Event) (s : State) :
    setSlot b k v (emitAll es s) = emitAll es (setSlot b k v s) := by
  cases b <;> rfl

theorem emitAll_emitAll (es es' : List Event) (s : State) :
    emitAll es' (emitAll es s) = emitAll (es ++ es') s := by
  simp [emitAll]

/-- The loop of R102 over the first `m` slots: they are 0, and their notifications are out in order. -/
theorem clearLoop_eq (b : Bank) (n : Bool) (s : State) {m : Nat} (hm : m ≤ bankSize b s) :
    (List.range m).foldl (fun r k => andThen r (bankSet b (bankOff b s + (k : Nat)) 0 n)) (.next s) =
      .next (emitAll ((List.range m).flatMap fun k => writeEvents b (bankOff b s + (k : Nat)) 0 n)
        (zeroSlots b m s)) := by
  induction m with
  | zero => simp [zeroSlots, emitAll]
  | succ m ih =>
    rw [List.range_succ, List.foldl_append, ih (by omega), List.foldl_cons, List.foldl_nil, andThen_next,
      bankSet_slot 0 n (sameMap_emitAll _ (sameMap_zeroSlots b m s)) hm, setSlot_emitAll, emitAll_emitAll,
      List.flatMap_append, List.flatMap_singleton, zeroSlots]

/-- The events of `clear`: one write of 0 for each slot (40_wordstorage_ops.md R102). -/
theorem bankEvents_zeroBank (b : Bank) (n : Bool) (s : State) :
    bankEvents b n (zeroBank b s) =
      (List.range (bankSize b s)).flatMap fun k => writeEvents b (bankOff b s + (k : Nat)) 0 n := by
  simp only [bankEvents_eq, bankSize_zeroBank, bankOff_zeroBank, slotWord_zeroBank_same]

theorem exec_wsClear (b : Bank) (n : Bool) (s : State) : exec (.wsClear b n) s = complete .none (bankClear b n s) :=
  rfl

/-- Settles O19: the loop's events are those of the closed form, and its slots, all zeroed, are the bank zeroed. -/
theorem clearIsTheLoopOfSets : Obligations.ClearIsTheLoopOfSets := by
  intro b n s hs
  rw [clearLoop_eq b n s le_rfl, andThen_next, zeroSlots_bankSize b hs, ← bankEvents_zeroBank]
  rfl

/-- Settles O20: every slot of a cleared bank is 0 under the same map, and the events are one write of 0 a slot. -/
theorem wsClearZeroesTheBank : Obligations.WsClearZeroesTheBank := by
  refine fun b n s => ⟨_, exec_wsClear b n s, fun i => ?_, fun b' => ?_,
    others_setAnswer _ (others_bankClear b n s), ?_, rfl⟩
  · rw [peek_setAnswer, peek_of_slot (f := fun _ => 0) fun k _ => slotWord_bankClear_same b n k s, inRange_bankClear]
  · rw [bankSize_setAnswer, bankOff_setAnswer, bankSize_bankClear, bankOff_bankClear]
    exact ⟨rfl, rfl⟩
  · rw [setAnswer_ev, bankClear, emitAll_ev, zeroBank_ev, bankEvents_zeroBank]
    rfl

/-! Moving a register bank (40_wordstorage_ops.md R103) -/

/-- A word keeps its slot, so it is read at its old distance from the new offset. -/
theorem peek_setOffset (b : Bank) (o i : Int) (s : State) :
    peek b (i - bankOff b s + o) (setOffset b o s) = peek b i s := by
  have hi : i - bankOff b s + o - o = i - bankOff b s := by omega
  have hr : inRange b (i - bankOff b s + o) (setOffset b o s) = inRange b i s := by
    simp only [inRange, bankOff_setOffset_same, bankSize_setOffset, hi]
  have hs : slotOf b (i - bankOff b s + o) (setOffset b o s) = slotOf b i s := by
    simp only [slotOf, bankOff_setOffset_same, hi]
  rw [peek, peek, hr, wordAt, hs, slotWord_setOffset, wordAt]

/-- The word of `WS.SETOFF` with `b = 3` is none of the decoder's, whatever its other fields are. -/
theorem decode_setoffMem {q : Request} (h : q.cmd &&& 0xFF000000 = 0x13000000) : ∃ e, decode q = .error e := by
  cases hd : decode q with
  | ok i => exact absurd h (((decodesExactlyTheTablesWords.1 q).mp ⟨i, hd⟩).2)
  | error e => exact ⟨e, rfl⟩

theorem exec_wsSetoff (b : RegisterBank) (a : Word) (s : State) :
    exec (.wsSetoff b a) s = complete .none (setOffset b.bank a.toInt s) := rfl

/-- Settles O21: a new offset moves no slot, and the word with `b = 3` does not decode. -/
theorem wsSetoffKeepsTheContent : Obligations.WsSetoffKeepsTheContent := by
  refine ⟨fun b a s => ⟨_, exec_wsSetoff b a s, fun i => ?_, ?_, ?_,
    others_setAnswer _ (others_setOffset b.bank a.toInt s), ?_, rfl⟩, fun s q rest hq hcmd => ?_⟩
  · rw [peek_setAnswer, peek_setOffset]
  · rw [bankOff_setAnswer, bankOff_setOffset_same]
  · rw [bankSize_setAnswer, bankSize_setOffset]
  · rw [setAnswer_ev, setOffset_ev]
  · obtain ⟨e, he⟩ := decode_setoffMem hcmd
    exact stepRefusesAnIllegalCommand s q rest e hq he

/-! Serializing and loading a bank (40_wordstorage_ops.md R104, R105) -/

theorem exec_wsSer (b : Bank) (s : State) : exec (.wsSer b) s = complete (.map (serialize b s)) s := rfl

/-- Settles O22: the serialization's entries, which rise, and its two optional numbers. -/
theorem wsSerListsTheNonZeroWords : Obligations.WsSerListsTheNonZeroWords :=
  fun b s => ⟨serialize b s, exec_wsSer b s, mem_serialize b s, serialize_rising b s, (ite_not ..).symm, rfl⟩

theorem exec_wsDeser (b : Bank) (p : SparseMap) (s : State) :
    exec (.wsDeser b p) s = unlessFault (loadFault b p s) (complete .none (loadMap b p s)) := rfl

theorem exec_wsDeser_ok {b : Bank} {p : SparseMap} {s : State} (h : LoadOk b p s) :
    exec (.wsDeser b p) s = .next (setAnswer .none (loadMap b p s)) := by
  rw [exec_wsDeser, loadFault_eq_none.mpr h]; rfl

theorem exec_wsDeser_fault {b : Bank} {p : SparseMap} {s : State} {r : Fault} (h : loadFault b p s = some r) :
    exec (.wsDeser b p) s = .fault r := by
  rw [exec_wsDeser, h, unlessFault_some]

/-- What a reader finds after a bank's own serialization is loaded, into whatever state. -/
theorem peek_loadMap_serialize {b : Bank} {s : State} (u : State) (h : bankSize .mem s ≤ Config.memMaxWords)
    (i : Int) : peek b i (loadMap b (serialize b s) u) = peek b i s := by
  have hr : inRange b i (loadMap b (serialize b s) u) = inRange b i s := by
    simp [inRange, bankSize_loadMap, bankOff_loadMap, serialize_size, serialize_off]
  cases hi : inRange b i s
  · rw [peek_eq_none.mpr hi, peek_eq_none.mpr (hr.trans hi)]
  · rw [peek_loadMap (serialize_wf b s) (serialize_ok b s u h) i (hr.trans hi), mapWord_serialize b s i hi, peek,
      if_pos hi]

/-- Settles O25: a serialization passes the checks of every load, and carries the size, the offset and every word. -/
theorem deserializeOfSerializeRestoresTheBank : Obligations.DeserializeOfSerializeRestoresTheBank := by
  refine fun b s u hn => ⟨_, _, serialize b s, exec_wsSer b s, rfl, exec_wsDeser_ok (serialize_ok b s u hn),
    fun i => ?_, ?_, ?_⟩
  · rw [peek_setAnswer, peek_loadMap_serialize u hn]
  · rw [bankSize_setAnswer, bankSize_loadMap, serialize_size, Int.toNat_natCast]
  · rw [bankOff_setAnswer, bankOff_loadMap, serialize_off]

/-- The size of a load is not negative where its checks pass. -/
theorem loadSize_nonneg {b : Bank} {p : SparseMap} {s : State} (h : LoadOk b p s) : 0 ≤ loadSize b p s := by
  by_cases hb : b = .mem
  · exact (h.1 hb).1
  · rw [loadSize, if_neg hb]; omega

/-- The events of a load, with the words of the map (40_wordstorage_ops.md R105). -/
theorem notifications_loadMap {b : Bank} {p : SparseMap} {s : State} (hp : p.wf = true) (h : LoadOk b p s) :
    ((List.range (loadSize b p s).toNat).flatMap fun k =>
        writeEvents b (p.offsetW.getD 0 + (k : Nat)) (slotWord b k (loadMap b p s)) true) =
      (List.range (loadSize b p s).toNat).flatMap fun k =>
        writeEvents b (p.offsetW.getD 0 + (k : Nat)) (mapWord p (p.offsetW.getD 0 + (k : Nat))) true :=
  List.flatMap_congr fun k hk => by rw [slotWord_loadMap hp h k (List.mem_range.mp hk)]

/-- Settles O23: the bank, the other banks and the events a load leaves, its checks having passed. -/
theorem wsDeserReplacesTheBank : Obligations.WsDeserReplacesTheBank := by
  refine fun b p s hp h => ⟨_, exec_wsDeser_ok h, ?_, ?_, fun i hi => ?_,
    others_setAnswer _ (others_loadMap b p s), ?_, rfl⟩
  · rw [bankOff_setAnswer, bankOff_loadMap]
  · rw [bankSize_setAnswer, bankSize_loadMap, Int.toNat_of_nonneg (loadSize_nonneg h), loadSize]
  · rw [inRange_setAnswer] at hi
    rw [peek_setAnswer, peek_loadMap hp h i hi]
  · rw [setAnswer_ev, ev_loadMap, notifications_loadMap hp h, bankSize_setAnswer, bankOff_setAnswer, bankSize_loadMap,
      bankOff_loadMap]
    rfl

theorem legalSize_iff (n : Int) : legalSize n = true ↔ 0 ≤ n ∧ n ≤ Config.memMaxWords := by
  simp only [legalSize, Bool.and_eq_true, decide_eq_true_eq]; omega

theorem loadSize_mem (p : SparseMap) (s : State) : loadSize .mem p s = p.sizeW.getD 32 := if_pos rfl

/-- The size is checked before any key. -/
theorem loadFault_illegalSize {p : SparseMap} (s : State) (h : ¬ legalSize (p.sizeW.getD 32)) :
    loadFault .mem p s = some (.addressing .mem (p.sizeW.getD 32)) := by
  rw [loadFault, if_pos ⟨rfl, h⟩, loadSize_mem]

/-- With a legal size, all that a load can fault on is a key outside the new bounds. -/
theorem loadFault_eq_some {b : Bank} {p : SparseMap} {s : State} {r : Fault}
    (hsize : b = .mem → legalSize (p.sizeW.getD 32)) (h : loadFault b p s = some r) :
    ∃ x ∈ p.entries, ¬ (0 ≤ x.1 - p.offsetW.getD 0 ∧ x.1 - p.offsetW.getD 0 < loadSize b p s) ∧
      r = .addressing b x.1 := by
  have hlegal : ¬ (b = .mem ∧ ¬ legalSize (loadSize b p s)) := by
    rintro ⟨rfl, hn⟩
    exact hn (hsize rfl)
  simp only [loadFault, if_neg hlegal] at h
  obtain ⟨x, hx, hr⟩ := List.exists_of_findSome?_eq_some h
  split at hr
  · cases hr
  · rename_i hbound
    cases hr
    exact ⟨x, hx, hbound, rfl⟩

/-- Settles O24: an illegal size faults first; else the bad key keeps the checks from passing, so one is named. -/
theorem wsDeserFaultsOutsideTheNewBounds : Obligations.WsDeserFaultsOutsideTheNewBounds := by
  refine ⟨fun p s hsize => ?_, fun b p s hsize ⟨x, hx, hbad⟩ => ?_⟩
  · exact exec_wsDeser_fault (loadFault_illegalSize s (mt (legalSize_iff _).mp hsize))
  · cases hf : loadFault b p s with
    | none => exact absurd ((loadFault_eq_none.mp hf).2 x hx) hbad
    | some r =>
      obtain ⟨y, hy, hout, rfl⟩ := loadFault_eq_some (fun hb => (legalSize_iff _).mpr (hsize hb)) hf
      exact ⟨y, hy, hout, exec_wsDeser_fault hf⟩

end Sys2Proof.Machine
end

section
/-! Proofs of the statements on 41_vector_ops.md: the quad and double accessors as one loop over the words of their
register (R110 to R113), the elements (R114, R115), and the laws of the views (R116). -/

namespace Sys2Proof.Machine

/-! Reading a quad or a double (R110, R112) -/

section
variable (r : BitVec 8) (s : State)

theorem exec_vGetq : exec (.vGetq r) s =
    unlessFault (vecSpanFault (4 * r.toNat) 4 s) (complete (.quad (quadAt r.toNat s)) s) := rfl

theorem exec_vGetd : exec (.vGetd r) s =
    unlessFault (vecSpanFault (2 * r.toNat) 2 s) (complete (.double (doubleAt r.toNat s)) s) := rfl

end

theorem quadAt_of_peek {r : Nat} {s : State} {w0 w1 w2 w3 : Word} (h0 : peek .vec (4 * r) s = some w0)
    (h1 : peek .vec (4 * r + 1) s = some w1) (h2 : peek .vec (4 * r + 2) s = some w2)
    (h3 : peek .vec (4 * r + 3) s = some w3) : quadAt r s = w3 ++ w2 ++ w1 ++ w0 := by
  rw [← (peek_eq_some.mp h0).2, ← (peek_eq_some.mp h1).2, ← (peek_eq_some.mp h2).2, ← (peek_eq_some.mp h3).2]
  rfl

theorem doubleAt_of_peek {r : Nat} {s : State} {w0 w1 : Word} (h0 : peek .vec (2 * r) s = some w0)
    (h1 : peek .vec (2 * r + 1) s = some w1) : doubleAt r s = w1 ++ w0 := by
  rw [← (peek_eq_some.mp h0).2, ← (peek_eq_some.mp h1).2]
  rfl

/-- Settles O27: the words that a reader finds are in range, so the check of the span passes. -/
theorem quadAndDoubleReads : Obligations.QuadAndDoubleReads := by
  refine ⟨fun r s w0 w1 w2 w3 h0 h1 h2 h3 => ?_, fun r s w0 w1 h0 h1 => ?_⟩
  · have hspan : vecSpanFault (4 * r.toNat) 4 s = none := by
      refine (vecSpanFault_eq_none ..).mpr fun j hj => ?_
      match j, hj with
      | 0, _ => simpa using (peek_eq_some.mp h0).1
      | 1, _ => exact (peek_eq_some.mp h1).1
      | 2, _ => exact (peek_eq_some.mp h2).1
      | 3, _ => exact (peek_eq_some.mp h3).1
    rw [exec_vGetq, hspan, quadAt_of_peek h0 h1 h2 h3]; rfl
  · have hspan : vecSpanFault (2 * r.toNat) 2 s = none := by
      refine (vecSpanFault_eq_none ..).mpr fun j hj => ?_
      match j, hj with
      | 0, _ => simpa using (peek_eq_some.mp h0).1
      | 1, _ => exact (peek_eq_some.mp h1).1
    rw [exec_vGetd, hspan, doubleAt_of_peek h0 h1]; rfl

/-! Writing a quad or a double (R111, R113) -/

/-- The loop of R111 and R113: consecutive words of `VEC` from external index `i` on, each through `set`. -/
def setWords (n : Bool) : Int → List Word → State → Res State
  | _, [], s => .next s
  | i, w :: ws, s => andThen (bankSet .vec i w n s) (setWords n (i + 1) ws)

section
variable (r : BitVec 8) (s : State) (n : Bool)

theorem exec_vSetq (d : BitVec 128) : exec (.vSetq r d n) s =
    unlessFault (vecSpanFault (4 * r.toNat) 4 s)
      (andThen (setWords n (4 * r.toNat) [laneWord d 0, laneWord d 1, laneWord d 2, laneWord d 3] s)
        (complete .none)) := by
  simp only [setWords, andThen_assoc, andThen_next, add_assoc, Int.reduceAdd]
  rfl

theorem exec_vSetd (d : BitVec 64) : exec (.vSetd r d n) s =
    unlessFault (vecSpanFault (2 * r.toNat) 2 s)
      (andThen (setWords n (2 * r.toNat) [laneWord (d.setWidth 128) 0, laneWord (d.setWidth 128) 1] s)
        (complete .none)) := by
  simp only [setWords, andThen_assoc, andThen_next]
  rfl

end

/-- The notifications of consecutive words of `VEC`, ascending. -/
def wordsEvents : Int → List Word → List Event
  | _, [] => []
  | i, w :: ws => .valueChanged .vec i w .vec :: wordsEvents (i + 1) ws

theorem writeEvents_vec (i : Int) (w : Word) (n : Bool) :
    writeEvents .vec i w n = if n then [.valueChanged .vec i w .vec] else [] := by
  simp [writeEvents, bankComponent]

/-- Everything the loop does where all its words are in range: it writes each word at its index, nothing else, and
notifies in ascending order if asked. -/
theorem setWords_spec (n : Bool) (i : Int) (ws : List Word) (s : State)
    (h : ∀ j : Nat, j < ws.length → inRange .vec (i + j) s = true) :
    ∃ t, setWords n i ws s = .next t ∧
      (∀ (j : Nat) (w : Word), ws[j]? = some w → peek .vec (i + j) t = some w) ∧
      Frame (fun b x => b = .vec ∧ i ≤ x ∧ x < i + ws.length) s t ∧
      t.ev = s.ev ++ if n then wordsEvents i ws else [] := by
  induction ws generalizing i s with
  | nil => exact ⟨s, rfl, by simp, ⟨fun _ _ _ => rfl, fun _ => ⟨rfl, rfl⟩, .refl s⟩, by simp [wordsEvents]⟩
  | cons w ws ih =>
    have hshift (j : Nat) : i + 1 + (j : Int) = i + (j + 1 : Nat) := by omega
    obtain ⟨t, ht, hpeek, hframe, hev⟩ := bankSet_spec w n (by simpa using h 0 (by simp))
    obtain ⟨u, hu, hpeeks, hframe', hev'⟩ := ih (i + 1) t fun j hj => by
      rw [inRange_frame hframe, hshift]
      exact h (j + 1) (by simpa using hj)
    refine ⟨u, ?_, fun j x hx => ?_, frame_mono (frame_trans hframe hframe') fun b x hx => ?_, ?_⟩
    · rw [setWords, ht, andThen_next, hu]
    · cases j with
      | zero =>
        obtain rfl : w = x := by simpa using hx
        simpa using (hframe'.1 .vec i (by omega)).trans hpeek
      | succ j => rw [← hshift]; exact hpeeks j x hx
    · simp only [List.length_cons, Nat.cast_add, Nat.cast_one]
      obtain ⟨hb, hx⟩ | ⟨hb, hx⟩ := hx
      · exact ⟨hb, by omega⟩
      · exact ⟨hb, by omega⟩
    · rw [hev', hev, writeEvents_vec]
      cases n <;> simp [wordsEvents]

/-- The lowest lane of a datum put together from lanes of one width. -/
theorem lane_append_zero {n m : Nat} (x : BitVec n) (y : BitVec m) : (x ++ y).extractLsb' (m * 0) m = y :=
  (BitVec.extractLsb'_append_eq_of_add_le (by omega)).trans BitVec.extractLsb'_eq_self

theorem lane_append_succ {n m : Nat} (x : BitVec n) (y : BitVec m) (j : Nat) :
    (x ++ y).extractLsb' (m * (j + 1)) m = x.extractLsb' (m * j) m := by
  rw [BitVec.extractLsb'_append_eq_of_le (by rw [Nat.mul_add_one]; omega), Nat.mul_add_one, Nat.add_sub_cancel]

/-- The lanes of a quad are its words. -/
theorem laneWords_quad (w0 w1 w2 w3 : Word) :
    [laneWord (w3 ++ w2 ++ w1 ++ w0) 0, laneWord (w3 ++ w2 ++ w1 ++ w0) 1, laneWord (w3 ++ w2 ++ w1 ++ w0) 2,
      laneWord (w3 ++ w2 ++ w1 ++ w0) 3] = [w0, w1, w2, w3] := by
  simp only [laneWord]
  rw [lane_append_zero, lane_append_succ _ _ 0, lane_append_zero, lane_append_succ _ _ 1, lane_append_succ _ _ 0,
    lane_append_zero, lane_append_succ _ _ 2, lane_append_succ _ _ 1, lane_append_succ _ _ 0, Nat.mul_zero,
    BitVec.extractLsb'_eq_self]

/-- The lanes of a double are its words; widening it to the bus moves neither. -/
theorem laneWords_double (w0 w1 : Word) :
    [laneWord ((w1 ++ w0).setWidth 128) 0, laneWord ((w1 ++ w0).setWidth 128) 1] = [w0, w1] := by
  simp only [laneWord]
  rw [BitVec.extractLsb'_setWidth_of_le (by omega), BitVec.extractLsb'_setWidth_of_le (by omega),
    lane_append_zero, lane_append_succ _ _ 0, Nat.mul_zero, BitVec.extractLsb'_eq_self]

/-- Settles O28: each is the loop over the words of its datum, which the check of the span lets run. -/
theorem quadAndDoubleWrites : Obligations.QuadAndDoubleWrites := by
  refine ⟨fun r w0 w1 w2 w3 n s h => ?_, fun r w0 w1 n s h => ?_⟩
  · obtain ⟨t, ht, hpeek, hframe, hev⟩ := setWords_spec n (4 * r.toNat) [w0, w1, w2, w3] s h
    refine ⟨setAnswer .none t, ?_, ?_, ?_, ?_, ?_, frame_setAnswer _ hframe, ?_, rfl⟩
    · rw [exec_vSetq, (vecSpanFault_eq_none ..).mpr h, unlessFault_none, laneWords_quad, ht]; rfl
    · simpa using hpeek 0 w0 rfl
    · simpa using hpeek 1 w1 rfl
    · simpa using hpeek 2 w2 rfl
    · simpa using hpeek 3 w3 rfl
    · simpa [wordsEvents, add_assoc] using hev
  · obtain ⟨t, ht, hpeek, hframe, hev⟩ := setWords_spec n (2 * r.toNat) [w0, w1] s h
    refine ⟨setAnswer .none t, ?_, ?_, ?_, frame_setAnswer _ hframe, ?_, rfl⟩
    · rw [exec_vSetd, (vecSpanFault_eq_none ..).mpr h, unlessFault_none, laneWords_double, ht]; rfl
    · simpa using hpeek 0 w0 rfl
    · simpa using hpeek 1 w1 rfl
    · simpa [wordsEvents] using hev

/-! The faults of the quad and double accessors (R110 to R113) -/

/-- With `VEC.off = 0` a span leaves the bank exactly when its last word does. -/
theorem exists_outOfRange_iff {s : State} (h : s.vec.off = 0) (i n : Nat) :
    (∃ j : Nat, j < n ∧ inRange .vec (i + j) s = false) ↔ 0 < n ∧ 64 < i + n := by
  simp only [inRange, bankOff, bankSize, h, decide_eq_false_iff_not]
  constructor
  · rintro ⟨j, hj, hout⟩
    omega
  · rintro ⟨hn, hi⟩
    exact ⟨n - 1, by omega, by omega⟩

/-- Settles O29: all four check their span first, and the span's fault names its first index out of range. -/
theorem quadAndDoubleFaults : Obligations.QuadAndDoubleFaults := by
  refine fun r n d d' s => ⟨fun hq => ?_, fun hd => ?_, fun hoff => ⟨?_, ?_⟩⟩
  · obtain ⟨j, hj, hout, hlow, hspan⟩ := vecSpanFault_eq_some _ _ _ hq
    exact ⟨j, hj, hout, hlow, by rw [exec_vGetq, hspan]; rfl, by rw [exec_vSetq, hspan]; rfl⟩
  · obtain ⟨j, hj, hout, hlow, hspan⟩ := vecSpanFault_eq_some _ _ _ hd
    exact ⟨j, hj, hout, hlow, by rw [exec_vGetd, hspan]; rfl, by rw [exec_vSetd, hspan]; rfl⟩
  · exact (exists_outOfRange_iff hoff (4 * r.toNat) 4).trans (by omega)
  · exact (exists_outOfRange_iff hoff (2 * r.toNat) 2).trans (by omega)

/-! The elements: `locate` (R114) -/

section
variable (c : SizeClass) (w : BitVec 6) (r : BitVec 8) (e : BitVec 7) (s : State)

theorem exec_vGete : exec (.vGete c w r e) s = unlessFault (elementFault c w.toNat r.toNat e.toNat s)
    (complete (.word (elementAt c w.toNat r.toNat e.toNat s)) s) := rfl

theorem exec_vSete (d : Word) : exec (.vSete c w r e d) s = unlessFault (elementFault c w.toNat r.toNat e.toNat s)
    (andThen (bankSet .vec (elementWord c w.toNat r.toNat e.toNat : Nat)
      (putField (wordAt .vec (elementWord c w.toNat r.toNat e.toNat : Nat) s)
        (elementBit w.toNat e.toNat) w.toNat d) true s) (complete .none)) := rfl

end
/-- The word of an element as the statements write it. -/
theorem cast_elementWord (c : SizeClass) (k r e : Nat) :
    ((elementWord c k r e : Nat) : Int) = r * sizeClassWords c + (k * e / 32 : Nat) := by
  rw [elementWord, Nat.cast_add, Nat.cast_mul]

theorem elementFault_illegalWidth {k : Nat} (c : SizeClass) (r e : Nat) (s : State)
    (hk : k ∉ [1, 2, 4, 8, 16, 32]) : elementFault c k r e s = some (.width k) := by
  rw [← legalElementWidth_iff] at hk
  simp [elementFault, hk]

section
variable {c : SizeClass} {k r e : Nat} {s t : State} (hk : k ∈ [1, 2, 4, 8, 16, 32])
include hk

theorem elementFault_outsideRegister (he : 32 * sizeClassWords c ≤ k * e) :
    elementFault c k r e s = some (.addressingElement r e) := by
  rw [← legalElementWidth_iff] at hk
  simp [elementFault, hk, Nat.not_lt.mpr he]

theorem elementFault_outsideBank (he : k * e < 32 * sizeClassWords c)
    (hw : peek .vec (elementWord c k r e : Nat) s = none) :
    elementFault c k r e s = some (.addressing .vec (elementWord c k r e : Nat)) := by
  rw [← legalElementWidth_iff] at hk
  simp [elementFault, hk, he, indexFault, peek_eq_none.mp hw]

end

/-- Settles O32: both operations run `locate` first, whose checks stand in this order. -/
theorem elementFaultsInOrder : Obligations.ElementFaultsInOrder := by
  intro c w r e d s
  rw [← cast_elementWord, exec_vGete, exec_vSete]
  refine ⟨fun hw => ?_, fun hw he => ?_, fun hw he hout => ?_⟩
  · rw [elementFault_illegalWidth _ _ _ _ hw]; exact ⟨rfl, rfl⟩
  · rw [elementFault_outsideRegister hw he]; exact ⟨rfl, rfl⟩
  · rw [elementFault_outsideBank hw he hout]; exact ⟨rfl, rfl⟩

/-! Reading and writing an element (R114, R115) -/

section
variable {c : SizeClass} {w : BitVec 6} {r : BitVec 8} {e : BitVec 7} {s : State}
  (h : elementFault c w.toNat r.toNat e.toNat s = none)
include h

theorem exec_vGete_located : exec (.vGete c w r e) s =
    .next { s with answer := .word (elementAt c w.toNat r.toNat e.toNat s) } := by
  rw [exec_vGete, h]; rfl

/-- Everything `V.SETE` does where `locate` raises nothing: one notifying `set` of the word with its field
replaced. -/
theorem exec_vSete_located (d : Word) : ∃ t, exec (.vSete c w r e d) s = .next t ∧
    peek .vec (elementWord c w.toNat r.toNat e.toNat : Nat) t =
      some (putField (wordAt .vec (elementWord c w.toNat r.toNat e.toNat : Nat) s)
        (elementBit w.toNat e.toNat) w.toNat d) ∧
    Frame (fun b i => b = .vec ∧ i = (elementWord c w.toNat r.toNat e.toNat : Nat)) s t ∧
    t.ev = s.ev ++ [.valueChanged .vec (elementWord c w.toNat r.toNat e.toNat : Nat)
      (putField (wordAt .vec (elementWord c w.toNat r.toNat e.toNat : Nat) s)
        (elementBit w.toNat e.toNat) w.toNat d) .vec] ∧
    t.answer = .none := by
  obtain ⟨-, -, hin⟩ := elementFault_eq_none.mp h
  obtain ⟨t, ht, hpeek, hframe, hev⟩ := bankSet_spec _ true hin
  exact ⟨setAnswer .none t, by rw [exec_vSete, h, unlessFault_none, ht]; rfl, by rw [peek_setAnswer, hpeek],
    frame_setAnswer _ hframe, hev, rfl⟩

end

/-- Settles O30: `locate` passes, and a field is bits `b+k-1 : b` of the element's word. -/
theorem elementRead : Obligations.ElementRead := by
  intro c w r e s x hw he hx
  rw [← cast_elementWord, peek_eq_some] at hx
  obtain ⟨hin, rfl⟩ := hx
  exact ⟨_, exec_vGete_located (elementFault_eq_none.mpr ⟨hw, he, hin⟩), getLsbD_getField _ _ _⟩

/-- Settles O31: `locate` passes, and `putField` replaces bits `b+k-1 : b` of the element's word alone. -/
theorem elementWrite : Obligations.ElementWrite := by
  intro c w r e d s x hw he hx
  rw [← cast_elementWord] at hx ⊢
  obtain ⟨hin, rfl⟩ := peek_eq_some.mp hx
  obtain ⟨t, ht, hpeek, hframe, hev, hanswer⟩ :=
    exec_vSete_located (elementFault_eq_none.mpr ⟨hw, he, hin⟩) d
  exact ⟨t, _, ht, hpeek, getLsbD_putField _ _ _ _, hframe, hev, hanswer⟩

/-! An element after a write (R116 (a), (b)) -/

/-- Where an element begins in the array `VEC[63] ++ ... ++ VEC[0]` (R116 (c)). -/
theorem elementPosition (c : SizeClass) (k r e : Nat) :
    32 * elementWord c k r e + elementBit k e = 32 * sizeClassWords c * r + k * e := by
  cases c <;> simp only [elementWord, elementBit, sizeClassWords] <;> omega

/-- `locate` depends on the state only through the map of `VEC`. -/
theorem elementFault_frame {p : Bank → Int → Prop} {s t : State} (h : Frame p s t) (c : SizeClass) (k r e : Nat) :
    elementFault c k r e t = elementFault c k r e s := by
  simp only [elementFault, indexFault, inRange_frame h]

section
variable {c : SizeClass} {w : BitVec 6} {r : BitVec 8} {e : BitVec 7} {d : Word} {s t : State}

/-- What an element write that completes leaves for the reads after it. -/
theorem exec_vSete_eq_next (h : exec (.vSete c w r e d) s = .next t) :
    elementFault c w.toNat r.toNat e.toNat s = none ∧
    wordAt .vec (elementWord c w.toNat r.toNat e.toNat : Nat) t =
      putField (wordAt .vec (elementWord c w.toNat r.toNat e.toNat : Nat) s)
        (elementBit w.toNat e.toNat) w.toNat d ∧
    Frame (fun b i => b = .vec ∧ i = (elementWord c w.toNat r.toNat e.toNat : Nat)) s t := by
  obtain ⟨hf, -⟩ := unlessFault_eq_next.mp (exec_vSete .. ▸ h)
  obtain ⟨u, hu, hpeek, hframe, -⟩ := exec_vSete_located hf d
  cases hu.symm.trans h
  exact ⟨hf, (peek_eq_some.mp hpeek).2, hframe⟩

/-- What an element read that completes tells. -/
theorem exec_vGete_eq_next (h : exec (.vGete c w r e) s = .next t) :
    elementFault c w.toNat r.toNat e.toNat s = none ∧
      t.answer = .word (elementAt c w.toNat r.toNat e.toNat s) := by
  obtain ⟨hf, ht⟩ := unlessFault_eq_next.mp (exec_vGete .. ▸ h)
  exact ⟨hf, by rw [complete_eq_next.mp ht]; rfl⟩

theorem elementAt_vSete_same (h : exec (.vSete c w r e d) s = .next t) :
    elementAt c w.toNat r.toNat e.toNat t = d &&& mask w.toNat := by
  obtain ⟨hf, hword, -⟩ := exec_vSete_eq_next h
  obtain ⟨hw, -, -⟩ := elementFault_eq_none.mp hf
  rw [elementAt, hword, getField_putField_same _ _ _ _ (elementBit_fits _ hw)]

/-- An element of a disjoint range shares no bit with the one written: it lies in another word, or beside it in the
same word. -/
theorem elementAt_vSete_disjoint {c' : SizeClass} {k r' e' : Nat} (h : exec (.vSete c w r e d) s = .next t)
    (hf : elementFault c' k r' e' s = none)
    (hd : 32 * sizeClassWords c * r.toNat + w.toNat * e.toNat + w.toNat ≤ 32 * sizeClassWords c' * r' + k * e' ∨
      32 * sizeClassWords c' * r' + k * e' + k ≤ 32 * sizeClassWords c * r.toNat + w.toNat * e.toNat) :
    elementAt c' k r' e' t = elementAt c' k r' e' s := by
  obtain ⟨-, hword, hframe⟩ := exec_vSete_eq_next h
  obtain ⟨hk, -, hin⟩ := elementFault_eq_none.mp hf
  by_cases hi : elementWord c' k r' e' = elementWord c w.toNat r.toNat e.toNat
  · rw [← elementPosition, ← elementPosition, hi] at hd
    rw [elementAt, elementAt, hi, hword, getField_putField_disjoint _ _ _ _ _ _ (elementBit_fits _ hk) (by omega)]
  · have hpeek := hframe.1 .vec (elementWord c' k r' e' : Nat) (by omega)
    rw [peek_eq_some.mpr ⟨hin, rfl⟩, peek_eq_some] at hpeek
    rw [elementAt, elementAt, hpeek.2]

end

/-- Settles O33: a write keeps the map of `VEC`, so the read passes `locate` after it where it did before, and finds
the element's new or old bits. -/
theorem elementWriteReadLaws : Obligations.ElementWriteReadLaws := by
  refine ⟨fun c w r e d s t h => ?_, fun c c' w w' r r' e e' d v s t u h hread hv hd => ?_⟩
  · obtain ⟨hf, -, hframe⟩ := exec_vSete_eq_next h
    rw [exec_vGete_located ((elementFault_frame hframe ..).trans hf), elementAt_vSete_same h]
  · obtain ⟨-, -, hframe⟩ := exec_vSete_eq_next h
    obtain ⟨hf, hu⟩ := exec_vGete_eq_next hread
    obtain rfl : elementAt c' w'.toNat r'.toNat e'.toNat s = v := by simpa [hu] using hv
    rw [exec_vGete_located ((elementFault_frame hframe ..).trans hf), elementAt_vSete_disjoint h hf hd]

/-! The views of one storage (R116 (d), (e), (f); 10_state.md R31) -/

theorem quadAt_eq_doubles (n : Nat) (s : State) : quadAt n s = doubleAt (2 * n + 1) s ++ doubleAt (2 * n) s := by
  rw [quadAt, doubleAt, doubleAt, show 2 * (2 * n + 1) + 1 = 4 * n + 3 by omega,
    show 2 * (2 * n + 1) = 4 * n + 2 by omega, show 2 * (2 * n) = 4 * n by omega]
  exact BitVec.append_assoc

/-- An element of width 32 is a whole word (10_state.md R31 (b)). -/
theorem elementAt_32 (c : SizeClass) (r e : Nat) (s : State) :
    elementAt c 32 r e s = wordAt .vec (r * sizeClassWords c + e : Nat) s := by
  rw [elementAt, elementWord, elementBit, Nat.mul_div_cancel_left e (by omega), Nat.mul_mod_right, getField,
    BitVec.ushiftRight_zero, and_mask_32]

theorem toNat_getField (v : Word) (o : Nat) {k : Nat} (hk : k ≤ 32) :
    (getField v o k).toNat = v.toNat / 2 ^ o % 2 ^ k := by
  rw [getField, toNat_and_mask _ hk, BitVec.toNat_setWidth, BitVec.toNat_ushiftRight, Nat.shiftRight_eq_div_pow]

/-- A field is its two halves. -/
theorem toNat_getField_halves (v : Word) (o : Nat) {k : Nat} (hk : 2 * k ≤ 32) :
    (getField v o (2 * k)).toNat = (getField v (o + k) k).toNat * 2 ^ k + (getField v o k).toNat := by
  rw [toNat_getField v o hk, toNat_getField v _ (by omega), toNat_getField v o (by omega), two_mul, pow_add 2 k k,
    Nat.mod_mul, pow_add 2 o k, ← Nat.div_div_eq_div_mul, add_comm, mul_comm]

/-- The widths an element's halves can have (R116 (f)). -/
theorem halfWidth_spec : ∀ k ∈ [1, 2, 4, 8, 16], 0 < k ∧ 2 * k ≤ 32 ∧ 2 * k ∈ [1, 2, 4, 8, 16, 32] := by decide

/-- The two halves of an element lie in its word, the odd one `k` bits above the even one. -/
theorem elementWord_halves (c : SizeClass) {k : Nat} (r e : Nat) (hk : k ∈ [1, 2, 4, 8, 16]) :
    elementWord c k r (2 * e) = elementWord c (2 * k) r e ∧
      elementWord c k r (2 * e + 1) = elementWord c (2 * k) r e ∧
      elementBit k (2 * e) = elementBit (2 * k) e ∧ elementBit k (2 * e + 1) = elementBit (2 * k) e + k := by
  obtain ⟨hpos, -, hlegal⟩ := halfWidth_spec k hk
  have hfits : 2 * k * e % 32 + 2 * k ≤ 32 := elementBit_fits e hlegal
  have heven : k * (2 * e) = 2 * k * e := by ring
  have hodd : k * (2 * e + 1) = 2 * k * e + k := by ring
  simp only [elementWord, elementBit, heven, hodd, true_and]
  generalize 2 * k * e = x at hfits ⊢
  omega

/-- The same bits as an element of a quad and of one of its doubles (10_state.md R31 (c)). -/
theorem elementAt_quad_eq_double {k : Nat} (n e : Nat) (s : State) (hk : k ∈ [1, 2, 4, 8, 16, 32]) :
    elementAt .quad k n e s = elementAt .double k (2 * n + k * e / 64) (e % (64 / k)) s := by
  have hdvd : k ∣ 64 := (by decide : ∀ k ∈ [1, 2, 4, 8, 16, 32], k ∣ 64) k hk
  have hmod : k * (e % (64 / k)) = k * e % 64 := by rw [← Nat.mul_mod_mul_left, Nat.mul_div_cancel' hdvd]
  have hword : elementWord .double k (2 * n + k * e / 64) (e % (64 / k)) = elementWord .quad k n e := by
    simp only [elementWord, sizeClassWords, hmod]; omega
  have hbit : elementBit k (e % (64 / k)) = elementBit k e := by simp only [elementBit, hmod]; omega
  rw [elementAt, elementAt, hword, hbit]

/-- Settles O34: every view reads the one array, so each identity is one of the words and bits it names. -/
theorem viewsOfOneStorage : Obligations.ViewsOfOneStorage := by
  refine ⟨fun n s _ => quadAt_eq_doubles n s, fun m s _ => ?_, fun c k r e s hk => ?_,
    fun k n e s hk _ => elementAt_quad_eq_double n e s hk⟩
  · rw [elementAt_32, elementAt_32, doubleAt, sizeClassWords, mul_comm m 2]; rfl
  · obtain ⟨-, hk32, -⟩ := halfWidth_spec k hk
    obtain ⟨hw0, hw1, hb0, hb1⟩ := elementWord_halves c r e hk
    rw [elementAt, elementAt, elementAt, hw0, hw1, hb0, hb1, toNat_getField_halves _ _ hk32]

end Sys2Proof.Machine
end

section
/-! Proofs of the statements on 42_memory_ops.md: the word and value accesses (R120 to R123), their laws (R126), and
the operations that replace the map of memory (R124, R125). -/

namespace Sys2Proof.Machine

/-! Reading a word or a value (R120, R122) -/

section
variable {w : BitVec 6} {a : Word} {s : State}

theorem exec_mRdw : exec (.mRdw a) s = andThen (readWord a.toNat s) fun v => complete (.word v) s := rfl

theorem exec_mRdv : exec (.mRdv w a) s = andThen (readValue a.toNat w.toNat s) fun v => complete (.word v) s := rfl

theorem exec_mRdw_mapped (hm : WordsMapped a.toNat s) :
    exec (.mRdw a) s = .next { s with answer := .word (wordRead a.toNat s) } := by
  rw [exec_mRdw, readWord_mapped hm]; rfl

theorem exec_mRdv_mapped (hw : 1 ≤ w.toNat ∧ w.toNat ≤ 32) (hm : WordsMapped a.toNat s) :
    exec (.mRdv w a) s = .next { s with answer := .word (wordRead a.toNat s &&& mask w.toNat) } := by
  rw [exec_mRdv, readValue, valueWidthFault_legal hw, unlessFault_none, readWord_mapped hm]; rfl

end

/-- Settles O35: byte `j` from the address is bits `8j+7 : 8j` of the word read, and a word is its four bytes. -/
theorem wordReadIsFourBytes : Obligations.WordReadIsFourBytes := by
  refine fun a s hm => ⟨_, _, _, _, byteAt_wordRead hm 0 (by decide), byteAt_wordRead hm 1 (by decide),
    byteAt_wordRead hm 2 (by decide), byteAt_wordRead hm 3 (by decide), ?_⟩
  rw [exec_mRdw_mapped hm]
  exact congrArg (fun v => Host.Outcome.next { s with answer := .word v }) (word_of_bytes _).symm

/-- Settles O37: the two reads find the same word, which the value read masks. -/
theorem valueReadMasksTheWord : Obligations.ValueReadMasksTheWord :=
  fun _ _ _ h1 h32 hm => ⟨_, exec_mRdw_mapped hm, exec_mRdv_mapped ⟨h1, h32⟩ hm⟩

/-! Writing a word or a value (R121, R123) -/

section
variable {w : BitVec 6} {a d : Word} {s t : State}

theorem exec_mWrw : exec (.mWrw a d) s = andThen (writeWord a.toNat d s) (complete .none) := rfl

theorem exec_mWrv : exec (.mWrv w a d) s = andThen (writeValue a.toNat d w.toNat s) (complete .none) := rfl

/-- Where its width is legal and its words are mapped, a value write is the word write of the word there with its
low bits replaced. -/
theorem exec_mWrv_mapped (hw : 1 ≤ w.toNat ∧ w.toNat ≤ 32) (hm : WordsMapped a.toNat s) :
    exec (.mWrv w a d) s = exec (.mWrw a (putField (wordRead a.toNat s) 0 w.toNat d)) s := by
  rw [exec_mWrv, writeValue, valueWidthFault_legal hw, unlessFault_none, readWord_mapped hm, andThen_next, exec_mWrw]

/-- A word write that completes met no fault, so its words are mapped. -/
theorem wordsMapped_of_mWrw (h : exec (.mWrw a d) s = .next t) : WordsMapped a.toNat s := by
  by_contra hm
  rw [execMWrw_fault (writeWord_unmapped d hm)] at h
  cases h

/-- A value write that completes met neither fault, so it is a word write. -/
theorem exec_mWrv_eq_next (h : exec (.mWrv w a d) s = .next t) :
    (1 ≤ w.toNat ∧ w.toNat ≤ 32) ∧
      exec (.mWrw a (putField (wordRead a.toNat s) 0 w.toNat d)) s = .next t := by
  have hw : 1 ≤ w.toNat ∧ w.toNat ≤ 32 := by
    by_contra hw
    rw [execMWrv_fault (writeValue_illegal d hw)] at h
    cases h
  have hm : WordsMapped a.toNat s := by
    by_contra hm
    rw [execMWrv_fault (writeValue_unmapped d hw hm)] at h
    cases h
  exact ⟨hw, (exec_mWrv_mapped hw hm).symm.trans h⟩

/-- A frame keeps the map, so the same words are mapped after it. -/
theorem wordsMapped_frame {p : Bank → Int → Prop} (h : Frame p s t) {x : Nat} (hm : WordsMapped x s) :
    WordsMapped x t := by
  simpa only [WordsMapped, inRange_frame h] using hm

end

/-- Settles O36: all that `write_word` does on mapped words, then an answer that leaves the banks and the trace
alone. -/
theorem wordWriteSetsFourBytes : Obligations.WordWriteSetsFourBytes := by
  intro a d s hm
  obtain ⟨t, ht, hword, hbytes, hframe, lo, hi, hlo, hhi, hev⟩ := writeWord_spec d hm
  refine ⟨setAnswer .none t, ?_, fun j hj => ?_, fun x hx => ?_, frame_setAnswer _ hframe,
    ⟨lo, hi, ?_, fun ha => ?_, hev⟩, rfl⟩
  · rw [exec_mWrw, ht]; rfl
  · rw [byteAt_setAnswer, byteAt_wordRead (wordsMapped_frame hframe hm) j hj, hword]
  · rw [byteAt_setAnswer, hbytes x hx]
  · rw [peek_setAnswer, hlo]
  · rw [peek_setAnswer, hhi ha]

/-- Settles O38: the value write is O36's write of the word there with its low bits replaced. -/
theorem valueWriteReplacesTheLowBits : Obligations.ValueWriteReplacesTheLowBits := by
  intro w a d s h1 h32 hm
  obtain ⟨t, ht, hbyte, hrest⟩ := wordWriteSetsFourBytes a (putField (wordRead a.toNat s) 0 w.toNat d) s hm
  refine ⟨t, (exec_mWrv_mapped ⟨h1, h32⟩ hm).trans ht,
    fun j k hj hk => ⟨_, _, byteAt_wordRead hm j hj, hbyte j hj, ?_⟩, hrest⟩
  rw [BitVec.getLsbD_extractLsb', BitVec.getLsbD_extractLsb', getLsbD_putField _ _ _ _ _ (by omega)]
  simp [hk]

/-! The laws of R126 -/

/-- After a word write that completes, its words are mapped and the word there is the one written. -/
theorem wordRead_mWrw {a d : Word} {s t : State} (h : exec (.mWrw a d) s = .next t) :
    WordsMapped a.toNat t ∧ wordRead a.toNat t = d := by
  have hm := wordsMapped_of_mWrw h
  obtain ⟨u, hu, hbyte, -, hframe, -⟩ := wordWriteSetsFourBytes a d s hm
  cases hu.symm.trans h
  have hmt := wordsMapped_frame hframe hm
  exact ⟨hmt, word_eq_bytes fun j hj => Option.some.inj ((byteAt_wordRead hmt j hj).symm.trans (hbyte j hj))⟩

/-- The low bits that a value write put are those a value read of the same width takes. -/
theorem putField_and_mask (old v : Word) {k : Nat} (hk : k ≤ 32) : putField old 0 k v &&& mask k = v &&& mask k := by
  simpa [getField] using getField_putField_same old v 0 k (by omega)

/-- Replacing the low `8n` bits replaces the low `n` bytes, whole. -/
theorem extract_putField_bytes (old v : Word) (n : Nat) {j : Nat} (hj : j < 4) :
    (putField old 0 (8 * n) v).extractLsb' (8 * j) 8 =
      if j < n then v.extractLsb' (8 * j) 8 else old.extractLsb' (8 * j) 8 := by
  refine BitVec.eq_of_getLsbD_eq fun i hi => ?_
  rw [BitVec.getLsbD_extractLsb', getLsbD_putField _ _ _ _ _ (by omega)]
  by_cases hn : j < n
  · rw [if_pos hn, if_pos (by omega), BitVec.getLsbD_extractLsb', Nat.sub_zero]
  · rw [if_neg hn, if_neg (by omega), BitVec.getLsbD_extractLsb']

/-- A byte address divided by 4 is not negative on the bus `A`, which is signed (30_encoding.md R79). -/
theorem toInt_wordIndex (a : Word) : (BitVec.ofNat 32 (a.toNat / 4)).toInt = wordIndex a.toNat := by
  have ha := a.isLt
  rw [BitVec.toInt_eq_toNat_of_lt (by rw [BitVec.toNat_ofNat]; omega), BitVec.toNat_ofNat,
    Nat.mod_eq_of_lt (by omega), wordIndex]

/-- What a value write of `8n` bits does to each byte: the `n` from its address are the value's, the rest of the
word's four are as they were, and so are all others. -/
theorem byteAt_mWrv {n : Nat} {w : BitVec 6} {a d : Word} {s t : State} (hn : w.toNat = 8 * n)
    (h : exec (.mWrv w a d) s = .next t) :
    (∀ j < n, byteAt (a.toNat + j) t = some (d.extractLsb' (8 * j) 8)) ∧
      ∀ x : Nat, x < a.toNat ∨ a.toNat + n ≤ x → byteAt x t = byteAt x s := by
  obtain ⟨⟨-, h32⟩, hword⟩ := exec_mWrv_eq_next h
  have hm := wordsMapped_of_mWrw hword
  obtain ⟨u, hu, hbyte, hother, -⟩ := wordWriteSetsFourBytes _ _ s hm
  cases hu.symm.trans hword
  rw [hn] at hbyte
  refine ⟨fun j hj => ?_, fun x hx => ?_⟩
  · rw [hbyte j (by omega), extract_putField_bytes _ _ _ (by omega), if_pos hj]
  · by_cases hx4 : x < a.toNat ∨ a.toNat + 4 ≤ x
    · exact hother x hx4
    · obtain ⟨j, rfl⟩ : ∃ j, x = a.toNat + j := ⟨x - a.toNat, by omega⟩
      rw [hbyte j (by omega), extract_putField_bytes _ _ _ (by omega), if_neg (by omega),
        byteAt_wordRead hm j (by omega)]

/-- Settles O40: a write that completes leaves its words mapped, so the read after it completes and finds the word
written; an aligned write is one `set`. -/
theorem memoryWriteReadLaws : Obligations.MemoryWriteReadLaws := by
  refine ⟨fun a d s t h => ?_, fun w a d s t h => ?_, fun n w a d s t hn h => byteAt_mWrv hn h, fun a d s ha => ?_⟩
  · obtain ⟨hm, hword⟩ := wordRead_mWrw h
    rw [exec_mRdw_mapped hm, hword]
  · obtain ⟨hw, h⟩ := exec_mWrv_eq_next h
    obtain ⟨hm, hword⟩ := wordRead_mWrw h
    rw [exec_mRdv_mapped hw hm, hword, putField_and_mask _ _ hw.2]
  · rw [exec_mWrw, exec_wsSet, writeWord, if_pos ha, toInt_wordIndex]

/-! Replacing the map of memory (R124, R125) -/

theorem others_trans {b : Bank} {s t u : State} (h : OtherBanksKept b s t) (g : OtherBanksKept b t u) :
    OtherBanksKept b s u := by
  obtain ⟨hpeek, hmap, hctx⟩ := h
  obtain ⟨gpeek, gmap, gctx⟩ := g
  exact ⟨fun b' i hb => (gpeek b' i hb).trans (hpeek b' i hb),
    fun b' hb => ⟨(gmap b' hb).1.trans (hmap b' hb).1, (gmap b' hb).2.trans (hmap b' hb).2⟩, hctx.trans gctx⟩

/-- The events of `clear(MEM, m)`: one notification of 0 for each word, or none. -/
theorem ev_bankClear_mem (m : Bool) (s : State) : (bankClear .mem m s).ev = s.ev ++
    if m then (List.range (bankSize .mem s)).map (fun k =>
      .valueChanged .mem (bankOff .mem s + (k : Nat)) 0 .mem) else [] := by
  simp [bankClear, bankEvents_mem, zeroBank, bankSize, bankOff]

section
variable (size : Nat) (o : Int) (n m : Bool) (s : State)

/-- The new map, its `SettingsChanged` if asked for, then the clear. -/
theorem remapMemory_eq : remapMemory size o n m s =
    bankClear .mem m (emitAll (if n then [.settingsChanged size o .mem] else []) (remapBank .mem size o s)) := by
  cases n
  · simp [remapMemory, emitAll, remapBank]
  · rfl

theorem bankSize_remapMemory : bankSize .mem (remapMemory size o n m s) = size := by
  rw [remapMemory_eq, bankSize_bankClear, bankSize_emitAll, bankSize_remapBank_same, if_pos rfl]

theorem bankOff_remapMemory : bankOff .mem (remapMemory size o n m s) = o := by
  rw [remapMemory_eq, bankOff_bankClear, bankOff_emitAll, bankOff_remapBank_same]

theorem peek_remapMemory {i : Int} (hi : inRange .mem i (remapMemory size o n m s) = true) :
    peek .mem i (remapMemory size o n m s) = some 0 := by
  rw [peek_of_slot (f := fun _ => 0) fun k _ => by rw [remapMemory_eq, slotWord_bankClear_same], if_pos hi]

theorem others_remapMemory : OtherBanksKept .mem s (remapMemory size o n m s) := by
  rw [remapMemory_eq]
  exact others_trans (others_emitAll _ (others_remapBank .mem size o s)) (others_bankClear .mem m _)

theorem ev_remapMemory : (remapMemory size o n m s).ev =
    s.ev ++ (if n then [.settingsChanged size o .mem] else []) ++
      if m then (List.range size).map (fun k => .valueChanged .mem (o + (k : Nat)) 0 .mem) else [] := by
  rw [remapMemory_eq, ev_bankClear_mem, emitAll_ev, remapBank_ev, bankSize_emitAll, bankSize_remapBank_same,
    if_pos rfl, bankOff_emitAll, bankOff_remapBank_same]

end

section
variable {a : Word} (n m : Bool) {s : State}

theorem exec_mResize_same (h : a.toInt = s.mem.n) : exec (.mResize a n m) s = .next { s with answer := .none } :=
  if_pos h

theorem exec_mResize_legal (h : a.toInt ≠ s.mem.n) (hl : 0 ≤ a.toInt ∧ a.toInt ≤ Config.memMaxWords) :
    exec (.mResize a n m) s = .next (setAnswer .none (remapMemory a.toInt.toNat s.mem.off n m s)) :=
  (if_neg h).trans (if_pos ((legalSize_iff _).mpr hl))

theorem exec_mResize_illegal (h : a.toInt ≠ s.mem.n) (hl : ¬ (0 ≤ a.toInt ∧ a.toInt ≤ Config.memMaxWords)) :
    exec (.mResize a n m) s = .fault (.addressing .mem a.toInt) :=
  (if_neg h).trans (if_neg (mt (legalSize_iff _).mp hl))

theorem exec_mSetoff_same (h : a.toInt = s.mem.off) : exec (.mSetoff a n m) s = .next { s with answer := .none } :=
  if_pos h

theorem exec_mSetoff_other (h : a.toInt ≠ s.mem.off) :
    exec (.mSetoff a n m) s = .next (setAnswer .none (remapMemory s.mem.n a.toInt n m s)) :=
  if_neg h

end

/-- Settles O41: the three branches of R124, the middle one with the new size at the old offset. -/
theorem resizeClearsTheMemory : Obligations.ResizeClearsTheMemory := by
  refine fun a n m s => ⟨exec_mResize_same n m, fun h h0 hmax => ?_, exec_mResize_illegal n m⟩
  have hsize := bankSize_remapMemory a.toInt.toNat s.mem.off n m s
  refine ⟨_, exec_mResize_legal n m h ⟨h0, hmax⟩, ?_, ?_, fun i hi => ?_,
    others_setAnswer _ (others_remapMemory ..), ?_, rfl⟩
  · rw [bankSize_setAnswer, hsize, Int.toNat_of_nonneg h0]
  · rw [bankOff_setAnswer, bankOff_remapMemory]; rfl
  · rw [inRange_setAnswer] at hi
    rw [peek_setAnswer, peek_remapMemory (hi := hi)]
  · rw [setAnswer_ev, ev_remapMemory, bankSize_setAnswer, hsize]; rfl

/-- Settles O42: the two branches of R125, the second with the old size at the new offset. -/
theorem memoryReoffsetClearsTheMemory : Obligations.MemoryReoffsetClearsTheMemory := by
  refine fun a n m s => ⟨exec_mSetoff_same n m, fun h => ?_⟩
  refine ⟨_, exec_mSetoff_other n m h, ?_, ?_, fun i hi => ?_, others_setAnswer _ (others_remapMemory ..), ?_, rfl⟩
  · rw [bankSize_setAnswer, bankSize_remapMemory]; rfl
  · rw [bankOff_setAnswer, bankOff_remapMemory]
  · rw [inRange_setAnswer] at hi
    rw [peek_setAnswer, peek_remapMemory (hi := hi)]
  · rw [setAnswer_ev, ev_remapMemory]; rfl

end Sys2Proof.Machine
end

section
/-! Proofs of the statements on 43_machine_state_ops.md: the helpers of the PC (R130 to R132), the snapshot (R133), and
restoring one as four loads (R134). -/

namespace Sys2Proof.Machine

/-! Banks that agree -/

/-- Two states agree on one bank: on what a reader finds at every index, on the size and on the offset. -/
def SameBank (b : Bank) (s t : State) : Prop :=
  (∀ i, peek b i t = peek b i s) ∧ bankSize b t = bankSize b s ∧ bankOff b t = bankOff b s

theorem SameBank.refl (b : Bank) (s : State) : SameBank b s s := ⟨fun _ => rfl, rfl, rfl⟩

theorem SameBank.trans {b : Bank} {s t u : State} (h : SameBank b s t) (g : SameBank b t u) : SameBank b s u := by
  obtain ⟨hpeek, hsize, hoff⟩ := h
  obtain ⟨gpeek, gsize, goff⟩ := g
  exact ⟨fun i => (gpeek i).trans (hpeek i), gsize.trans hsize, goff.trans hoff⟩

theorem sameBank_setAnswer (b : Bank) (a : Answer) (s : State) : SameBank b s (setAnswer a s) :=
  ⟨fun _ => peek_setAnswer .., bankSize_setAnswer .., bankOff_setAnswer ..⟩

theorem sameBank_loadMap_ne {b b' : Bank} (p : SparseMap) (s : State) (h : b' ≠ b) :
    SameBank b' s (loadMap b p s) := by
  obtain ⟨hpeek, hmap, -⟩ := others_loadMap b p s
  exact ⟨fun i => hpeek b' i h, hmap b' h⟩

/-- A bank's own serialization, loaded into whatever state, gives the bank back. -/
theorem sameBank_loadMap_serialize (b : Bank) {s : State} (u : State) (h : bankSize .mem s ≤ Config.memMaxWords) :
    SameBank b s (loadMap b (serialize b s) u) := by
  refine ⟨peek_loadMap_serialize u h, ?_, ?_⟩
  · rw [bankSize_loadMap, serialize_size, Int.toNat_natCast]
  · rw [bankOff_loadMap, serialize_off]

/-- The empty record zeroes every word that is left in range, and the offset. -/
theorem loadMap_empty_zero (b : Bank) (u : State) :
    (∀ i w, peek b i (loadMap b .empty u) = some w → w = 0) ∧ bankOff b (loadMap b .empty u) = 0 := by
  refine ⟨fun i w hw => ?_, bankOff_loadMap ..⟩
  rw [peek_loadMap rfl (loadOk_empty b u) i (peek_eq_some.mp hw).1] at hw
  exact (Option.some.inj hw).symm

/-! The snapshot (R133) -/

theorem exec_msSnap (s : State) : exec .msSnap s = complete (.snapshot (snapshotOf s)) s := rfl

theorem statusUsed_iff {s : State} : statusUsed s = true ↔ ∃ i v, peek .status i s = some v ∧ v ≠ 0 := by
  simp only [statusUsed, List.any_eq_true, List.mem_range, bne_iff_ne]
  constructor
  · rintro ⟨k, hk, hv⟩
    exact ⟨_, _, peek_eq_some.mpr ⟨inRange_slot hk, by rw [wordAt, slotOf_slot]⟩, hv⟩
  · rintro ⟨i, v, hv, hne⟩
    obtain ⟨hr, rfl⟩ := peek_eq_some.mp hv
    exact ⟨slotOf .status i s, (slotOf_spec hr).2, hne⟩

theorem statusUsed_of_zero {s : State} (h : ∀ i v, peek .status i s = some v → v = 0) : statusUsed s = false :=
  Bool.eq_false_iff.mpr fun hu => by
    obtain ⟨i, v, hv, hne⟩ := statusUsed_iff.mp hu
    exact hne (h i v hv)

theorem spec_snapshotOf (s : State) :
    (snapshotOf s).spec = if statusUsed s then some (serialize .status s) else none := rfl

/-- Settles O45: the snapshot's keys are the serializations, and the last depends on a status word that is used. -/
theorem snapshotIsTheBanksSerialized : Obligations.SnapshotIsTheBanksSerialized := by
  refine fun s => ⟨snapshotOf s, fun b => serialize b s, exec_msSnap s, fun b => exec_wsSer b s, rfl, rfl, rfl,
    fun hu => ?_, fun hz => ?_⟩
  · rw [spec_snapshotOf, if_pos (statusUsed_iff.mpr hu)]
  · rw [spec_snapshotOf, statusUsed_of_zero hz]; rfl

/-! Restoring a snapshot (R134) -/

theorem exec_msRest (p : Snapshot) (s : State) :
    exec (.msRest p) s = unlessFault (restoreFault p s) (complete .none (restore p s)) := rfl

theorem exec_msRest_ok {p : Snapshot} {s : State} (h : ∀ x ∈ snapshotMaps p, LoadOk x.1 x.2 s) :
    exec (.msRest p) s = .next (setAnswer .none (restore p s)) := by
  rw [exec_msRest, restoreFault_eq_none.mpr h]; rfl

/-- The checks run in the order of the maps, so the first that fails names the fault. -/
theorem exec_msRest_fault {p : Snapshot} {s : State} {b : Bank} {m : SparseMap} (pre post : List (Bank × SparseMap))
    (hp : snapshotMaps p = pre ++ (b, m) :: post) (hpre : ∀ x ∈ pre, LoadOk x.1 x.2 s) (h : ¬ LoadOk b m s) :
    ∃ f, exec (.wsDeser b m) s = .fault f ∧ exec (.msRest p) s = .fault f := by
  cases hf : loadFault b m s with
  | none => exact absurd (loadFault_eq_none.mp hf) h
  | some f =>
    have hskip : pre.findSome? (fun x => loadFault x.1 x.2 s) = none :=
      List.findSome?_eq_none_iff.mpr fun x hx => loadFault_eq_none.mpr (hpre x hx)
    have hr : restoreFault p s = some f := by
      simp [restoreFault, hp, hskip, hf]
    exact ⟨f, exec_wsDeser_fault hf, by rw [exec_msRest, hr, unlessFault_some]⟩

/-- A load does not read the last answer, and replaces it. -/
theorem setAnswer_loadMap_setAnswer (a a' : Answer) (b : Bank) (p : SparseMap) (s : State) :
    setAnswer a (loadMap b p (setAnswer a' s)) = setAnswer a (loadMap b p s) := by
  have hr : Retraced [] s (setAnswer a' s) := ⟨a', rfl⟩
  obtain ⟨a'', h⟩ := hr.loadMap b p
  rw [h]; rfl

/-- A `WS.DESER` after another operation's answer, its checks having passed in whatever state. -/
theorem exec_wsDeser_setAnswer {b : Bank} {p : SparseMap} {s : State} (h : LoadOk b p s) (a : Answer) (u : State) :
    exec (.wsDeser b p) (setAnswer a u) = .next (setAnswer .none (loadMap b p u)) := by
  rw [exec_wsDeser_ok ((loadOk_congr _ _).mpr h), setAnswer_loadMap_setAnswer]

/-- Settles O46: no load changes what another's checks find, and the first check that fails names the fault. -/
theorem restoreIsFourLoads : Obligations.RestoreIsFourLoads := by
  refine fun p s => ⟨fun hg hm hv hs => ?_, fun hg => ?_, fun hg hm => ?_, fun hg hm hv => ?_, fun hg hm hv hs => ?_⟩
  · exact ⟨_, _, _, _, exec_wsDeser_ok hg, exec_wsDeser_setAnswer hm .., exec_wsDeser_setAnswer hv ..,
      exec_wsDeser_setAnswer hs .., exec_msRest_ok (by simp [snapshotMaps, hg, hm, hv, hs])⟩
  · exact exec_msRest_fault [] _ rfl (by simp) hg
  · exact exec_msRest_fault [_] _ rfl (by simp [hg]) hm
  · exact exec_msRest_fault [_, _] _ rfl (by simp [hg, hm]) hv
  · exact exec_msRest_fault [_, _, _] _ rfl (by simp [hg, hm, hv]) hs

/-! A snapshot restored (R133, R134; 90_conflicts.md C8) -/

/-- The map `MS.REST` loads into a bank, an absent key as the empty record. -/
def snapshotMap (p : Snapshot) : Bank → SparseMap
  | .gpr => p.arm.getD .empty
  | .mem => p.memory.getD .empty
  | .vec => p.neon.getD .empty
  | .status => p.spec.getD .empty

theorem snapshotMaps_eq (p : Snapshot) :
    snapshotMaps p = [Bank.gpr, .mem, .vec, .status].map fun b => (b, snapshotMap p b) := rfl

theorem sameBank_loads {b : Bank} {maps : List (Bank × SparseMap)} (h : ∀ x ∈ maps, b ≠ x.1) (s : State) :
    SameBank b s (maps.foldl (fun t x => loadMap x.1 x.2 t) s) := by
  induction maps generalizing s with
  | nil => exact .refl b s
  | cons x maps ih =>
    obtain ⟨hx, hmaps⟩ := List.forall_mem_cons.mp h
    exact (sameBank_loadMap_ne x.2 s hx).trans (ih hmaps _)

/-- A restore leaves each bank as its own load does: the later loads are of other banks. -/
theorem restore_sameBank (p : Snapshot) (s : State) (b : Bank) :
    ∃ u, SameBank b (loadMap b (snapshotMap p b) u) (restore p s) := by
  cases b with
  | gpr => exact ⟨_, sameBank_loads (maps := (snapshotMaps p).drop 1) (by simp [snapshotMaps]) _⟩
  | mem => exact ⟨_, sameBank_loads (maps := (snapshotMaps p).drop 2) (by simp [snapshotMaps]) _⟩
  | vec => exact ⟨_, sameBank_loads (maps := (snapshotMaps p).drop 3) (by simp [snapshotMaps]) _⟩
  | status => exact ⟨_, .refl _ _⟩

theorem snapshotMap_snapshotOf {b : Bank} {s : State} (h : b = .status → statusUsed s = true) :
    snapshotMap (snapshotOf s) b = serialize b s := by
  cases b with
  | status => rw [snapshotMap, spec_snapshotOf, if_pos (h rfl)]; rfl
  | gpr | vec | mem => rfl

theorem snapshotMap_snapshotOf_unused {s : State} (h : statusUsed s = false) :
    snapshotMap (snapshotOf s) .status = .empty := by
  rw [snapshotMap, spec_snapshotOf, h]; rfl

/-- A snapshot passes the checks of a restore into whatever state. -/
theorem loadOk_snapshotOf {s : State} (u : State) (h : bankSize .mem s ≤ Config.memMaxWords) :
    ∀ x ∈ snapshotMaps (snapshotOf s), LoadOk x.1 x.2 u := by
  rw [snapshotMaps_eq, List.forall_mem_map]
  intro b _
  by_cases hb : b = .status → statusUsed s = true
  · rw [snapshotMap_snapshotOf hb]
    exact serialize_ok b s u h
  · obtain ⟨rfl, hu⟩ := Classical.not_imp.mp hb
    rw [snapshotMap_snapshotOf_unused (Bool.eq_false_iff.mpr hu)]
    exact loadOk_empty .status u

/-- A bank whose serialization a snapshot carries comes back. -/
theorem sameBank_restore_snapshotOf {b : Bank} {s : State} (u : State) (h : bankSize .mem s ≤ Config.memMaxWords)
    (hb : b = .status → statusUsed s = true) : SameBank b s (restore (snapshotOf s) u) := by
  obtain ⟨w, hw⟩ := restore_sameBank (snapshotOf s) u b
  rw [snapshotMap_snapshotOf hb] at hw
  exact (sameBank_loadMap_serialize b w h).trans hw

/-- An unused status bank, which a snapshot leaves out, is left with zero words at offset 0. -/
theorem status_restore_snapshotOf {s : State} (u : State) (h : statusUsed s = false) :
    (∀ i w, peek .status i (restore (snapshotOf s) u) = some w → w = 0) ∧
      bankOff .status (restore (snapshotOf s) u) = 0 := by
  obtain ⟨w, hpeek, -, hoff⟩ := restore_sameBank (snapshotOf s) u .status
  rw [snapshotMap_snapshotOf_unused h] at hpeek hoff
  obtain ⟨hzero, hoff0⟩ := loadMap_empty_zero .status w
  exact ⟨fun i v hv => hzero i v ((hpeek i).symm.trans hv), hoff.trans hoff0⟩

/-- Settles O47: each bank is left as its own load leaves it, by its serialization or, for an unused status bank, by
the empty record. -/
theorem restoreOfSnapshotRestoresEveryBank : Obligations.RestoreOfSnapshotRestoresEveryBank := by
  refine fun s u hn => ⟨_, _, snapshotOf s, exec_msSnap s, rfl, exec_msRest_ok (loadOk_snapshotOf u hn),
    fun b hb => ?_, rfl, fun hu => ?_, fun hz => ?_⟩
  · exact (sameBank_restore_snapshotOf u hn fun h => absurd h hb).trans (sameBank_setAnswer ..)
  · obtain ⟨hpeek, -, hoff⟩ :=
      (sameBank_restore_snapshotOf u hn fun _ => statusUsed_iff.mpr hu).trans (sameBank_setAnswer _ .none _)
    exact ⟨hpeek, hoff⟩
  · simpa only [peek_setAnswer, bankOff_setAnswer] using status_restore_snapshotOf u (statusUsed_of_zero hz)

/-! The helpers of the PC (R130 to R132) and the highlight (R135) -/

/-- `WS.SET` at the PC's index, where the PC is readable. -/
theorem exec_wsSet_pc {s : State} (v : Word) (n : Bool) (h : PcReadable s) :
    ∃ t, exec (.wsSet .gpr 15 v n) s = .next t ∧ pcOf t = v ∧ Frame (fun b i => b = .gpr ∧ i = 15) s t ∧
      t.ev = s.ev ++ (if n then [.valueChanged .gpr 15 v .gpr] else []) ++ [.pcChanged v .gpr] ∧ t.answer = .none := by
  obtain ⟨t, ht, hpeek, hframe, hev, hanswer⟩ := (wsSetWritesOneWord .gpr 15 v n s).1 h
  exact ⟨t, ht, (peek_eq_some.mp hpeek).2, hframe, hev, hanswer⟩

/-- Settles O43: the helpers are `WS.GET` and `WS.SET` at `GPR` 15 (O44), so O17 and O18 say what they do. -/
theorem programCounterHelpers : Obligations.ProgramCounterHelpers := by
  intro v s
  obtain ⟨hget, hset, hadv⟩ := programCounterHelpersAreBankAccesses v s
  rw [hget, hset, hadv]
  refine ⟨fun h => ⟨?_, ?_, ?_⟩, fun h => ?_⟩
  · exact (wsGetReturnsTheWord .gpr 15 s).1 (pcOf s) (peek_eq_some.mpr ⟨h, rfl⟩)
  · obtain ⟨t, ht, hpc, hframe, hev, hanswer⟩ := exec_wsSet_pc v true h
    exact ⟨t, ht, hpc, hframe, hev.trans (List.append_assoc ..), hanswer⟩
  · obtain ⟨t, ht, hpc, hframe, hev, hanswer⟩ := exec_wsSet_pc (pcOf s + 4) false h
    refine ⟨t, ht, ?_, hframe, ?_, hanswer⟩
    · rw [hpc, BitVec.toNat_add]; rfl
    · rw [hpc, hev, if_neg Bool.false_ne_true, List.append_nil]
  · have hr : inRange .gpr 15 s = false := Bool.eq_false_iff.mpr h
    exact ⟨(wsGetReturnsTheWord .gpr 15 s).2 (peek_eq_none.mpr hr), (wsSetWritesOneWord .gpr 15 v true s).2 hr,
      (wsSetWritesOneWord .gpr 15 _ false s).2 hr⟩

/-- Settles O48: one event emitted, and no answer. -/
theorem highlightOnlyEmits : Obligations.HighlightOnlyEmits := fun b a d s =>
  ⟨setAnswer .none (emit (.highlightIntent b a d .ms) s), rfl,
    (sameBanks_emit _ s).trans (sameBanks_setAnswer _ _), ⟨rfl, rfl, rfl, rfl⟩, rfl, rfl⟩

end Sys2Proof.Machine
end

section
/-! Proofs of the statements on 44_controller_commands.md: runs along effects that advance the PC
(R144 to R146, R149 (d)). -/

namespace Sys2Proof.Machine

/-! The end of a command -/

theorem SameBanks.sameMap {s t : State} (h : SameBanks s t) : SameMap s t :=
  fun b => ⟨bankSize_congr h b, bankOff_congr h b⟩

theorem SameMap.trans {s t u : State} (h : SameMap s t) (g : SameMap t u) : SameMap s u :=
  fun b => ⟨(g b).1.trans (h b).1, (g b).2.trans (h b).2⟩

/-- Everything the wrap and the end of a command leave, whether or not the wrap fires. -/
theorem Wrapped.spec {s t : State} (h : Wrapped s t) :
    pcOf t = (if s.prog.length ≤ (pcOf s).toNat / 4 then 0 else pcOf s) ∧
    (∀ b i, ¬ (b = .gpr ∧ i = 15) → peek b i t = peek b i s) ∧ SameMap s t ∧
    t.ev = s.ev ++ (if s.prog.length ≤ (pcOf s).toNat / 4 then
      [.valueChanged .gpr 15 0 .gpr, .pcChanged 0 .gpr] else []) ∧
    t.ctl = .idle ∧ t.prog = s.prog ∧ t.queue = s.queue ∧ t.fuel = s.fuel := by
  obtain ⟨hinside, hbeyond⟩ := h
  by_cases hp : s.prog.length ≤ (pcOf s).toNat / 4
  · obtain ⟨hpc, hpeek, hmap, hev, hctl, hprog, hqueue, hfuel, -⟩ := hbeyond hp
    rw [if_pos hp, if_pos hp]
    exact ⟨hpc, hpeek, hmap, hev, hctl, hprog, hqueue, hfuel⟩
  · obtain rfl := hinside (Nat.not_le.mp hp)
    have hb := sameBanks_afterCommand s
    rw [if_neg hp, if_neg hp, List.append_nil]
    exact ⟨pcOf_congr hb, fun b i _ => peek_congr hb b i, hb.sameMap, rfl, rfl, rfl, rfl, rfl⟩

/-! Instructions run in order -/

/-- The PC can be read and is that of instruction `k`. -/
structure StandsAt (k : Nat) (s : State) : Prop where
  readable : PcReadable s
  pc : (pcOf s).toNat = 4 * k

theorem standsAt_inCommand {k : Nat} {s : State} (h : StandsAt k s) : StandsAt k (inCommand s) :=
  ⟨(pcReadable_inCommand s).mpr h.readable, (pcOf_inCommand s).symm ▸ h.pc⟩

theorem standsAt_of_aligned {s : State} (h : PcReadable s) (ha : (pcOf s).toNat % 4 = 0) :
    StandsAt ((pcOf s).toNat / 4) s := ⟨h, by omega⟩

theorem StandsAt.index {k : Nat} {s : State} (h : StandsAt k s) : (pcOf s).toNat / 4 = k := by
  have := h.pc; omega

theorem StandsAt.aligned {k : Nat} {s : State} (h : StandsAt k s) : (pcOf s).toNat % 4 = 0 := by
  have := h.pc; omega

theorem StandsAt.atValid {k : Nat} {s : State} {e : Effect} {bp : Bool} (h : StandsAt k s)
    (hi : s.prog[k]? = some (.valid e bp)) : AtValid s e :=
  ⟨h.readable, h.aligned, bp, h.index.symm ▸ hi⟩

/-- An effect that advances the PC leads to the next instruction: in a program of at most `2^29` instructions the
PC does not overflow (44_controller_commands.md R140, decision D32). -/
theorem StandsAt.advance {k : Nat} {s t : State} {e : Effect} (h : StandsAt k s) (hk : k < s.prog.length)
    (hlen : s.prog.length ≤ 2 ^ 29) (hadv : Advances e) (hrun : runEffect e [] s = .next t) : StandsAt (k + 1) t := by
  obtain ⟨hr, hpc⟩ := h
  obtain ⟨hr', hpc'⟩ := hadv s t hr hrun
  refine ⟨hr', ?_⟩
  have h4 : (4 : Word).toNat = 4 := rfl
  rw [hpc', BitVec.toNat_add, hpc, h4]
  omega

theorem StandsAt.pcOf_ne {j k : Nat} {s t : State} (hs : StandsAt k s) (ht : StandsAt j t) (h : j ≠ k) :
    pcOf t ≠ pcOf s := fun e => h (by rw [← ht.index, e, hs.index])

theorem prog_runEffect {e : Effect} {ts : List Answer} {s t : State} (h : runEffect e ts s = .next t) :
    t.prog = s.prog := by
  obtain ⟨-, hprog, -⟩ := changes_context (changes_runEffect h)
  exact hprog

theorem prog_runEffects {es : List Effect} {s u : State} (h : runEffects es s = .next u) : u.prog = s.prog := by
  induction es generalizing s with
  | nil => cases h; rfl
  | cons e es ih =>
    obtain ⟨t, ht, hu⟩ := andThen_eq_next.mp h
    exact (ih hu).trans (prog_runEffect ht)

/-- The instruction at which the rest of a program begins, and the rest after it. -/
theorem getElem?_of_drop_eq_cons {α : Type} {l r : List α} {k : Nat} {x : α} (h : l.drop k = x :: r) :
    l[k]? = some x ∧ l.drop (k + 1) = r :=
  ⟨by rw [← List.head?_drop, h, List.head?_cons], by rw [← List.tail_drop, h, List.tail_cons]⟩

theorem getElem?_of_drop_eq_append {α : Type} {l pre r : List α} {k : Nat} (h : l.drop k = pre ++ r) :
    l[k + pre.length]? = r.head? := by
  rw [← List.getElem?_drop, h, List.getElem?_append_right le_rfl, Nat.sub_self, List.head?_eq_getElem?]

/-! `RUNEND` along advancing effects (R146, R149 (d)) -/

/-- The loop of `RUNEND` runs them once each, in order, one turn for each. -/
theorem runendLoop_effects {es : List (Effect × Bool)} {k : Nat} {rest : Program} {s u : State} (hs : StandsAt k s)
    (hlen : s.prog.length ≤ 2 ^ 29) (hprog : s.prog.drop k = es.map (fun x => .valid x.1 x.2) ++ rest)
    (hadv : ∀ x ∈ es, Advances x.1) (hrun : runEffects (es.map Prod.fst) s = .next u) :
    StandsAt (k + es.length) u ∧ ∀ f, runendLoop (f + es.length) s = runendLoop f u := by
  induction es generalizing k s with
  | nil => cases hrun; exact ⟨hs, fun _ => rfl⟩
  | cons x es ih =>
    obtain ⟨t, ht, hrun⟩ := andThen_eq_next.mp hrun
    obtain ⟨hx, hadv⟩ := List.forall_mem_cons.mp hadv
    obtain ⟨hi, hprog⟩ := getElem?_of_drop_eq_cons hprog
    obtain ⟨hr, hexists, hcore⟩ := (hs.atValid hi).spec
    rw [ht, andThen_next] at hcore
    have hst : StandsAt (k + 1) t := hs.advance (List.getElem?_eq_some_iff.mp hi).1 hlen hx ht
    rw [← prog_runEffect ht] at hlen hprog
    obtain ⟨hu, hloop⟩ := ih hst hlen hprog hadv hrun
    refine ⟨?_, fun f => ?_⟩
    · rwa [List.length_cons, Nat.add_comm es.length, ← Nat.add_assoc]
    · rw [List.length_cons, ← Nat.add_assoc, runendLoop_turn hr hexists hcore hst.readable,
        if_neg (hs.pcOf_ne hst (Nat.succ_ne_self k)), hloop]

/-- `RUNEND` from any state of its loop, once the turns before it are made. -/
theorem execRunend_of_loop {n f : Nat} {s u : State} (h : ∀ f, runendLoop (f + n) (inCommand s) = runendLoop f u)
    (hf : s.fuel = f + n) : exec .runend s = andThen (runendLoop f u) fun t => andThen (wrapPc t) endCommand := by
  rw [← h, ← hf]; rfl

/-- Settles O56: the loop makes one turn for each effect, and then stands beyond the program or at the error. -/
theorem straightLineProgramRunsToItsEnd : Obligations.StraightLineProgramRunsToItsEnd := by
  intro s u es k rest hr hk hlen hfuel hprog hadv hrun
  obtain ⟨hu, hloop⟩ := runendLoop_effects (standsAt_inCommand ⟨hr, hk⟩) hlen hprog hadv hrun
  have hup : u.prog = s.prog := (prog_runEffects hrun).trans (inCommand_prog s)
  have hcount : s.prog.length - k = es.length + rest.length := by
    simpa using congrArg List.length hprog
  refine ⟨?atTheEnd, ?atAnError⟩
  case atTheEnd =>
    rintro rfl
    rw [List.length_nil] at hcount
    have hbeyond : u.prog.length ≤ (pcOf u).toNat / 4 := by
      rw [hu.index, hup]; omega
    have hdone : existsAt (pcOf u) u = false := by
      rw [← Bool.not_eq_true, existsAt_eq]; omega
    obtain ⟨t, ht, -, hwrap⟩ := wrapPc_endCommand hu.readable
    obtain ⟨hpc, hpeek, -, hev, hctl, -⟩ := hwrap hbeyond
    refine ⟨t, ?_, hpc, hpeek, hev, hctl⟩
    rw [execRunend_of_loop hloop (f := s.fuel - es.length) (by omega), runendLoop_done hu.readable hdone,
      andThen_next, ht]
  case atAnError =>
    rintro msg span rest' rfl
    rw [List.length_cons] at hcount
    have hi : u.prog[(pcOf u).toNat / 4]? = some (.error msg span) := by
      have h := getElem?_of_drop_eq_append hprog
      rwa [List.length_map, ← hu.index, ← hup] at h
    have hd := (sameBanks_diagnose .instructionError (.parse (pcOf u) msg span) u).trans (sameBanks_afterCommand _)
    refine ⟨_, ?_, (congrArg _ (pcOf_congr hd)).trans hu.pc, hd, ?_, rfl⟩
    · rw [execRunend_of_loop hloop (f := s.fuel - es.length - 1 + 1) (by omega),
        runendLoop_error hu.readable hu.aligned hi, andThen_next, wrapPc_diagnosed_error hu.readable hi]
    · rw [pcOf_congr hd]; rfl

/-! `RUNBP` along advancing effects (R145) -/

/-- An advancing effect before an instruction that is no breakpoint is a turn of either loop. -/
theorem StandsAt.turn {b : Bool} {k : Nat} {s t : State} {e : Effect} {i : CpuInstr} (hs : StandsAt k s)
    (ht : StandsAt (k + 1) t) (he : AtValid s e) (hrun : runEffect e [] s = .next t) (hi : t.prog[k + 1]? = some i)
    (hbp : ∀ e', i ≠ .valid e' true) : Turn b s t := by
  refine ⟨⟨e, he, hrun⟩, ht.readable, hs.pcOf_ne ht (Nat.succ_ne_self k), ht.aligned, ?_, fun _ e' => ?_⟩
  · rw [ht.index]; exact (List.getElem?_eq_some_iff.mp hi).1
  · rw [ht.index, hi]; exact fun h => hbp e' (Option.some.inj h)

/-- An advancing effect before a breakpoint, or before the end of the program, ends the loop of `RUNBP`. -/
theorem StandsAt.lastTurn {k : Nat} {s t : State} {e : Effect} (ht : StandsAt (k + 1) t) (he : AtValid s e)
    (hrun : runEffect e [] s = .next t)
    (hstop : ∀ i, t.prog[k + 1]? = some i → ∃ e', i = .valid e' true) : LastTurn true s t := by
  refine ⟨⟨e, he, hrun⟩, ht.readable, .inr (.inr ?_)⟩
  rw [ht.index]
  cases hi : t.prog[k + 1]? with
  | none => exact .inl (List.getElem?_eq_none_iff.mp hi)
  | some i =>
    obtain ⟨e', rfl⟩ := hstop i hi
    exact .inr ⟨rfl, e', rfl⟩

/-- The loop of `RUNBP` runs them once each, in order, up to the first breakpoint after the first of them or to the
end of the program. -/
theorem runbp_turns {e0 : Effect} {b0 : Bool} {es : List Effect} {k : Nat} {rest : Program} {s u : State}
    (hs : StandsAt k s) (hlen : s.prog.length ≤ 2 ^ 29)
    (hprog : s.prog.drop k = .valid e0 b0 :: (es.map (fun e => .valid e false) ++ rest))
    (hadv : ∀ e ∈ e0 :: es, Advances e) (hrun : runEffects (e0 :: es) s = .next u)
    (hstop : ∀ i, s.prog[k + 1 + es.length]? = some i → ∃ e, i = .valid e true) :
    ∃ v, Turns true es.length s v ∧ LastTurn true v u ∧ StandsAt (k + 1 + es.length) u := by
  induction es generalizing e0 b0 k s with
  | nil =>
    obtain ⟨t, ht, hrun⟩ := andThen_eq_next.mp hrun
    cases hrun
    obtain ⟨hi, hprog⟩ := getElem?_of_drop_eq_cons hprog
    have hsu := hs.advance (List.getElem?_eq_some_iff.mp hi).1 hlen (hadv e0 List.mem_cons_self) ht
    rw [← prog_runEffect ht] at hstop
    exact ⟨s, .refl s, hsu.lastTurn (hs.atValid hi) ht hstop, hsu⟩
  | cons e1 es ih =>
    obtain ⟨t, ht, hrun⟩ := andThen_eq_next.mp hrun
    obtain ⟨hadv0, hadv⟩ := List.forall_mem_cons.mp hadv
    obtain ⟨hi, hprog⟩ := getElem?_of_drop_eq_cons hprog
    have hst := hs.advance (List.getElem?_eq_some_iff.mp hi).1 hlen hadv0 ht
    rw [← prog_runEffect ht] at hlen hprog hstop
    have hindex : k + 1 + (e1 :: es).length = k + 1 + 1 + es.length := by rw [List.length_cons]; omega
    rw [hindex] at hstop ⊢
    have hturn : Turn true s t :=
      hs.turn hst (hs.atValid hi) ht (getElem?_of_drop_eq_cons hprog).1 fun e' h => by cases h
    obtain ⟨v, hv, hlast, hu⟩ := ih hst hlen hprog hadv hrun hstop
    exact ⟨v, .turn hturn hv, hlast, hu⟩

/-- Settles O57: the last turn leads to the breakpoint, which lies inside the program, so nothing wraps. -/
theorem runStopsAtTheFirstBreakpoint : Obligations.RunStopsAtTheFirstBreakpoint := by
  intro s u e0 e1 b0 es k rest hr hk hlen hfuel hprog hadv hrun
  have hbreak : s.prog[k + 1 + es.length]? = some (.valid e1 true) := by
    have h := getElem?_of_drop_eq_append (getElem?_of_drop_eq_cons hprog).2
    rwa [List.length_map] at h
  obtain ⟨v, hturns, hlast, hu⟩ := runbp_turns (standsAt_inCommand ⟨hr, hk⟩) hlen hprog hadv hrun
    fun i hi => ⟨e1, Option.some.inj (hi.symm.trans hbreak)⟩
  have hlt : k + 1 + es.length < s.prog.length := (List.getElem?_eq_some_iff.mp hbreak).1
  have hinside : (pcOf u).toNat / 4 < u.prog.length := by
    rwa [hu.index, prog_runEffects hrun, inCommand_prog]
  refine ⟨?_, hu.pc⟩
  rw [execRunbp_last (by omega) hturns hlast, wrapPc_inside hu.readable hinside, andThen_next, endCommand_eq]

/-! Programs of `PC.ADV` effects -/

/-- The effect `PC.ADV` (95_test_vectors.md S-D). -/
def pcAdvEffect : Effect := .act { op := .pcAdv } .done

/-- It writes the PC alone, and adds 4 to it (43_machine_state_ops.md R132). -/
theorem runEffect_pcAdv {s : State} (h : PcReadable s) :
    ∃ t, runEffect pcAdvEffect [] s = .next t ∧ pcOf t = pcOf s + 4 ∧ Frame (fun b i => b = .gpr ∧ i = 15) s t := by
  obtain ⟨t, ht, hpc, hframe, -⟩ := exec_wsSet_pc (pcOf s + 4) false h
  obtain ⟨-, -, hadv⟩ := programCounterHelpersAreBankAccesses 0 s
  rw [← hadv, exec_operation rfl] at ht
  exact ⟨t, andThen_eq_next.mpr ⟨t, ht, rfl⟩, hpc, hframe⟩

theorem pcReadable_frame {w : Bank → Int → Prop} {s t : State} (h : Frame w s t) : PcReadable t ↔ PcReadable s := by
  rw [PcReadable, inRange_frame h, PcReadable]

theorem advances_pcAdv : Advances pcAdvEffect := by
  intro s t hr ht
  obtain ⟨u, hu, hpc, hframe⟩ := runEffect_pcAdv hr
  obtain rfl : u = t := Host.Outcome.next.inj (hu.symm.trans ht)
  exact ⟨(pcReadable_frame hframe).mpr hr, hpc⟩

/-- Any number of them in a row completes, and writes the PC alone. -/
theorem runEffects_pcAdv {es : List Effect} (h : ∀ e ∈ es, e = pcAdvEffect) {s : State} (hr : PcReadable s) :
    ∃ u, runEffects es s = .next u ∧ Frame (fun b i => b = .gpr ∧ i = 15) s u := by
  induction es generalizing s with
  | nil => exact ⟨s, rfl, fun _ _ _ => rfl, fun _ => ⟨rfl, rfl⟩, .refl s⟩
  | cons e es ih =>
    obtain ⟨rfl, hes⟩ := List.forall_mem_cons.mp h
    obtain ⟨t, ht, -, hst⟩ := runEffect_pcAdv hr
    obtain ⟨u, hu, htu⟩ := ih hes ((pcReadable_frame hst).mpr hr)
    exact ⟨u, andThen_eq_next.mpr ⟨t, ht, hu⟩, frame_mono (frame_trans hst htu) fun _ _ h => h.elim id id⟩

/-- The instruction with the effect `PC.ADV`. -/
def pcAdvInstr (breakpoint : Bool) : CpuInstr := .valid pcAdvEffect breakpoint

/-- A program of such instructions is its breakpoint flags. -/
theorem exists_breakpoints {p : Program} (h : ∀ i ∈ p, ∃ bp, i = pcAdvInstr bp) :
    ∃ bps : List Bool, p = bps.map pcAdvInstr := by
  have hp : p ∈ Set.range (List.map pcAdvInstr) := by
    rw [Set.range_list_map]
    exact fun i hi => (h i hi).imp fun _ => Eq.symm
  exact hp.imp fun _ => Eq.symm

/-- Flags up to the first that is set. -/
theorem exists_replicate_false (bs : List Bool) :
    ∃ n r, bs = List.replicate n false ++ r ∧ ∀ b ∈ r.head?, b = true := by
  induction bs with
  | nil => exact ⟨0, [], rfl, by simp⟩
  | cons b bs ih =>
    cases b with
    | true => exact ⟨0, true :: bs, rfl, by simp⟩
    | false =>
      obtain ⟨n, r, rfl, hr⟩ := ih
      exact ⟨n + 1, r, rfl, hr⟩

section
variable {s : State} {k : Nat} {bps : List Bool} (hs : StandsAt k s) (hp : s.prog = bps.map pcAdvInstr)
  (hk : k < s.prog.length) (hlen : s.prog.length ≤ 2 ^ 29) (hfuel : s.prog.length ≤ s.fuel)
include hs hp

include hlen hfuel in
/-- `RUNEND` runs them to the end of the program and wraps (O56). -/
theorem execRunend_pcAdv : ∃ u t, exec .runend s = .next t ∧ pcOf t = 0 ∧ t.ctl = .idle ∧
    (∀ b i, ¬ (b = .gpr ∧ i = 15) → peek b i t = peek b i u) ∧
    Frame (fun b i => b = .gpr ∧ i = 15) (inCommand s) u := by
  have hmem : ∀ x ∈ (bps.drop k).map fun bp => (pcAdvEffect, bp), x.1 = pcAdvEffect :=
    List.forall_mem_map.mpr fun _ _ => rfl
  obtain ⟨u, hu, hframe⟩ := runEffects_pcAdv (List.forall_mem_map.mpr hmem) (standsAt_inCommand hs).readable
  obtain ⟨hend, -⟩ := straightLineProgramRunsToItsEnd s u _ k [] hs.readable hs.pc hlen hfuel
    (by rw [hp, ← List.map_drop, List.map_map, List.append_nil]; rfl)
    (fun x hx => hmem x hx ▸ advances_pcAdv) hu
  obtain ⟨t, ht, hpc, hpeek, -, hctl⟩ := hend rfl
  exact ⟨u, t, ht, hpc, hctl, hpeek, hframe⟩

include hk hlen

/-- `STEP` runs one of them, and then wraps (44_controller_commands.md R144). -/
theorem execStep_pcAdv : ∃ u t, exec .step s = .next t ∧ Wrapped u t ∧ pcOf u = pcOf s + 4 ∧
    StandsAt (k + 1) u ∧ u.prog = s.prog ∧ Frame (fun b i => b = .gpr ∧ i = 15) (inCommand s) u := by
  have hs' := standsAt_inCommand hs
  obtain ⟨u, hu, hpc, hframe⟩ := runEffect_pcAdv hs'.readable
  have hi : (inCommand s).prog[k]? = some (pcAdvInstr (bps[k]'(by simpa [hp] using hk))) := by
    simp [hp, pcAdvInstr]
  obtain ⟨-, -, hcore⟩ := (hs'.atValid hi).spec
  rw [hu, andThen_next] at hcore
  obtain ⟨t, ht, hwrap⟩ := wrapPc_endCommand ((pcReadable_frame hframe).mpr hs'.readable)
  exact ⟨u, t, (execStep_executed hcore).trans ht, hwrap, by rw [hpc, pcOf_inCommand],
    hs'.advance hk hlen advances_pcAdv hu, (prog_runEffect hu).trans (inCommand_prog s), hframe⟩

include hfuel in
/-- `RUNBP` runs them to the first breakpoint or to the end of the program, and then wraps. -/
theorem execRunbp_pcAdv : ∃ u t, exec .runbp s = .next t ∧ Wrapped u t ∧ u.prog = s.prog ∧
    (∀ i, s.prog[(pcOf u).toNat / 4]? = some i → ∃ e, i = .valid e true) ∧
    Frame (fun b i => b = .gpr ∧ i = 15) (inCommand s) u := by
  obtain ⟨n, r, hn, hbreak⟩ := exists_replicate_false (bps.drop (k + 1))
  have hk' : k < bps.length := by simpa [hp] using hk
  have hprog : s.prog.drop k = .valid pcAdvEffect bps[k] ::
      ((List.replicate n pcAdvEffect).map (fun e => .valid e false) ++ r.map pcAdvInstr) := by
    rw [hp, ← List.map_drop, List.drop_eq_getElem_cons hk', hn]
    simp [pcAdvInstr]
  have hstop : ∀ i, s.prog[k + 1 + (List.replicate n pcAdvEffect).length]? = some i → ∃ e, i = .valid e true := by
    intro i hi
    have h := getElem?_of_drop_eq_append hn
    rw [List.length_replicate] at h hi
    rw [hp, List.getElem?_map, h] at hi
    obtain ⟨bp, hbp, rfl⟩ := Option.map_eq_some_iff.mp hi
    exact ⟨pcAdvEffect, hbreak bp hbp ▸ rfl⟩
  have hes : ∀ e ∈ pcAdvEffect :: List.replicate n pcAdvEffect, e = pcAdvEffect :=
    List.forall_mem_cons.mpr ⟨rfl, fun _ => List.eq_of_mem_replicate⟩
  obtain ⟨u, hu, hframe⟩ := runEffects_pcAdv hes (standsAt_inCommand hs).readable
  obtain ⟨v, hturns, hlast, hku⟩ := runbp_turns (standsAt_inCommand hs) hlen hprog
    (fun e he => hes e he ▸ advances_pcAdv) hu hstop
  have hn' : n < s.fuel := by
    have hcount := congrArg List.length hn
    rw [List.length_drop, List.length_append, List.length_replicate] at hcount
    rw [hp, List.length_map] at hfuel
    omega
  obtain ⟨t, ht, hwrap⟩ := wrapPc_endCommand hku.readable
  refine ⟨u, t, ?_, hwrap, (prog_runEffects hu).trans (inCommand_prog s), hku.index ▸ hstop, hframe⟩
  rw [execRunbp_last (List.length_replicate ▸ hn') hturns hlast, ht]

end

/-- Settles O58: each command runs `PC.ADV` effects, which write the PC alone, and then wraps it; `RUNEND` by O56. -/
theorem advancingProgramCommandsComplete : Obligations.AdvancingProgramCommandsComplete := by
  intro s hr ha hk hlen hfuel hall
  obtain ⟨bps, hp⟩ := exists_breakpoints hall
  have hs := standsAt_of_aligned hr ha
  have hkept : ∀ {u t : State}, Frame (fun b i => b = .gpr ∧ i = 15) (inCommand s) u →
      (∀ b i, ¬ (b = .gpr ∧ i = 15) → peek b i t = peek b i u) →
      ∀ b i, ¬ (b = .gpr ∧ i = 15) → peek b i t = peek b i s :=
    fun ⟨hu, _⟩ ht b i h => (ht b i h).trans ((hu b i h).trans (peek_congr (sameBanks_inCommand s) b i))
  obtain ⟨t', t, ht, hwt, hpct', hst', hprogt', hft⟩ := execStep_pcAdv hs hp hk hlen
  obtain ⟨u', u, hu, hpcu, hctlu, hpeeku, hfu⟩ := execRunend_pcAdv hs hp hlen hfuel
  obtain ⟨v', v, hv, hwv, hprogv', hstop, hfv⟩ := execRunbp_pcAdv hs hp hk hlen hfuel
  obtain ⟨hpct, hpeekt, -, -, hctlt, -⟩ := hwt.spec
  obtain ⟨hpcv, hpeekv, -, -, hctlv, -⟩ := hwv.spec
  refine ⟨t, u, v, ht, hu, hv, ?stepPc, hpcu, ?runbpPc, fun b i h =>
    ⟨hkept hft hpeekt b i h, hkept hfu hpeeku b i h, hkept hfv hpeekv b i h⟩, hctlt, hctlu, hctlv⟩
  case stepPc =>
    rw [hpct, hprogt', hst'.index, hpct', ← ite_not]
    simp only [Nat.not_le]
  case runbpPc =>
    rw [hprogv'] at hpcv
    split at hpcv
    · exact .inl hpcv
    · rename_i hinside
      rw [hpcv]
      have hi := List.getElem?_eq_getElem (Nat.not_le.mp hinside)
      obtain ⟨e, he⟩ := hstop _ hi
      exact .inr ⟨e, he ▸ hi⟩

end Sys2Proof.Machine
end

section
/-! Proofs of the statements on 44_controller_commands.md: what an effect can do (R141), and the ends of commands by
a fault (D34), at a PC with no instruction (D16, D33), and inside the program (R149 (b)). -/

namespace Sys2Proof.Machine

/-! No meaning is illegal (60_exceptions.md R166) -/

/-- The outcome is not the refusal of an illegal command. -/
def NotIllegal {α : Type} : Res α → Prop
  | .next _ | .fault _ => True
  | .refused r => r ≠ .illegalCommand

theorem NotIllegal.ne {α : Type} {x : Res α} (h : NotIllegal x) : x ≠ .refused .illegalCommand := by
  rintro rfl; exact h rfl

theorem notIllegal_next {α : Type} (a : α) : NotIllegal (.next a : Res α) := trivial

theorem notIllegal_fault {α : Type} (r : Fault) : NotIllegal (.fault r : Res α) := trivial

theorem NotIllegal.bind {α β : Type} {x : Res α} {f : α → Res β} (h : NotIllegal x) (hf : ∀ a, NotIllegal (f a)) :
    NotIllegal (andThen x f) := by
  cases x with
  | next a => exact hf a
  | fault r => exact notIllegal_fault r
  | refused r => exact h

theorem NotIllegal.checked {α : Type} {x : Res α} (h : NotIllegal x) (c : Option Fault) :
    NotIllegal (unlessFault c x) := by
  cases c with
  | none => exact h
  | some r => exact notIllegal_fault r

theorem notIllegal_ite {α : Type} {c : Prop} [Decidable c] {x y : Res α} (hx : NotIllegal x) (hy : NotIllegal y) :
    NotIllegal (if c then x else y) := by
  split
  · exact hx
  · exact hy

theorem notIllegal_complete (a : Answer) (s : State) : NotIllegal (complete a s) := notIllegal_next _

theorem notIllegal_bankGet (b : Bank) (i : Int) (s : State) : NotIllegal (bankGet b i s) :=
  (notIllegal_next _).checked _

theorem notIllegal_bankSet (b : Bank) (i : Int) (v : Word) (n : Bool) (s : State) : NotIllegal (bankSet b i v n s) :=
  (notIllegal_next _).checked _

/-- A read word answered, and a written word completed. -/
theorem NotIllegal.answered {α : Type} {x : Res α} (h : NotIllegal x) (f : α → Answer) (s : State) :
    NotIllegal (andThen x fun v => complete (f v) s) := h.bind fun _ => notIllegal_complete ..

theorem NotIllegal.completed {x : Res State} (h : NotIllegal x) (a : Answer) : NotIllegal (andThen x (complete a)) :=
  h.bind (notIllegal_complete a)

theorem notIllegal_readWord (a : Nat) (s : State) : NotIllegal (readWord a s) :=
  notIllegal_ite (notIllegal_bankGet ..) <|
    (notIllegal_bankGet ..).bind fun _ => (notIllegal_bankGet ..).bind fun _ => notIllegal_next _

theorem notIllegal_writeWord (a : Nat) (v : Word) (s : State) : NotIllegal (writeWord a v s) :=
  notIllegal_ite (notIllegal_bankSet ..) <|
    (notIllegal_bankGet ..).bind fun _ => (notIllegal_bankGet ..).bind fun _ =>
      (notIllegal_bankSet ..).bind fun _ => notIllegal_bankSet ..

/-- The 25 operations stop on faults alone, and a command inside an effect on its own refusal. -/
theorem notIllegal_execOperation (i : Instr) (s : State) : NotIllegal (execOperation i s) := by
  cases i with
  | wsGet b a => exact (notIllegal_bankGet ..).answered ..
  | wsSet b a d n => exact (notIllegal_bankSet ..).completed _
  | wsClear b n => exact notIllegal_complete ..
  | wsSetoff b a => exact notIllegal_complete ..
  | wsSer b => exact notIllegal_complete ..
  | wsDeser b p => exact (notIllegal_complete ..).checked _
  | wsRecv b r a d => exact notIllegal_ite (notIllegal_complete ..) ((notIllegal_bankSet ..).completed _)
  | vGetq r => exact (notIllegal_complete ..).checked _
  | vSetq r d n =>
    exact NotIllegal.checked ((notIllegal_bankSet ..).bind fun _ => (notIllegal_bankSet ..).bind fun _ =>
      (notIllegal_bankSet ..).bind fun _ => (notIllegal_bankSet ..).completed _) _
  | vGetd r => exact (notIllegal_complete ..).checked _
  | vSetd r d n =>
    exact NotIllegal.checked ((notIllegal_bankSet ..).bind fun _ => (notIllegal_bankSet ..).completed _) _
  | vGete c w r e => exact (notIllegal_complete ..).checked _
  | vSete c w r e d => exact ((notIllegal_bankSet ..).completed _).checked _
  | mRdw a => exact (notIllegal_readWord ..).answered ..
  | mWrw a d => exact (notIllegal_writeWord ..).completed _
  | mRdv w a => exact (((notIllegal_readWord ..).bind fun _ => notIllegal_next _).checked _).answered ..
  | mWrv w a d =>
    exact (((notIllegal_readWord ..).bind fun _ => notIllegal_writeWord ..).checked _).completed _
  | mResize a n m =>
    exact notIllegal_ite (notIllegal_complete ..) (notIllegal_ite (notIllegal_complete ..) (notIllegal_fault _))
  | mSetoff a n m => exact notIllegal_ite (notIllegal_complete ..) (notIllegal_complete ..)
  | pcGet => exact (notIllegal_bankGet ..).answered ..
  | pcSet a => exact (notIllegal_bankSet ..).completed _
  | pcAdv => exact (notIllegal_bankGet ..).bind fun _ => (notIllegal_bankSet ..).completed _
  | msSnap => exact notIllegal_complete ..
  | msRest p => exact (notIllegal_complete ..).checked _
  | msHilite b a d => exact notIllegal_complete ..
  | step | runbp | runend | rstx | rstm => exact nofun

theorem notIllegal_runEffect (e : Effect) (ts : List Answer) (s : State) : NotIllegal (runEffect e ts s) := by
  induction e generalizing ts s with
  | done => exact notIllegal_next s
  | act x e ih => exact (notIllegal_execOperation ..).bind fun _ => ih ..
  | branch c e f ihe ihf => exact notIllegal_ite (ihe ts s) (ihf ts s)

theorem notIllegal_stepCore (s : State) : NotIllegal (stepCore s) := by
  refine (notIllegal_bankGet ..).bind fun p => ?_
  cases findInstr p s with
  | failed kind info => exact notIllegal_next _
  | run e => exact (notIllegal_runEffect ..).bind fun _ => notIllegal_next _

theorem notIllegal_wrapPc (s : State) : NotIllegal (wrapPc s) :=
  (notIllegal_bankGet ..).bind fun _ => notIllegal_ite (notIllegal_bankSet ..) (notIllegal_next s)

theorem notIllegal_runbpLoop (f : Nat) (s : State) : NotIllegal (runbpLoop f s) := by
  induction f generalizing s with
  | zero => exact nofun
  | succ f ih =>
    exact (notIllegal_bankGet ..).bind fun _ => (notIllegal_stepCore s).bind fun x =>
      (notIllegal_bankGet ..).bind fun _ => notIllegal_ite (notIllegal_next x.2) (ih x.2)

theorem notIllegal_runendLoop (f : Nat) (s : State) : NotIllegal (runendLoop f s) := by
  induction f generalizing s with
  | zero => exact (notIllegal_bankGet ..).bind fun _ => notIllegal_ite nofun (notIllegal_next s)
  | succ f ih =>
    exact (notIllegal_bankGet ..).bind fun _ => notIllegal_ite ((notIllegal_stepCore s).bind fun x =>
      (notIllegal_bankGet ..).bind fun _ => notIllegal_ite (notIllegal_next x.2) (ih x.2)) (notIllegal_next s)

theorem notIllegal_endCommand (s : State) : NotIllegal (endCommand s) := notIllegal_complete ..

theorem notIllegal_exec (i : Instr) (s : State) : NotIllegal (exec i s) := by
  cases i with
  | step =>
    exact (notIllegal_stepCore _).bind fun _ =>
      notIllegal_ite ((notIllegal_wrapPc _).bind notIllegal_endCommand) (notIllegal_endCommand _)
  | runbp => exact (notIllegal_runbpLoop ..).bind fun _ => (notIllegal_wrapPc _).bind notIllegal_endCommand
  | runend => exact (notIllegal_runendLoop ..).bind fun _ => (notIllegal_wrapPc _).bind notIllegal_endCommand
  | rstx => exact (notIllegal_bankSet ..).bind notIllegal_endCommand
  | rstm =>
    have h : NotIllegal (execMsRest .empty (beginCommand s)) := notIllegal_execOperation (.msRest .empty) _
    exact h.bind notIllegal_endCommand
  | _ => rw [exec_operation rfl]; exact notIllegal_execOperation ..

/-! Effects act through the port's operations (R141) -/

theorem execOperation_command {i : Instr} (h : i.isCommand = true) (s : State) :
    execOperation i s = .refused .effectIssuesCommand := by
  cases i with
  | step | runbp | runend | rstx | rstm => rfl
  | _ => cases h

theorem runEffect_act (x : Action) (e : Effect) (ts : List Answer) (s : State) : runEffect (.act x e) ts s =
    andThen (execOperation (actionInstr ts x) s) fun t => runEffect e (ts ++ [t.answer]) t := rfl

/-- Settles O51: an effect is a chain of primitive changes, and its operations have the port's meanings, none of
which is illegal. -/
theorem effectsActOnTheBanksOnly : Obligations.EffectsActOnTheBanksOnly := by
  refine ⟨fun e ts s t h => ?_, fun i s hi => (exec_operation hi s).symm,
    fun x e ts s => ⟨fun hi => ?_, fun hi => ?_⟩, fun _ _ => rfl, fun e ts s => (notIllegal_runEffect e ts s).ne,
    fun i s => (notIllegal_exec i s).ne⟩
  · have hc := changes_runEffect h
    exact ⟨changes_context hc, changes_trace hc⟩
  · rw [runEffect_act, exec_operation hi]
  · rw [runEffect_act, execOperation_command hi, andThen_refused]

/-! A fault inside an effect (R141, D34) -/

theorem atValid_inCommand {s : State} {e : Effect} (h : AtValid s e) : AtValid (inCommand s) e := by
  simpa only [AtValid, pcReadable_inCommand, pcOf_inCommand, inCommand_prog] using h

theorem AtValid.stepCore_fault {s : State} {e : Effect} {r : Fault} (h : AtValid s e)
    (hr : runEffect e [] s = .fault r) : stepCore s = .fault r := by
  obtain ⟨-, -, hc⟩ := h.spec
  rw [hc, hr, andThen_fault]

theorem AtValid.stepCore_next {s t : State} {e : Effect} (h : AtValid s e)
    (ht : runEffect e [] s = .next t) : stepCore s = .next (true, t) := by
  obtain ⟨-, -, hc⟩ := h.spec
  rw [hc, ht, andThen_next]

theorem execStep_fault {s : State} {r : Fault} (h : stepCore (inCommand s) = .fault r) :
    exec .step s = .fault r := by
  change execStep s = _
  rw [execStep, beginRun_eq, h, andThen_fault]

section
variable {n : Nat} {s u : State} {e : Effect} (hn : n < s.fuel) (hu : AtValid u e)
include hn hu

/-- A fault in the effect to which `n` turns lead is the outcome of either run. -/
theorem execRuns_fault {r : Fault} (hr : runEffect e [] u = .fault r) :
    (Turns true n (inCommand s) u → exec .runbp s = .fault r) ∧
    (Turns false n (inCommand s) u → exec .runend s = .fault r) := by
  obtain ⟨f, hf⟩ := exists_fuel_left hn
  obtain ⟨hpc, hexists, -⟩ := hu.spec
  have hc := hu.stepCore_fault hr
  refine ⟨fun h => ?_, fun h => ?_⟩
  · rw [execRunbp_turns h hf, runbpLoop_fault hpc hc, andThen_fault]
  · rw [execRunend_turns h hf, runendLoop_fault hpc hexists hc, andThen_fault]

/-- So is the fault of the PC's read after an effect that loses the PC. -/
theorem execRuns_lostPc {v : State} (hv : runEffect e [] u = .next v) (hlost : ¬ PcReadable v) :
    (Turns true n (inCommand s) u → exec .runbp s = .fault (.addressing .gpr 15)) ∧
    (Turns false n (inCommand s) u → exec .runend s = .fault (.addressing .gpr 15)) := by
  obtain ⟨f, hf⟩ := exists_fuel_left hn
  obtain ⟨hpc, hexists, -⟩ := hu.spec
  have hc := hu.stepCore_next hv
  refine ⟨fun h => ?_, fun h => ?_⟩
  · rw [execRunbp_turns h hf, runbpLoop_lostPc hpc hc hlost, andThen_fault]
  · rw [execRunend_turns h hf, runendLoop_lostPc hpc hexists hc hlost, andThen_fault]

end

/-- Settles O52: the step core faults where its effect does, and no loop goes on from a fault. -/
theorem faultInAnEffectEndsTheCommand : Obligations.FaultInAnEffectEndsTheCommand := by
  refine ⟨fun s e r he hr => ⟨execStep_fault ((atValid_inCommand he).stepCore_fault hr), fun hf => ?_⟩,
    fun n s u e r hn hu hr => execRuns_fault hn hu hr, fun n s u v e hn hu hv hlost => execRuns_lostPc hn hu hv hlost⟩
  obtain ⟨hrunbp, hrunend⟩ := execRuns_fault hf (atValid_inCommand he) hr
  exact ⟨hrunbp (.refl _), hrunend (.refl _)⟩

/-! The runs at a PC with no instruction (D16, D33) -/

theorem sameBanks_putWord {s t : State} (h : SameBanks s t) (b : Bank) (i : Int) (v : Word) :
    SameBanks (putWord b i v s) (putWord b i v t) := by
  have ho : slotOf b i t = slotOf b i s := by rw [slotOf, slotOf, bankOff_congr h]
  obtain ⟨hg, hs, hv, hm⟩ := h
  rw [putWord, putWord, ho]
  cases b <;> simp [SameBanks, setSlot, hg, hs, hv, hm]

theorem sameBanks_bankSet {s t s' t' : State} {b : Bank} {i : Int} {v : Word} {n : Bool} (h : SameBanks s t)
    (hs : bankSet b i v n s = .next s') (ht : bankSet b i v n t = .next t') : SameBanks s' t' := by
  obtain ⟨-, rfl⟩ := bankSet_eq_next.mp hs
  obtain ⟨-, rfl⟩ := bankSet_eq_next.mp ht
  exact sameBanks_putWord h b i v

/-- The wrap reads the banks and the program alone. -/
theorem sameBanks_wrapPc {s t s' t' : State} (h : SameBanks s t) (hp : t.prog = s.prog)
    (hs : wrapPc s = .next s') (ht : wrapPc t = .next t') : SameBanks s' t' := by
  obtain ⟨p, hps, hs⟩ := andThen_eq_next.mp hs
  obtain ⟨q, hqt, ht⟩ := andThen_eq_next.mp ht
  obtain rfl : q = p := by
    rw [(readPc_eq_next hps).2, (readPc_eq_next hqt).2, pcOf_congr h]
  rw [hp] at ht
  split at hs
  · rw [if_pos ‹_›] at ht
    exact sameBanks_bankSet h hs ht
  · rw [if_neg ‹_›] at ht
    cases hs; cases ht; exact h

theorem sameBanks_wrapPc_endCommand {s t s' t' : State} (h : SameBanks s t) (hp : t.prog = s.prog)
    (hs : andThen (wrapPc s) endCommand = .next s') (ht : andThen (wrapPc t) endCommand = .next t') :
    SameBanks s' t' := by
  obtain ⟨u, hu, hs⟩ := andThen_eq_next.mp hs
  obtain ⟨v, hv, ht⟩ := andThen_eq_next.mp ht
  cases hs; cases ht
  exact (sameBanks_afterCommand u).symm.trans ((sameBanks_wrapPc h hp hu hv).trans (sameBanks_afterCommand v))

theorem execRunbp_unreadable {s : State} (hf : 0 < s.fuel) (h : ¬ PcReadable s) :
    exec .runbp s = .fault (.addressing .gpr 15) := by
  obtain ⟨f, hf⟩ := exists_fuel_left hf
  rw [execRunbp_turns (.refl _) hf, runbpLoop_unreadable (mt (pcReadable_inCommand s).mp h), andThen_fault]

theorem execRunend_unreadable {s : State} (h : ¬ PcReadable s) : exec .runend s = .fault (.addressing .gpr 15) := by
  rw [execRunend_turns (.refl _) rfl, runendLoop_unreadable (mt (pcReadable_inCommand s).mp h), andThen_fault]

section
variable {s : State} (h : PcReadable s) (hp : (pcOf s).toNat % 4 ≠ 0 ∨ s.prog.length ≤ (pcOf s).toNat / 4)
include h hp

/-- `RUNBP` reports, stalls, and wraps. -/
theorem execRunbp_invalid (hf : 0 < s.fuel) : exec .runbp s =
    andThen (wrapPc (diagnose .pcInvalid (.pc (pcOf s)) (inCommand s))) endCommand := by
  obtain ⟨f, hf⟩ := exists_fuel_left hf
  have hr := (pcReadable_inCommand s).mpr h
  have hd := sameBanks_diagnose .pcInvalid (.pc (pcOf s)) (inCommand s)
  have hc := stepCore_invalid hr (by rwa [pcOf_inCommand])
  rw [pcOf_inCommand] at hc
  rw [execRunbp_turns (.refl _) hf, runbpLoop_exit hr hc ((pcReadable_congr hd).mpr hr) (.inl (pcOf_congr hd)),
    andThen_next]

/-- `RUNEND` runs no step, and wraps. -/
theorem execRunend_invalid : exec .runend s = andThen (wrapPc (inCommand s)) endCommand := by
  have hdone : existsAt (pcOf (inCommand s)) (inCommand s) = false := by
    rw [← Bool.not_eq_true, existsAt_eq, pcOf_inCommand, inCommand_prog]; omega
  rw [execRunend_turns (.refl _) rfl, runendLoop_done ((pcReadable_inCommand s).mpr h) hdone, andThen_next]

end

/-- Settles O54: the loops end at once, in the same banks, and the wrap sees the PC and the program of `s`. -/
theorem runsAtAnInvalidPc : Obligations.RunsAtAnInvalidPc := by
  refine ⟨fun s h => ⟨fun hf => execRunbp_unreadable hf h, execRunend_unreadable h⟩, fun s hf h hp => ?_⟩
  have hr := (pcReadable_inCommand s).mpr h
  have hd := sameBanks_diagnose .pcInvalid (.pc (pcOf s)) (inCommand s)
  have hsd := (sameBanks_inCommand s).trans hd
  obtain ⟨t, ht, hwt⟩ := wrapPc_endCommand ((pcReadable_congr hd).mpr hr)
  obtain ⟨u, hu, hwu⟩ := wrapPc_endCommand hr
  have hsame : SameBanks t u := sameBanks_wrapPc_endCommand hd.symm rfl ht hu
  obtain ⟨hpc, hpeek, hmap, hev, hctl, hprog, hqueue, hfuel⟩ := hwt.spec
  obtain ⟨-, -, -, hev', hctl', hprog', hqueue', hfuel'⟩ := hwu.spec
  rw [pcOf_congr hsd] at hpc hev
  rw [pcOf_inCommand] at hev'
  refine ⟨t, u, (execRunbp_invalid h hp hf).trans ht, (execRunend_invalid h hp).trans hu, hsame, hpc,
    fun b i hn => (hpeek b i hn).trans (peek_congr hsd b i),
    hsd.sameMap.trans hmap, hev.trans ?_, hev', hctl, hprog, hqueue, hctl'.trans hctl.symm, hprog'.trans hprog.symm,
    hqueue'.trans hqueue.symm, hfuel'.trans hfuel.symm⟩
  exact congrArg (· ++ _) (List.append_assoc ..)

/-! The PC after a run (R149 (b)) -/

/-- Settles O55: each run ends with the wrap, and the end of a command moves no word. -/
theorem runsLeaveThePcInTheProgram : Obligations.RunsLeaveThePcInTheProgram := by
  intro s t h
  have hend : ∃ u, andThen (wrapPc u) endCommand = .next t := by
    rcases h with h | h
    · obtain ⟨u, -, hu⟩ := andThen_eq_next.mp h
      exact ⟨u, hu⟩
    · obtain ⟨u, -, hu⟩ := andThen_eq_next.mp h
      exact ⟨u, hu⟩
  obtain ⟨u, hu⟩ := hend
  obtain ⟨v, hv, ht⟩ := andThen_eq_next.mp hu
  cases ht
  have hb := sameBanks_afterCommand v
  obtain ⟨hr, hpc⟩ := wrapPc_bound hv
  exact ⟨(pcReadable_congr hb).mpr hr, (pcOf_congr hb).symm ▸ hpc⟩

end Sys2Proof.Machine
end

section
/-! Proofs of the statements on the two resets, 44_controller_commands.md R147 and R148. -/

namespace Sys2Proof.Machine

theorem exec_rstx (s : State) :
    exec .rstx s = andThen (bankSet .gpr 15 0 true (beginCommand s)) endCommand := rfl

/-- Settles O59: one notifying `set` at index 15, inside the bounds of a command. -/
theorem resetExecutionZeroesThePc : Obligations.ResetExecutionZeroesThePc := by
  intro s
  have hb := sameBanks_beginCommand s
  refine ⟨fun h => ?readable, fun h => ?unreadable⟩
  case readable =>
    obtain ⟨t, ht, hpeek, hframe, hev⟩ := bankSet_spec 0 true ((pcReadable_congr hb).mpr h)
    obtain ⟨hkept, hmap, -, hprog, hqueue, -⟩ := hframe
    have ha := sameBanks_afterCommand t
    refine ⟨afterCommand t, ?_, (pcOf_congr ha).trans (peek_eq_some.mp hpeek).2,
      fun b i hn => (hkept b i hn).trans (peek_congr hb b i), hb.sameMap.trans (hmap.trans ha.sameMap), hev, rfl,
      hprog, hqueue, rfl⟩
    rw [exec_rstx, ht, andThen_next, endCommand_eq]
  case unreadable =>
    have hr : inRange .gpr 15 (beginCommand s) = false := Bool.eq_false_iff.mpr (mt (pcReadable_congr hb).mp h)
    rw [exec_rstx, bankSet_outOfRange 0 true hr, andThen_fault]

/-- The size of a bank after power-on (10_state.md R43). -/
theorem loadSize_empty (b : Bank) (s : State) : loadSize b .empty s = (bankSize b .reset : Int) := by
  cases b <;> rfl

/-- A load of the empty record leaves the bank as after power-on, and the others as they were. -/
theorem sameBanks_loadMap_empty (b : Bank) (s : State) :
    SameBanks (remapBank b (bankSize b .reset) 0 s) (loadMap b .empty s) := by
  have h := sameBanks_loadMap b .empty s
  rwa [loadSize_empty, Int.toNat_natCast] at h

/-- Its events (40_wordstorage_ops.md R105): one write of 0 for each slot. -/
theorem ev_loadMap_empty (b : Bank) (s : State) : (loadMap b .empty s).ev = s.ev ++
    (if b = .mem ∧ (bankSize b s ≠ bankSize b .reset ∨ bankOff b s ≠ 0) then
      [.settingsChanged (bankSize b .reset) 0 .mem] else []) ++
    (List.range (bankSize b .reset)).flatMap fun k => writeEvents b (k : Nat) 0 true := by
  rw [ev_loadMap, notifications_loadMap rfl (loadOk_empty b s), loadSize_empty, Int.toNat_natCast]
  refine congrArg₂ (· ++ ·) (congrArg _ (if_congr (and_congr_right' (or_congr ne_comm ne_comm)) rfl rfl))
    (List.flatMap_congr fun k _ => ?_)
  change writeEvents b (0 + (k : Nat)) 0 true = _
  rw [Int.zero_add]

/-- One notification of the word 0 for each slot of a bank at offset 0. -/
def zeroNotices (b : Bank) : List Event :=
  (List.range (bankSize b .reset)).map fun k => .valueChanged b (k : Nat) 0 (bankComponent b)

/-- A write of 0 is that notification alone, except at the PC. -/
theorem zeroWrites_eq_notices {b : Bank} (h : b ≠ .gpr) :
    ((List.range (bankSize b .reset)).flatMap fun k => writeEvents b (k : Nat) 0 true) = zeroNotices b := by
  simp [zeroNotices, writeEvents, h, List.map_eq_flatMap]

theorem zeroWrites_gpr : ((List.range (bankSize .gpr .reset)).flatMap fun k => writeEvents .gpr (k : Nat) 0 true) =
    zeroNotices .gpr ++ [.pcChanged 0 .gpr] := rfl

theorem restore_empty (s : State) : restore .empty s =
    loadMap .status .empty (loadMap .vec .empty (loadMap .mem .empty (loadMap .gpr .empty s))) := rfl

/-- The restore of the empty snapshot leaves every bank as after power-on. -/
theorem sameBanks_restore_empty (s : State) : SameBanks .reset (restore .empty s) := by
  obtain ⟨hgpr₁, -⟩ := sameBanks_loadMap_empty .gpr s
  obtain ⟨hgpr₂, -, -, hmem₂⟩ := sameBanks_loadMap_empty .mem (loadMap .gpr .empty s)
  obtain ⟨hgpr₃, -, hvec₃, hmem₃⟩ := sameBanks_loadMap_empty .vec (loadMap .mem .empty (loadMap .gpr .empty s))
  obtain ⟨hgpr₄, hstatus₄, hvec₄, hmem₄⟩ := sameBanks_loadMap_empty .status
    (loadMap .vec .empty (loadMap .mem .empty (loadMap .gpr .empty s)))
  exact ⟨hgpr₄.trans (hgpr₃.trans (hgpr₂.trans hgpr₁)), hstatus₄, hvec₄.trans hvec₃, hmem₄.trans (hmem₃.trans hmem₂)⟩

theorem ev_restore_empty (s : State) : (restore .empty s).ev = s.ev ++ zeroNotices .gpr ++ [.pcChanged 0 .gpr] ++
    (if s.mem.n ≠ 32 ∨ s.mem.off ≠ 0 then [.settingsChanged 32 0 .mem] else []) ++
    zeroNotices .mem ++ zeroNotices .vec ++ zeroNotices .status := by
  obtain ⟨-, -, -, hmem⟩ := sameBanks_loadMap_empty .gpr s
  have hn : bankSize .mem (loadMap .gpr .empty s) = s.mem.n := congrArg Memory.n hmem
  have ho : bankOff .mem (loadMap .gpr .empty s) = s.mem.off := congrArg Memory.off hmem
  rw [restore_empty]
  simp only [ev_loadMap_empty, zeroWrites_gpr, zeroWrites_eq_notices, hn, ho, ne_eq, reduceCtorEq, not_false_eq_true,
    false_and, true_and, if_false, List.append_nil, List.append_assoc]
  rfl

theorem execMsRest_empty (s : State) : execMsRest .empty s = .next (setAnswer .none (restore .empty s)) :=
  exec_msRest_ok (by simp [snapshotMaps, Snapshot.empty, loadOk_empty])

theorem exec_rstm (s : State) :
    exec .rstm s = .next (afterCommand (setAnswer .none (restore .empty (beginCommand s)))) := by
  change andThen (execMsRest .empty (beginCommand s)) endCommand = _
  rw [execMsRest_empty, andThen_next, endCommand_eq]

/-- Settles O60: the restore of the empty snapshot is four loads of the empty record. -/
theorem resetMachineRestoresPowerOn : Obligations.ResetMachineRestoresPowerOn := by
  intro s
  obtain ⟨hprog, hqueue, -⟩ := exec_keeps_inputs (exec_rstm s)
  exact ⟨_, exec_rstm s, ((sameBanks_restore_empty _).trans (sameBanks_setAnswer ..)).trans (sameBanks_afterCommand _),
    rfl, hprog, hqueue, rfl, ev_restore_empty (beginCommand s)⟩

end Sys2Proof.Machine
end

section
/-! Proofs of the statements on 60_exceptions.md: the codes of the causes (R160, R167), and the ends of a `STEP`,
by its reports (R162, R163, R171, R173) and by a fault (R161). -/

namespace Sys2Proof.Machine

/-- Settles O15: `portF` gives each outcome its code. -/
theorem faultCodesOnThePort : Obligations.FaultCodesOnThePort :=
  ⟨fun _ => rfl, fun _ _ => rfl, fun _ _ => rfl, fun _ => rfl, rfl, rfl, rfl, rfl⟩

/-! A `STEP` that fails (R142, D11) -/

/-- The step core reads the PC first. -/
theorem stepCore_unreadable {s : State} (h : ¬ PcReadable s) : stepCore s = .fault (.addressing .gpr 15) := by
  rw [stepCore, readPc_fault h, andThen_fault]

/-- `STEP` whose one step fails ends with the report, and does not wrap (44_controller_commands.md R144). -/
theorem execStep_failed {s u : State} (h : stepCore (inCommand s) = .next (false, u)) :
    exec .step s = .next (afterCommand u) := by
  change execStep s = _
  rw [execStep, beginRun_eq, h, andThen_next, if_neg Bool.false_ne_true, endCommand_eq]

/-- What a `STEP` that only reports leaves: every bank, two events more, the controller `Idle` and no answer. -/
theorem execStep_reports {s : State} {kind : Cause} {info : DiagInfo}
    (h : stepCore (inCommand s) = .next (false, diagnose kind info (inCommand s))) :
    ∃ t, exec .step s = .next t ∧ SameBanks s t ∧
      t.ev = s.ev ++ [.clearHighlights .ctl, .diagnostic kind info .ctl] ∧
      t.ctl = .idle ∧ t.prog = s.prog ∧ t.queue = s.queue ∧ t.answer = .none :=
  ⟨_, execStep_failed h,
    (sameBanks_inCommand s).trans ((sameBanks_diagnose ..).trans (sameBanks_afterCommand _)),
    List.append_assoc .., rfl, rfl, rfl, rfl⟩

/-- Settles O49: the step core faults at an unreadable PC, and otherwise reports the PC or the error it finds. -/
theorem failedStepOnlyReports : Obligations.FailedStepOnlyReports := by
  refine ⟨fun s h => execStep_fault (stepCore_unreadable (mt (pcReadable_inCommand s).mp h)), fun s h => ?_⟩
  have hr := (pcReadable_inCommand s).mpr h
  have hpc := pcOf_inCommand s
  refine ⟨fun hp => ?invalidPc, fun msg span ha hi => ?errorInstruction⟩
  case invalidPc => exact execStep_reports (hpc ▸ stepCore_invalid hr (by rwa [hpc]))
  case errorInstruction => exact execStep_reports (hpc ▸ stepCore_error hr (by rwa [hpc]) (by rwa [hpc]))

/-! A `STEP` that executes (R142 to R144, D15) -/

/-- The wrap reads the PC. -/
theorem wrapPc_unreadable {s : State} (h : ¬ PcReadable s) : wrapPc s = .fault (.addressing .gpr 15) := by
  rw [wrapPc, readPc_fault h, andThen_fault]

/-- `STEP` at a valid instruction is its effect and the wrap. -/
theorem AtValid.execStep_eq {s u : State} {e : Effect} (h : AtValid s e)
    (hu : runEffect e [] (inCommand s) = .next u) : exec .step s = andThen (wrapPc u) endCommand :=
  execStep_executed ((atValid_inCommand h).stepCore_next hu)

/-- Settles O50: after the effect the wrap faults at a lost PC, and otherwise compares the PC with the program,
which no effect changes. -/
theorem stepRunsTheEffectThenWraps : Obligations.StepRunsTheEffectThenWraps := by
  refine ⟨fun s u e hs hu hlost => ?lostPc, fun s u e bp hr ha hi hu hr' => ?wrapped⟩
  case lostPc => rw [hs.execStep_eq hu, wrapPc_unreadable hlost, andThen_fault]
  case wrapped =>
    have hs : AtValid s e := ⟨hr, ha, bp, hi⟩
    obtain ⟨-, hprog, hqueue, -⟩ := changes_context (changes_runEffect hu)
    rw [inCommand_prog] at hprog
    obtain ⟨t, ht, hinside, hbeyond⟩ := wrapPc_endCommand hr'
    rw [← hs.execStep_eq hu] at ht
    rw [hprog] at hinside hbeyond
    refine ⟨fun hl => hinside hl ▸ ht, fun hl => ?_⟩
    obtain ⟨hpc, hpeek, hmap, hev, hctl, hprog', hqueue', -, hanswer⟩ := hbeyond hl
    exact ⟨t, ht, hpc, hpeek, hmap, hev, hctl, hprog', hqueue'.trans hqueue, hanswer⟩

end Sys2Proof.Machine
end

section
/-! Proofs of the statements on 70_reset_and_hazards.md: a step that runs no operation (R200), and the state after
power-on (R186). -/

namespace Sys2Proof.Machine

/-! A step that runs no operation -/

theorem step_program {s : State} {p : Program} {rest : List HostInput} (h : s.queue = .program p :: rest) :
    step s = .next { s with prog := p, queue := rest } := by
  simp only [step, h]

theorem step_idle {s : State} (h : s.queue = []) : step s = .next s := by
  simp only [step, h]

/-- Settles O7: the two arms of the step that take no command. -/
theorem stepBetweenOperations : Obligations.StepBetweenOperations :=
  ⟨fun _ _ _ => step_program, fun _ => step_idle⟩

/-! The state after power-on, bank by bank -/

theorem bankOff_reset (b : Bank) : bankOff b .reset = 0 := by
  cases b <;> rfl

/-- Every slot is 0: the registers are, and no byte of memory is listed. -/
theorem slotWord_reset (b : Bank) (k : Nat) : slotWord b k .reset = 0 := by
  cases b with
  | gpr | status | vec => exact replicate_getD _ k
  | mem => exact memWord_nil 32 0 k

theorem wordAt_reset (b : Bank) (i : Int) : wordAt b i .reset = 0 := slotWord_reset ..

/-- At offset 0 the external indices are the slots. -/
theorem inRange_reset (b : Bank) (i : Int) :
    inRange b i .reset = true ↔ 0 ≤ i ∧ i < bankSize b .reset := by
  rw [inRange, bankOff_reset, Int.sub_zero, decide_eq_true_iff]

theorem peek_reset (b : Bank) {i : Int} (h0 : 0 ≤ i) (h : i < bankSize b .reset) : peek b i .reset = some 0 :=
  peek_eq_some.mpr ⟨(inRange_reset b i).mpr ⟨h0, h⟩, wordAt_reset b i⟩

/-- The 32 words of memory hold the byte addresses below 128 (20_memory.md R53). -/
theorem inRange_wordIndex_reset (a : Nat) : inRange .mem (wordIndex a) .reset = true ↔ a < 128 := by
  have hsize : bankSize .mem .reset = 32 := rfl
  rw [inRange_reset, hsize, wordIndex]
  omega

theorem byteAt_reset {a : Nat} (h : a < 128) : byteAt a .reset = some 0 := by
  rw [byteAt_eq_some ((inRange_wordIndex_reset a).mpr h), wordAt_reset]
  exact congrArg some BitVec.extractLsb'_zero

theorem byteAt_reset_unmapped {a : Nat} (h : 128 ≤ a) : byteAt a .reset = none :=
  byteAt_eq_none (Bool.eq_false_iff.mpr (mt (inRange_wordIndex_reset a).mp (Nat.not_lt.mpr h)))

/-- Settles O8: all four banks read 0 at their external indices, and the bytes of memory are those of its words. -/
theorem powerOnState : Obligations.PowerOnState :=
  ⟨fun _ => peek_reset .gpr, wordAt_reset .gpr 15, fun _ => peek_reset .status, fun _ => peek_reset .vec,
    fun _ => peek_reset .mem, fun _ => byteAt_reset, fun _ => byteAt_reset_unmapped, bankOff_reset, rfl, rfl, rfl⟩

end Sys2Proof.Machine
end
